-- ==== Sys2Proof/Word.lean ====
section
/-! DEFINITION. The word types of DXTDEC (00_scope.md R7, R8: unsigned values, bit 0 the least significant). -/

namespace Sys2Proof

/-- One byte of IN or OUT, one colour channel, one alpha value. -/
abbrev Byte := BitVec 8

/-- A register, and a 32-bit header field. -/
abbrev Word := BitVec 32

/-- An RGB565 endpoint (30_encoding.md R101). -/
abbrev Endpoint := BitVec 16

/-- The 48 bits of a host access word or of a header selector (30_encoding.md R91, R110). -/
abbrev Word48 := BitVec 48

/-- A pixel number of a 4 by 4 tile, row-major (43_block_grid.md R216). -/
abbrev PixelNo := Fin 16

end Sys2Proof
end

