-- ==== Sys2Proof/Config.lean ====
section
/-! DEFINITION. What an implementation of DXTDEC fixes, and the values the spec leaves free. -/

namespace Sys2Proof

/-- The OPEN parameters of 00_scope.md R5. A machine carries them as data that no step changes, so every
statement over all states is a statement for all of them (log 1). -/
structure Params where
  /-- IN_CAP, bytes of input memory (R5: at least 1172) -/
  inCap  : Nat
  /-- OUT_CAP, bytes of output memory -/
  outCap : Nat
  /-- NLANES, block lanes decoding in parallel (R5: at least 1, not observable) -/
  nLanes : Nat
  deriving DecidableEq, Repr

/-- HDR_SIZE of R5. -/
def hdrSize : Nat := 1172

/-- The constraints R5 puts on the parameters. -/
def Params.legal (c : Params) : Bool :=
  decide (hdrSize ≤ c.inCap) && decide (1 ≤ c.nLanes)

/-- The value a read of a never-written IN byte draws (20_memory.md R61, 92_eei_decisions.md D26): the number
of the draw, then the address. Nothing is known of it (log 8). -/
opaque Config.freeInByte : Nat → Nat → Byte

/-- The byte OUT holds at an address since power-on (20_memory.md R62, 70_reset_and_hazards.md R341). Nothing
is known of it (log 9). -/
opaque Config.outPowerOn : Nat → Byte

/-- The choice the spec leaves open for an OUT byte of a running decode: the decode's value (true) or the
other (20_memory.md R74 (d), 70_reset_and_hazards.md R342, R347). The number of the draw, then the address.
Nothing is known of it (log 14, 15, 16). -/
opaque Config.takesDecoded : Nat → Nat → Bool

end Sys2Proof
end

