-- ==== Sys2Proof/Syntax.lean ====
section
/-! DEFINITION. The operations of spec/opcode_table.json, one constructor per row, and the form in which an
operation reaches the machine (30_encoding.md R91, R92, R110). -/

namespace Sys2Proof

/-- One constructor per row of the opcode table. The operands are those of the row's fields; a field that only
selects the operation (the endpoints a mode predicate compares) is kept, so that no bit of a word is lost. -/
inductive Instr where
  /-- HAW.RSV, 45_host_interface.md R275: an access word with reserved bits set -/
  | hawRsv (write : Bool) (rsv : BitVec 7) (offset : Byte) (data : Word)
  /-- RD, R270 -/
  | rd (offset : Byte) (data : Word)
  /-- WR.CTRL, R271 -/
  | wrCtrl (data : Word)
  /-- WR.FLEN_LO, R272 -/
  | wrFlenLo (data : Word)
  /-- WR.FLEN_HI, R273 -/
  | wrFlenHi (data : Word)
  /-- WR.IGN, R274 -/
  | wrIgn (offset : Byte) (data : Word)
  /-- DEC.DXT1, 43_block_grid.md R213, at a block address -/
  | decDxt1 (addr : Nat)
  /-- DEC.DXT3, R214 -/
  | decDxt3 (addr : Nat)
  /-- DEC.DXT5, R215 -/
  | decDxt5 (addr : Nat)
  /-- CMODE.4, 41_color_block.md R154: selected by c0 > c1 -/
  | cmode4 (c0 c1 : Endpoint)
  /-- CMODE.3, R155: selected by c0 ≤ c1 -/
  | cmode3 (c0 c1 : Endpoint)
  /-- CSEL.0, R157, for one pixel -/
  | csel0 (i : PixelNo)
  /-- CSEL.1, R157 -/
  | csel1 (i : PixelNo)
  /-- CSEL.2, R157 -/
  | csel2 (i : PixelNo)
  /-- CSEL.3, R157 -/
  | csel3 (i : PixelNo)
  /-- AEXP4, 42_alpha_block.md R181 -/
  | aexp4 (n : BitVec 4)
  /-- AMODE.8, R185: selected by a0 > a1 -/
  | amode8 (a0 a1 : Byte)
  /-- AMODE.6, R186: selected by a0 ≤ a1 -/
  | amode6 (a0 a1 : Byte)
  /-- ASEL.0, R188, for one pixel -/
  | asel0 (i : PixelNo)
  /-- ASEL.1, R188 -/
  | asel1 (i : PixelNo)
  /-- ASEL.2, R188 -/
  | asel2 (i : PixelNo)
  /-- ASEL.3, R188 -/
  | asel3 (i : PixelNo)
  /-- ASEL.4, R188 -/
  | asel4 (i : PixelNo)
  /-- ASEL.5, R188 -/
  | asel5 (i : PixelNo)
  /-- ASEL.6, R188 -/
  | asel6 (i : PixelNo)
  /-- ASEL.7, R188 -/
  | asel7 (i : PixelNo)
  /-- LE.READ, 40_bit_readers.md R130: n bytes of IN at a -/
  | leRead (a n : Nat)
  /-- BITWIN, R132: k bits at bit offset p of a byte array -/
  | bitwin (bytes : List Byte) (p k : Nat)
  /-- EXP565, 41_color_block.md R150 -/
  | exp565 (c : Endpoint)
  /-- CEND.READ, R151: the colour block at b -/
  | cendRead (b : Nat)
  /-- CPAL.01, R153 -/
  | cpal01 (c0 c1 : Endpoint)
  /-- CIDX.UNPACK, R156 -/
  | cidxUnpack (idxw : Word) (i : PixelNo)
  /-- DEC.COLOR, R158 -/
  | decColor (b : Nat)
  /-- ANIB.UNPACK, 42_alpha_block.md R180 -/
  | anibUnpack (b : Nat) (i : PixelNo)
  /-- DEC.ALPHA3, R182 -/
  | decAlpha3 (b : Nat)
  /-- AEND.READ, R183 -/
  | aendRead (b : Nat)
  /-- AIDX.UNPACK, R187: of six index bytes -/
  | aidxUnpack (bytes : List Byte) (i : PixelNo)
  /-- DEC.ALPHA5, R189 -/
  | decAlpha5 (b : Nat)
  /-- GRID.GEOM, 43_block_grid.md R211 -/
  | gridGeom (w h : Word)
  /-- GRID.ADDR, R212: of a block column and row -/
  | gridAddr (cx cy : Nat)
  /-- TILE.COPY, R217: for a block column and row -/
  | tileCopy (cx cy : Nat)
  /-- GRID.STEP, R218 -/
  | gridStep
  /-- HDR.PARSE, 44_container.md R240 -/
  | hdrParse
  /-- VALIDATE, R241 -/
  | validate
  /-- DECODE, R255 -/
  | decode
  deriving DecidableEq, Repr

/-- The operations 30_encoding.md R110 lists with no selector bits (format SEQ). -/
inductive SeqName where
  | leRead | bitwin | exp565 | cendRead | cpal01 | cidxUnpack | decColor | anibUnpack | decAlpha3 | aendRead
  | aidxUnpack | decAlpha5 | gridGeom | gridAddr | tileCopy | gridStep | hdrParse | validate | decode
  deriving DecidableEq, Repr

/-- The formats of the opcode table (30_encoding.md R91, R110). PRED stands for two formats of different words:
the colour endpoints and the alpha endpoints. A SEQ operation has no bits: its name is its format. -/
inductive Format where
  | haw
  | hdrsel
  | predColour
  | predAlpha
  | cidx2
  | nib4
  | aidx3
  | seq (op : SeqName)
  deriving DecidableEq, Repr

/-- What reaches the decoder: a format, the word of that format (its bits as the opcode table numbers them, the
rest 0) and the operands that have no bits in the word, as naturals in the order of the constructor (log 4). -/
structure Code where
  fmt      : Format
  word     : Word48
  operands : List Nat
  deriving DecidableEq, Repr

end Sys2Proof
end

