-- ==== Sys2Proof/Machine/State.lean ====
section
/-! DEFINITION. The state of DXTDEC (10_state.md, 20_memory.md) and its reset (R46). Every field is plain data. -/

namespace Sys2Proof.Machine

/-- The sequencer's control state (10_state.md R35). -/
inductive Phase where
  | idle | validate | grid | done | error
  deriving DecidableEq, Repr

/-- The variant of a decode (R30, R38); `none` is the value 0 of R46. -/
inductive Variant where
  | none | dxt1 | dxt3 | dxt5
  deriving DecidableEq, Repr

/-- An RGBA8 value of four 8-bit channels (R41). -/
structure Pixel where
  r : Byte
  g : Byte
  b : Byte
  a : Byte
  deriving DecidableEq, Repr

/-- The registers of R22 that hold state. CTRL holds none (R23) and STATUS is computed (R24). -/
structure Regs where
  fileLenLo   : Word
  fileLenHi   : Word
  width       : Word
  height      : Word
  contentType : Word
  hdrBytes    : Word
  mip0Offset  : Word
  mip0Length  : Word
  variant     : Word
  blocksX     : Word
  blocksY     : Word
  outLenLo    : Word
  outLenHi    : Word
  deriving DecidableEq, Repr

/-- The parsed header record (R37). -/
structure Header where
  magic       : Vector Byte 4
  contentType : Word
  compression : Byte
  alphaDepth  : Byte
  alphaKind   : Byte
  hasMips     : Byte
  width       : Word
  height      : Word
  mipOffsets  : Vector Word 16
  mipLengths  : Vector Word 16
  palette     : Vector Word 256
  deriving DecidableEq, Repr

/-- The geometry of the running decode (R38). The block counts are exact counts (log 13). -/
structure Geometry where
  variant    : Variant
  blockBytes : Nat
  blocksX    : Nat
  blocksY    : Nat
  base       : Word
  w          : Word
  h          : Word
  deriving DecidableEq, Repr

/-- IN or OUT: the bytes listed, addresses strictly rising. What an unlisted address reads as is
`readIn` and `readOut` of Ops.lean (log 8, 9, 20). -/
abbrev Memory := List Host.Cell

/-- What an operation that returns a value returned to its caller (the model's own port, log 7). -/
inductive Ret where
  /-- nothing returned yet -/
  | none
  /-- the 32-bit value of a register read (30_encoding.md R91) -/
  | word (v : Word)
  /-- a byte HOST read from IN or OUT (45_host_interface.md R276) -/
  | byte (v : Byte)
  /-- the value of a reader, an index, a nibble, an address -/
  | value (n : Nat)
  /-- the colour of EXP565 (41_color_block.md R150) -/
  | rgb (r g b : Byte)
  deriving DecidableEq, Repr

/-- One entry of the interleaving of HOST, CORE and the platform (45_host_interface.md R277, log 2). -/
inductive Action where
  /-- an operation: HOST's access word, or an operation named by its format (log 6) -/
  | invoke (c : Code)
  /-- HOST writes a byte of IN (R276) -/
  | inWrite (a : Nat) (v : Byte)
  /-- HOST reads a byte of IN (20_memory.md R61) -/
  | inRead (a : Nat)
  /-- HOST writes a byte of OUT (R276) -/
  | outWrite (a : Nat) (v : Byte)
  /-- HOST reads a byte of OUT (R276) -/
  | outRead (a : Nat)
  /-- HOST runs the loop WAIT of 30_encoding.md R114 until STATE is not BUSY (log 30) -/
  | wait
  /-- the platform asserts RST (70_reset_and_hazards.md R340) -/
  | rst
  /-- CORE takes the step that is enabled, if one is (R277) -/
  | core
  deriving DecidableEq, Repr

/-- The error kinds of 60_exceptions.md R300. IOError and WriteFailed belong to host software; CORE never
raises them (R302). The three causes of Truncated and the two of CapacityExceeded are not told apart (R301). -/
inductive ErrorKind where
  | badMagic | unsupportedContentType | unsupportedCompression | unsupportedAlphaKind | noMipLevel | truncated
  | ioError | writeFailed | capacityExceeded
  deriving DecidableEq, Repr

/-- Why the machine stops. -/
inductive Fault where
  /-- an access to an IN address at or beyond IN_CAP, which does not exist (45_host_interface.md R276,
  20_memory.md R61); raised by HOST's IN accesses and by operations that read IN; safe -/
  | noSuchInAddress
  /-- an access to an OUT address at or beyond OUT_CAP, which does not exist (R276, R62); raised by HOST's OUT
  accesses, TILE.COPY and GRID.STEP; safe -/
  | noSuchOutAddress
  /-- GRID.STEP with no variant latched: no case of 43_block_grid.md R218 applies; raised by GRID.STEP; safe -/
  | noVariant
  deriving DecidableEq, Repr

/-- Why the machine gives a run no meaning. -/
inductive Refusal where
  /-- an operation with no meaning yet; raised by exec's arms; safe -/
  | notModelled (mnemonic : String)
  /-- HOST writes a byte of IN[0 .. len) while BUSY (70_reset_and_hazards.md R346: a model refuses such a
  run); raised by HOST's IN write; safe -/
  | inputHazard
  /-- an invocation that decodes to no operation, which no agent issues (30_encoding.md R110, R111); raised by
  step; safe -/
  | undecodable
  deriving DecidableEq, Repr

/-- The whole machine. -/
structure State where
  /-- the parameters of 00_scope.md R5 -/
  cfg        : Params
  /-- the host-visible registers, R22 -/
  regs       : Regs
  /-- R35 -/
  phase      : Phase
  /-- R36 -/
  err        : BitVec 4
  /-- R36: FILE_LEN as sampled by the accepted START -/
  len        : BitVec 64
  /-- R37 -/
  hdr        : Header
  /-- R38 -/
  geom       : Geometry
  /-- R39: bx -/
  iterX      : Nat
  /-- R39: by -/
  iterY      : Nat
  /-- R41 -/
  c0         : Endpoint
  c1         : Endpoint
  idxw       : Word
  /-- R44 -/
  fourColor  : Bool
  /-- R41: P[0..4) -/
  pal        : Vector Pixel 4
  /-- R42 -/
  alpha64    : BitVec 64
  a0         : Byte
  a1         : Byte
  /-- R44 -/
  eightAlpha : Bool
  /-- R42: A[0..8) -/
  alphaTab   : Vector Byte 8
  aidx48     : BitVec 48
  /-- R43: T[0..64) -/
  tile       : Vector Byte 64
  /-- 20_memory.md R61 -/
  inMem      : Memory
  /-- R62 -/
  outMem     : Memory
  /-- the model's own: OUT as it would stand without the running decode (log 14) -/
  outBefore  : Memory
  /-- the model's own: the OUT addresses HOST wrote while BUSY (log 15) -/
  outRaced   : List Nat
  /-- the model's own: the number of the next draw (log 8) -/
  draws      : Nat
  /-- the model's own: the first of the draws set aside for the running decode (log 8) -/
  decodeDraws : Nat
  /-- the model's own: the last value returned (log 7) -/
  ret        : Ret
  /-- the model's own: the actions still to come (log 2) -/
  schedule   : List Action
  deriving DecidableEq, Repr

/-- R22: every register is 0 after reset. -/
def Regs.reset : Regs where
  fileLenLo := 0
  fileLenHi := 0
  width := 0
  height := 0
  contentType := 0
  hdrBytes := 0
  mip0Offset := 0
  mip0Length := 0
  variant := 0
  blocksX := 0
  blocksY := 0
  outLenLo := 0
  outLenHi := 0

/-- R46: the header record is 0 after reset. -/
def Header.reset : Header where
  magic := Vector.replicate 4 0
  contentType := 0
  compression := 0
  alphaDepth := 0
  alphaKind := 0
  hasMips := 0
  width := 0
  height := 0
  mipOffsets := Vector.replicate 16 0
  mipLengths := Vector.replicate 16 0
  palette := Vector.replicate 256 0

/-- R46: the geometry is 0 after reset. -/
def Geometry.reset : Geometry where
  variant := .none
  blockBytes := 0
  blocksX := 0
  blocksY := 0
  base := 0
  w := 0
  h := 0

/-- DESIGN CHOICE (log 1): the capacities of the spec's test vectors, one lane. -/
def resetParams : Params := ⟨4096, 4096, 1⟩

/-- 10_state.md R46: the machine after power-on, which is a reset with IN and OUT unspecified
(70_reset_and_hazards.md R341). -/
def State.reset : State where
  cfg := resetParams
  regs := Regs.reset
  phase := .idle
  err := 0
  len := 0
  hdr := Header.reset
  geom := Geometry.reset
  iterX := 0
  iterY := 0
  c0 := 0
  c1 := 0
  idxw := 0
  fourColor := false
  pal := Vector.replicate 4 ⟨0, 0, 0, 0⟩
  alpha64 := 0
  a0 := 0
  a1 := 0
  eightAlpha := false
  alphaTab := Vector.replicate 8 0
  aidx48 := 0
  tile := Vector.replicate 64 0
  inMem := []
  outMem := []
  outBefore := []
  outRaced := []
  draws := 0
  decodeDraws := 0
  ret := .none
  schedule := []

end Sys2Proof.Machine
end

