-- ==== Sys2Proof/Machine/Operands.lean ====
section
/-! DEFINITION. The operand forms and the arithmetic of the datapath: fields, windows, expansions, palette and
alpha entries, coordinates (30_encoding.md section 5, 40_bit_readers.md to 43_block_grid.md). -/

namespace Sys2Proof.Machine

/-- The little-endian value of bytes (40_bit_readers.md R130, 20_memory.md R64). -/
def leValue : List Byte → Nat
  | [] => 0
  | b :: bs => b.toNat + 256 * leValue bs

/-- R132: the second byte of a bit window, read only when the window crosses the seam. -/
def windowHigh (bytes : List Byte) (p k : Nat) : Nat :=
  if 8 < p % 8 + k then (bytes.getD (p / 8 + 1) 0).toNat else 0

/-- BITWIN(B, p, k) of R132, the canonical form. -/
def bitWindow (bytes : List Byte) (p k : Nat) : Nat :=
  (((bytes.getD (p / 8) 0).toNat + 256 * windowHigh bytes p k) / 2 ^ (p % 8)) % 2 ^ k

/-- EXP565, 41_color_block.md R150: shifts of the fields of 30_encoding.md R101, no replication. -/
def expandRed (c : Endpoint) : Byte := (c.extractLsb' 11 5).setWidth 8 <<< 3
def expandGreen (c : Endpoint) : Byte := (c.extractLsb' 5 6).setWidth 8 <<< 2
def expandBlue (c : Endpoint) : Byte := (c.extractLsb' 0 5).setWidth 8 <<< 3

/-- The opaque pixel of an endpoint (R153). -/
def endpointPixel (c : Endpoint) : Pixel := ⟨expandRed c, expandGreen c, expandBlue c, 255⟩

/-- (2x + y) / 3, truncating (R154). -/
def twoThirds (x y : Byte) : Byte := BitVec.ofNat 8 ((2 * x.toNat + y.toNat) / 3)

/-- (x + y) / 2, truncating (R155). -/
def average (x y : Byte) : Byte := BitVec.ofNat 8 ((x.toNat + y.toNat) / 2)

/-- A channel operation on three colour lanes, alpha 255 (R154, R155: lanes are independent). -/
def mixPixels (f : Byte → Byte → Byte) (p q : Pixel) : Pixel := ⟨f p.r q.r, f p.g q.g, f p.b q.b, 255⟩

/-- Fully transparent black (R155). -/
def transparentBlack : Pixel := ⟨0, 0, 0, 0⟩

/-- A channel of a pixel by its byte number R, G, B, A (10_state.md R43). -/
def Pixel.channel (p : Pixel) (c : Fin 4) : Byte :=
  match c with
  | 0 => p.r
  | 1 => p.g
  | 2 => p.b
  | 3 => p.a

/-- cidx(i) = idxw[2i+1 : 2i] (R156). -/
def colourIndex (idxw : Word) (i : PixelNo) : BitVec 2 := idxw.extractLsb' (2 * i.val) 2

/-- nib(i) = alpha64[4i+3 : 4i] (42_alpha_block.md R180). -/
def alphaNibble (alpha64 : BitVec 64) (i : PixelNo) : BitVec 4 := alpha64.extractLsb' (4 * i.val) 4

/-- AEXP4, R181: (n << 4) | n. -/
def expandNibble (n : BitVec 4) : Byte := (n.setWidth 8 <<< 4) ||| n.setWidth 8

/-- aidx(i) = aidx48[3i+2 : 3i] (R187, 30_encoding.md R106). -/
def alphaIndex (aidx48 : BitVec 48) (i : PixelNo) : BitVec 3 := aidx48.extractLsb' (3 * i.val) 3

/-- The eight-alpha table of R185. -/
def eightAlphaTable (a0 a1 : Byte) : Vector Byte 8 :=
  Vector.ofFn fun k =>
    if k.val = 0 then a0
    else if k.val = 1 then a1
    else BitVec.ofNat 8 (((8 - k.val) * a0.toNat + (k.val - 1) * a1.toNat) / 7)

/-- The six-alpha table of R186. -/
def sixAlphaTable (a0 a1 : Byte) : Vector Byte 8 :=
  Vector.ofFn fun k =>
    if k.val = 0 then a0
    else if k.val = 1 then a1
    else if k.val = 6 then 0
    else if k.val = 7 then 255
    else BitVec.ofNat 8 (((6 - k.val) * a0.toNat + (k.val - 1) * a1.toNat) / 5)

/-- A tile with one byte of one pixel replaced (10_state.md R43). -/
def putByte (t : Vector Byte 64) (i : PixelNo) (c : Fin 4) (v : Byte) : Vector Byte 64 :=
  t.set (4 * i.val + c.val) v (by omega)

/-- A byte of one pixel of a tile. -/
def tileByte (t : Vector Byte 64) (i : PixelNo) (c : Fin 4) : Byte := t[4 * i.val + c.val]'(by omega)

/-- ceil(n / 4), exact (43_block_grid.md R211). -/
def blocksOf (n : Nat) : Nat := (n + 3) / 4

/-- R210: bytes per block by variant; 0 with none latched. -/
def blockBytesOf : Variant → Nat
  | .none => 0
  | .dxt1 => 8
  | .dxt3 => 16
  | .dxt5 => 16

/-- The VARIANT register's code (10_state.md R30). -/
def variantCode : Variant → Word
  | .none => 0
  | .dxt1 => 1
  | .dxt3 => 2
  | .dxt5 => 3

/-- The dispatch of 44_container.md R248. -/
def variantOf (alphaKind : Byte) : Variant :=
  if alphaKind = 0 then .dxt1
  else if alphaKind = 1 then .dxt3
  else if alphaKind = 7 then .dxt5
  else .none

/-- The OUT address of channel c of image pixel (x, y) (20_memory.md R66). -/
def outAddress (w x y c : Nat) : Nat := 4 * (y * w + x) + c

/-- R216: a tile pixel's image column in block column cx. -/
def imageX (cx : Nat) (i : PixelNo) : Nat := 4 * cx + i.val % 4

/-- R216: a tile pixel's image row in block row cy. -/
def imageY (cy : Nat) (i : PixelNo) : Nat := 4 * cy + i.val / 4

/-- The tile pixel of an image pixel (R221). -/
def tilePixel (x y : Nat) : PixelNo := ⟨4 * (y % 4) + x % 4, by omega⟩

end Sys2Proof.Machine
end

