-- ==== Sys2Proof/Machine/Flags.lean ====
section
/-! DEFINITION. The two flags of 10_state.md R44. -/

namespace Sys2Proof.Machine

/-- four_color, 41_color_block.md R152: the raw endpoints compared as unsigned 16-bit integers. -/
def isFourColour (c0 c1 : Endpoint) : Bool := decide (c1.toNat < c0.toNat)

/-- eight_alpha, 42_alpha_block.md R184: the endpoints compared as unsigned bytes. -/
def isEightAlpha (a0 a1 : Byte) : Bool := decide (a1.toNat < a0.toNat)

/-- Writes four_color from the endpoints read. -/
def State.setFourColour (s : State) : State := { s with fourColor := isFourColour s.c0 s.c1 }

/-- Writes eight_alpha from the endpoints read. -/
def State.setEightAlpha (s : State) : State := { s with eightAlpha := isEightAlpha s.a0 s.a1 }

end Sys2Proof.Machine
end

