-- ==== Sys2Proof/Machine/Ops.lean ====
section
/-! DEFINITION. The named operations over memory and registers, taking an error (60_exceptions.md R301) and the
accepted START that leaves it (R305). -/

namespace Sys2Proof.Machine

/-- The byte listed at an address. -/
def Memory.lookup : Memory → Nat → Option Byte
  | [], _ => none
  | (b, v) :: rest, a => if b = a then some v else Memory.lookup rest a

/-- The memory with one byte written, addresses kept rising (log 20). -/
def Memory.write : Memory → Nat → Byte → Memory
  | [], a, v => [(a, v)]
  | (b, w) :: rest, a, v =>
    if a < b then (a, v) :: (b, w) :: rest
    else if a = b then (a, v) :: rest
    else (b, w) :: Memory.write rest a v

/-- Bytes written one after the other. -/
def Memory.writeAll (m : Memory) (cells : List Host.Cell) : Memory :=
  cells.foldl (fun m c => Memory.write m c.1 c.2) m

/-- The canonical form: addresses strictly rising (log 20). -/
abbrev Memory.wf (m : Memory) : Prop := m.Pairwise fun x y => x.1 < y.1

/-- Every listed address exists. -/
abbrev Memory.below (m : Memory) (cap : Nat) : Prop := ∀ c ∈ m, c.1 < cap

/-- IN[a]: a byte never written is the draw of this reading (20_memory.md R61). -/
def State.readIn (s : State) (a : Nat) : Byte := (s.inMem.lookup a).getD (Config.freeInByte s.draws a)

/-- The bytes of IN from a on. -/
def State.readInBytes (s : State) (a n : Nat) : List Byte := (List.range n).map fun j => s.readIn (a + j)

/-- MemRead(a, n) (40_bit_readers.md R130). -/
def State.memRead (s : State) (a n : Nat) : Nat := leValue (s.readInBytes a n)

/-- The bytes a to a + n - 1 of IN exist (R61, 45_host_interface.md R276). -/
def State.inExists (s : State) (a n : Nat) : Bool := decide (a + n ≤ s.cfg.inCap)

/-- The next reading of IN, or the next choice, draws anew (D26). -/
def State.tick (s : State) : State := { s with draws := s.draws + 1 }

/-- The draws set aside for one decode: two for VALIDATE and two for each block, of which an accepted image has
fewer than 2^29 (00_scope.md R6; log 8). -/
def decodeReadings : Nat := 2 ^ 31

/-- The machine at one of the running decode's own readings of IN, whatever HOST read meanwhile: a decode has one
value for each OUT byte it writes (20_memory.md R74 (d); log 8). -/
def State.atReading (s : State) (k : Nat) : State := { s with draws := s.decodeDraws + k }

/-- A byte of an OUT memory: one never written holds its power-on value (R62, log 9). -/
def readOutOf (m : Memory) (a : Nat) : Byte := (m.lookup a).getD (Config.outPowerOn a)

/-- OUT[a]. -/
def State.readOut (s : State) (a : Nat) : Byte := readOutOf s.outMem a

/-- OUT[a] as it would stand without the running decode (log 14). -/
def State.readBefore (s : State) (a : Nat) : Byte := readOutOf s.outBefore a

/-- STATUS.STATE = BUSY (10_state.md R24). -/
def State.busy (s : State) : Bool := s.phase == .validate || s.phase == .grid

/-- STATE as a function of the phase (R24). -/
def stateField : Phase → BitVec 2
  | .idle => 0
  | .validate => 1
  | .grid => 1
  | .done => 2
  | .error => 3

/-- STATUS (R24): the error code, two reserved zeros, STATE. -/
def State.status (s : State) : Word := (0 : BitVec 24) ++ s.err ++ (0 : BitVec 2) ++ stateField s.phase

/-- FILE_LEN (R25). -/
def State.fileLen (s : State) : BitVec 64 := s.regs.fileLenHi ++ s.regs.fileLenLo

/-- The register at an offset (R22, R33, 45_host_interface.md R270): misaligned and unmapped offsets and CTRL
read 0. -/
def State.readReg (s : State) (offset : Byte) : Word :=
  match offset.toNat with
  | 0x04 => s.status
  | 0x08 => s.regs.fileLenLo
  | 0x0C => s.regs.fileLenHi
  | 0x10 => s.regs.width
  | 0x14 => s.regs.height
  | 0x18 => s.regs.contentType
  | 0x1C => s.regs.hdrBytes
  | 0x20 => s.regs.mip0Offset
  | 0x24 => s.regs.mip0Length
  | 0x28 => s.regs.variant
  | 0x2C => s.regs.blocksX
  | 0x30 => s.regs.blocksY
  | 0x34 => s.regs.outLenLo
  | 0x38 => s.regs.outLenHi
  | _ => 0

/-- The numeric codes of 60_exceptions.md R300. -/
def errorCode : ErrorKind → BitVec 4
  | .badMagic => 1
  | .unsupportedContentType => 2
  | .unsupportedCompression => 3
  | .unsupportedAlphaKind => 4
  | .noMipLevel => 5
  | .truncated => 6
  | .ioError => 7
  | .writeFailed => 8
  | .capacityExceeded => 9

/-- R301, the analogue of taking an exception: err and phase, nothing else of the machine. The decode is over,
so the model's own record of OUT before it is dropped. -/
def State.raise (s : State) (e : ErrorKind) : State :=
  { s with err := errorCode e, phase := .error, outBefore := [], outRaced := [] }

/-- An accepted START (45_host_interface.md R271), the only way out of ERROR but for reset (R305): FILE_LEN is
sampled, ERR and the result registers are cleared, VALIDATE is entered. OUT is not cleared. The decode's own
readings of IN are set aside (log 8). -/
def State.acceptStart (s : State) : State :=
  { s with
    len := s.fileLen
    err := 0
    regs := { Regs.reset with fileLenLo := s.regs.fileLenLo, fileLenHi := s.regs.fileLenHi }
    phase := .validate
    outBefore := s.outMem
    outRaced := []
    draws := s.draws + decodeReadings
    decodeDraws := s.draws }

/-- OUT_LEN of the running decode (R32). -/
def Geometry.outLen (g : Geometry) : Nat := g.w.toNat * g.h.toNat * 4

/-- What an operation answers that reads n bytes of IN at a. -/
def State.whenInExists (s : State) (a n : Nat) (t : State) : Host.Outcome State Fault Refusal :=
  if s.inExists a n then .next t else .fault .noSuchInAddress

/-- The next state of an outcome, if it is one. -/
def nextState (o : Host.Outcome State Fault Refusal) : Option State :=
  match o with
  | .next s => some s
  | .fault _ => none
  | .refused _ => none

end Sys2Proof.Machine
end

