-- ==== Sys2Proof/Machine/Alpha.lean ====
section
/-! DEFINITION. The alpha block decoders (42_alpha_block.md). They write only the alpha bytes of the tile. -/

namespace Sys2Proof.Machine

/-- The explicit alpha field of the DXT3 block at b (R182). -/
def State.readAlpha64 (s : State) (b : Nat) : State :=
  { s with alpha64 := BitVec.ofNat 64 (s.memRead b 8), draws := s.draws + 1 }

/-- R182: the alpha byte of a pixel from its nibble. -/
def State.putNibbleAlpha (s : State) (i : PixelNo) : State :=
  { s with tile := putByte s.tile i 3 (expandNibble (alphaNibble s.alpha64 i)) }

/-- DEC.ALPHA3, R182. -/
def State.decodeAlpha3 (s : State) (b : Nat) : State :=
  (List.finRange 16).foldl State.putNibbleAlpha (s.readAlpha64 b)

/-- AEND.READ, R183. -/
def State.readAlphaEnds (s : State) (b : Nat) : State :=
  { s with
    a0 := s.readIn b
    a1 := s.readIn (b + 1)
    aidx48 := BitVec.ofNat 48 (s.memRead (b + 2) 6)
    draws := s.draws + 1 }

/-- AMODE.8, R185. -/
def State.eightAlphaEntries (s : State) (a0 a1 : Byte) : State := { s with alphaTab := eightAlphaTable a0 a1 }

/-- AMODE.6, R186. -/
def State.sixAlphaEntries (s : State) (a0 a1 : Byte) : State := { s with alphaTab := sixAlphaTable a0 a1 }

/-- R185, R186: the mode's table. -/
def State.alphaEntries (s : State) : State :=
  if s.eightAlpha then s.eightAlphaEntries s.a0 s.a1 else s.sixAlphaEntries s.a0 s.a1

/-- The table entry of a 3-bit index. -/
def State.alphaEntry (s : State) (k : BitVec 3) : Byte := s.alphaTab[k.toNat]'(k.isLt)

/-- ASEL.k for pixel i, R188. -/
def State.selectAlpha (s : State) (k : BitVec 3) (i : PixelNo) : State :=
  { s with tile := putByte s.tile i 3 (s.alphaEntry k) }

/-- The alpha table of the block at b: R189 up to the selection of the pixels. -/
def State.loadAlphaTable (s : State) (b : Nat) : State := ((s.readAlphaEnds b).setEightAlpha).alphaEntries

/-- R189: ASEL.aidx(i) for every pixel. -/
def State.selectAlphas (s : State) : State :=
  (List.finRange 16).foldl (fun t i => t.selectAlpha (alphaIndex t.aidx48 i) i) s

/-- DEC.ALPHA5, R189. -/
def State.decodeAlpha5 (s : State) (b : Nat) : State := (s.loadAlphaTable b).selectAlphas

/-- ANIB.UNPACK, R180: the nibble of pixel i of the alpha field at b (log 18: alpha64 is not written). -/
def execAnibUnpack (b : Nat) (i : PixelNo) (s : State) : Host.Outcome State Fault Refusal :=
  s.whenInExists b 8 { s.tick with ret := .value (alphaNibble (BitVec.ofNat 64 (s.memRead b 8)) i).toNat }

/-- AEXP4, R181. -/
def execAexp4 (n : BitVec 4) (s : State) : Host.Outcome State Fault Refusal :=
  .next { s with ret := .value (expandNibble n).toNat }

/-- DEC.ALPHA3, R182. -/
def execDecAlpha3 (b : Nat) (s : State) : Host.Outcome State Fault Refusal :=
  s.whenInExists b 8 (s.decodeAlpha3 b)

/-- AEND.READ, R183. -/
def execAendRead (b : Nat) (s : State) : Host.Outcome State Fault Refusal :=
  s.whenInExists b 8 (s.readAlphaEnds b)

/-- AMODE.8, R185. -/
def execAmode8 (a0 a1 : Byte) (s : State) : Host.Outcome State Fault Refusal := .next (s.eightAlphaEntries a0 a1)

/-- AMODE.6, R186. -/
def execAmode6 (a0 a1 : Byte) (s : State) : Host.Outcome State Fault Refusal := .next (s.sixAlphaEntries a0 a1)

/-- AIDX.UNPACK, R187: BITWIN(B[2..8), 3i, 3). -/
def execAidxUnpack (bytes : List Byte) (i : PixelNo) (s : State) : Host.Outcome State Fault Refusal :=
  .next { s with ret := .value (bitWindow bytes (3 * i.val) 3) }

/-- ASEL.0, R188. -/
def execAsel0 (i : PixelNo) (s : State) : Host.Outcome State Fault Refusal := .next (s.selectAlpha 0 i)

/-- ASEL.1, R188. -/
def execAsel1 (i : PixelNo) (s : State) : Host.Outcome State Fault Refusal := .next (s.selectAlpha 1 i)

/-- ASEL.2, R188. -/
def execAsel2 (i : PixelNo) (s : State) : Host.Outcome State Fault Refusal := .next (s.selectAlpha 2 i)

/-- ASEL.3, R188. -/
def execAsel3 (i : PixelNo) (s : State) : Host.Outcome State Fault Refusal := .next (s.selectAlpha 3 i)

/-- ASEL.4, R188. -/
def execAsel4 (i : PixelNo) (s : State) : Host.Outcome State Fault Refusal := .next (s.selectAlpha 4 i)

/-- ASEL.5, R188. -/
def execAsel5 (i : PixelNo) (s : State) : Host.Outcome State Fault Refusal := .next (s.selectAlpha 5 i)

/-- ASEL.6, R188. -/
def execAsel6 (i : PixelNo) (s : State) : Host.Outcome State Fault Refusal := .next (s.selectAlpha 6 i)

/-- ASEL.7, R188. -/
def execAsel7 (i : PixelNo) (s : State) : Host.Outcome State Fault Refusal := .next (s.selectAlpha 7 i)

/-- DEC.ALPHA5, R189. -/
def execDecAlpha5 (b : Nat) (s : State) : Host.Outcome State Fault Refusal :=
  s.whenInExists b 8 (s.decodeAlpha5 b)

end Sys2Proof.Machine
end

