-- ==== Sys2Proof/Machine/Colour.lean ====
section
/-! DEFINITION. The colour block decoder (41_color_block.md). -/

namespace Sys2Proof.Machine

/-- CEND.READ, R151: endpoints and index word of the colour block at b. -/
def State.readEndpoints (s : State) (b : Nat) : State :=
  { s with
    c0 := BitVec.ofNat 16 (s.memRead b 2)
    c1 := BitVec.ofNat 16 (s.memRead (b + 2) 2)
    idxw := BitVec.ofNat 32 (s.memRead (b + 4) 4)
    draws := s.draws + 1 }

/-- CPAL.01, R153. -/
def State.setSlots01 (s : State) (c0 c1 : Endpoint) : State :=
  { s with pal := (s.pal.set 0 (endpointPixel c0)).set 1 (endpointPixel c1) }

/-- CMODE.4, R154. -/
def State.fourColourSlots (s : State) : State :=
  { s with
    pal := (s.pal.set 2 (mixPixels twoThirds s.pal[0] s.pal[1])).set 3 (mixPixels twoThirds s.pal[1] s.pal[0]) }

/-- CMODE.3, R155. -/
def State.threeColourSlots (s : State) : State :=
  { s with pal := (s.pal.set 2 (mixPixels average s.pal[0] s.pal[1])).set 3 transparentBlack }

/-- The palette slot of a 2-bit index. -/
def State.slot (s : State) (k : BitVec 2) : Pixel := s.pal[k.toNat]'(k.isLt)

/-- A tile with the four bytes of one pixel replaced. -/
def putPixel (t : Vector Byte 64) (i : PixelNo) (p : Pixel) : Vector Byte 64 :=
  putByte (putByte (putByte (putByte t i 0 p.r) i 1 p.g) i 2 p.b) i 3 p.a

/-- CSEL.k for pixel i, R157. -/
def State.selectColour (s : State) (k : BitVec 2) (i : PixelNo) : State :=
  { s with tile := putPixel s.tile i (s.slot k) }

/-- R154, R155: the mode's two slots. -/
def State.modeSlots (s : State) : State :=
  if s.fourColor then s.fourColourSlots else s.threeColourSlots

/-- The palette of the block at b: R158 up to the selection of the pixels. -/
def State.loadPalette (s : State) (b : Nat) : State :=
  let t := (s.readEndpoints b).setFourColour
  (t.setSlots01 t.c0 t.c1).modeSlots

/-- R158: CSEL.cidx(i) for every pixel. -/
def State.selectColours (s : State) : State :=
  (List.finRange 16).foldl (fun t i => t.selectColour (colourIndex t.idxw i) i) s

/-- DEC.COLOR, R158. -/
def State.decodeColour (s : State) (b : Nat) : State := (s.loadPalette b).selectColours

/-- EXP565, R150. -/
def execExp565 (c : Endpoint) (s : State) : Host.Outcome State Fault Refusal :=
  .next { s with ret := .rgb (expandRed c) (expandGreen c) (expandBlue c) }

/-- CEND.READ, R151. -/
def execCendRead (b : Nat) (s : State) : Host.Outcome State Fault Refusal :=
  s.whenInExists b 8 (s.readEndpoints b)

/-- CPAL.01, R153. -/
def execCpal01 (c0 c1 : Endpoint) (s : State) : Host.Outcome State Fault Refusal :=
  .next (s.setSlots01 c0 c1)

/-- CMODE.4, R154: the endpoints select the operation, its operands are P[0] and P[1]. -/
def execCmode4 (_c0 _c1 : Endpoint) (s : State) : Host.Outcome State Fault Refusal :=
  .next s.fourColourSlots

/-- CMODE.3, R155. -/
def execCmode3 (_c0 _c1 : Endpoint) (s : State) : Host.Outcome State Fault Refusal :=
  .next s.threeColourSlots

/-- CIDX.UNPACK, R156. -/
def execCidxUnpack (idxw : Word) (i : PixelNo) (s : State) : Host.Outcome State Fault Refusal :=
  .next { s with ret := .value (colourIndex idxw i).toNat }

/-- CSEL.0, R157. -/
def execCsel0 (i : PixelNo) (s : State) : Host.Outcome State Fault Refusal := .next (s.selectColour 0 i)

/-- CSEL.1, R157. -/
def execCsel1 (i : PixelNo) (s : State) : Host.Outcome State Fault Refusal := .next (s.selectColour 1 i)

/-- CSEL.2, R157. -/
def execCsel2 (i : PixelNo) (s : State) : Host.Outcome State Fault Refusal := .next (s.selectColour 2 i)

/-- CSEL.3, R157. -/
def execCsel3 (i : PixelNo) (s : State) : Host.Outcome State Fault Refusal := .next (s.selectColour 3 i)

/-- DEC.COLOR, R158. -/
def execDecColor (b : Nat) (s : State) : Host.Outcome State Fault Refusal :=
  s.whenInExists b 8 (s.decodeColour b)

end Sys2Proof.Machine
end

