-- ==== Sys2Proof/Machine/Grid.lean ====
section
/-! DEFINITION. The block grid decoder (43_block_grid.md). -/

namespace Sys2Proof.Machine

/-- DEC.DXT1, R213. -/
def State.decodeDxt1 (s : State) (addr : Nat) : State := s.decodeColour addr

/-- DEC.DXT3, R214: the colour half first, the alpha half over its alpha bytes. -/
def State.decodeDxt3 (s : State) (addr : Nat) : State := (s.decodeColour (addr + 8)).decodeAlpha3 addr

/-- DEC.DXT5, R215. -/
def State.decodeDxt5 (s : State) (addr : Nat) : State := (s.decodeColour (addr + 8)).decodeAlpha5 addr

/-- The case of R218 on the latched variant. -/
def State.decodeBlock (s : State) (addr : Nat) : State :=
  match s.geom.variant with
  | .none => s
  | .dxt1 => s.decodeDxt1 addr
  | .dxt3 => s.decodeDxt3 addr
  | .dxt5 => s.decodeDxt5 addr

/-- GRID.ADDR, R212: base + (cy * blocks_x + cx) * block_bytes, exact. -/
def State.blockAddr (s : State) (cx cy : Nat) : Nat :=
  s.geom.base.toNat + (cy * s.geom.blocksX + cx) * s.geom.blockBytes

/-- The machine at the running decode's reading of block (cx, cy) (log 8). -/
def State.blockReading (s : State) (cx cy : Nat) : State := s.atReading (2 + 2 * (cy * s.geom.blocksX + cx))

/-- Block (cx, cy) of the running decode, decoded into the tile (R218). -/
def State.gridBlock (s : State) (cx cy : Nat) : State :=
  { (s.blockReading cx cy).decodeBlock (s.blockAddr cx cy) with draws := s.draws }

/-- R217 for one tile pixel: its four OUT bytes, or none where it is clipped. -/
def State.pixelWrites (s : State) (cx cy : Nat) (i : PixelNo) : List Host.Cell :=
  if imageX cx i < s.geom.w.toNat ∧ imageY cy i < s.geom.h.toNat then
    (List.finRange 4).map fun c =>
      (outAddress s.geom.w.toNat (imageX cx i) (imageY cy i) c.val, tileByte s.tile i c)
  else []

/-- The OUT writes of TILE.COPY, R217, pixels in row-major tile order. -/
def State.tileWrites (s : State) (cx cy : Nat) : List Host.Cell :=
  (List.finRange 16).flatMap fun i => s.pixelWrites cx cy i

/-- Every byte TILE.COPY writes exists (20_memory.md R62). -/
def State.outExists (s : State) (cx cy : Nat) : Bool := (s.tileWrites cx cy).all fun c => decide (c.1 < s.cfg.outCap)

/-- TILE.COPY, R217. -/
def State.copyTile (s : State) (cx cy : Nat) : State := { s with outMem := s.outMem.writeAll (s.tileWrites cx cy) }

/-- 70_reset_and_hazards.md R347: at DONE each OUT byte of the image that HOST wrote while BUSY holds HOST's
value or the decode's (log 15). -/
def State.settledOut (s : State) : Memory :=
  s.outRaced.foldl
    (fun m a =>
      if a < s.geom.outLen then
        if Config.takesDecoded s.draws a then m else m.write a (s.readBefore a)
      else m)
    s.outMem

/-- The decode is over and succeeded. -/
def State.finish (s : State) : State :=
  { s with phase := .done, outMem := s.settledOut, outBefore := [], outRaced := [], draws := s.draws + 1 }

/-- 10_state.md R40: row-major advance of the iterator, or DONE. -/
def State.advance (s : State) : State :=
  if s.iterX + 1 < s.geom.blocksX then { s with iterX := s.iterX + 1 }
  else if s.iterY + 1 < s.geom.blocksY then { s with iterX := 0, iterY := s.iterY + 1 }
  else s.finish

/-- DEC.DXT1, R213. -/
def execDecDxt1 (addr : Nat) (s : State) : Host.Outcome State Fault Refusal :=
  s.whenInExists addr 8 (s.decodeDxt1 addr)

/-- DEC.DXT3, R214. -/
def execDecDxt3 (addr : Nat) (s : State) : Host.Outcome State Fault Refusal :=
  s.whenInExists addr 16 (s.decodeDxt3 addr)

/-- DEC.DXT5, R215. -/
def execDecDxt5 (addr : Nat) (s : State) : Host.Outcome State Fault Refusal :=
  s.whenInExists addr 16 (s.decodeDxt5 addr)

/-- GRID.GEOM, R211. -/
def execGridGeom (w h : Word) (s : State) : Host.Outcome State Fault Refusal :=
  .next { s with geom := { s.geom with blocksX := blocksOf w.toNat, blocksY := blocksOf h.toNat } }

/-- GRID.ADDR, R212. -/
def execGridAddr (cx cy : Nat) (s : State) : Host.Outcome State Fault Refusal :=
  .next { s with ret := .value (s.blockAddr cx cy) }

/-- TILE.COPY, R217. -/
def execTileCopy (cx cy : Nat) (s : State) : Host.Outcome State Fault Refusal :=
  if s.outExists cx cy then .next (s.copyTile cx cy) else .fault .noSuchOutAddress

/-- The block step once it is enabled: decode, copy, advance (R218). -/
def State.stepBlock (s : State) : Host.Outcome State Fault Refusal :=
  let addr := s.blockAddr s.iterX s.iterY
  let t := s.gridBlock s.iterX s.iterY
  if s.geom.variant = .none then .fault .noVariant
  else if s.inExists addr (blockBytesOf s.geom.variant) = false then .fault .noSuchInAddress
  else if t.outExists s.iterX s.iterY = false then .fault .noSuchOutAddress
  else .next (t.copyTile s.iterX s.iterY).advance

/-- GRID.STEP, R218: one atomic step of CORE, enabled in GRID; elsewhere CORE does not move (log 11). -/
def execGridStep (s : State) : Host.Outcome State Fault Refusal :=
  if s.phase = .grid then s.stepBlock else .next s

end Sys2Proof.Machine
end

