-- ==== Sys2Proof/Machine/Container.lean ====
section
/-! DEFINITION. The container parser and the whole decode (44_container.md). -/

namespace Sys2Proof.Machine

/-- A header field of `w` bits at an IN address (30_encoding.md R95). -/
def State.headerField (s : State) (w a n : Nat) : BitVec w := BitVec.ofNat w (s.memRead a n)

/-- The header record of IN (R240). -/
def State.parsedHeader (s : State) : Header where
  magic := Vector.ofFn fun j => s.readIn j.val
  contentType := s.headerField 32 4 4
  compression := s.readIn 8
  alphaDepth := s.readIn 9
  alphaKind := s.readIn 10
  hasMips := s.readIn 11
  width := s.headerField 32 12 4
  height := s.headerField 32 16 4
  mipOffsets := Vector.ofFn fun j => s.headerField 32 (20 + 4 * j.val) 4
  mipLengths := Vector.ofFn fun j => s.headerField 32 (84 + 4 * j.val) 4
  palette := Vector.ofFn fun j => s.headerField 32 (148 + 4 * j.val) 4

/-- HDR.PARSE, R240. -/
def State.parseHeader (s : State) : State := { s with hdr := s.parsedHeader, draws := s.draws + 1 }

/-- R245: the six header registers. -/
def State.latchHeader (s : State) : State :=
  { s with
    regs := { s.regs with
      width := s.hdr.width
      height := s.hdr.height
      contentType := s.hdr.contentType
      hdrBytes := s.hdr.hasMips ++ s.hdr.alphaKind ++ s.hdr.alphaDepth ++ s.hdr.compression
      mip0Offset := s.hdr.mipOffsets[0]
      mip0Length := s.hdr.mipLengths[0] } }

/-- R243: IN[0..4) is `B L P 2` (30_encoding.md R96). -/
def State.magicMatches (s : State) : Bool :=
  s.readIn 0 == 0x42 && s.readIn 1 == 0x4C && s.readIn 2 == 0x50 && s.readIn 3 == 0x32

/-- R246 to R252 on the parsed header, in order: the first failing check. -/
def State.headerError (s : State) : Option ErrorKind :=
  let variant := variantOf s.hdr.alphaKind
  let offset := s.hdr.mipOffsets[0].toNat
  let length := s.hdr.mipLengths[0].toNat
  let w := s.hdr.width.toNat
  let h := s.hdr.height.toNat
  if s.hdr.contentType ≠ 1 then some .unsupportedContentType
  else if s.hdr.compression ≠ 2 then some .unsupportedCompression
  else if variant = .none then some .unsupportedAlphaKind
  else if offset = 0 ∨ length = 0 then some .noMipLevel
  else if s.len.toNat < offset + length then some .truncated
  else if length ≠ blocksOf w * blocksOf h * blockBytesOf variant then some .truncated
  else if s.cfg.outCap < w * h * 4 then some .capacityExceeded
  else none

/-- R253: the geometry of an accepted header. -/
def Header.geometry (hdr : Header) : Geometry where
  variant := variantOf hdr.alphaKind
  blockBytes := blockBytesOf (variantOf hdr.alphaKind)
  blocksX := blocksOf hdr.width.toNat
  blocksY := blocksOf hdr.height.toNat
  base := hdr.mipOffsets[0]
  w := hdr.width
  h := hdr.height

/-- R253: geometry latch and grid entry. -/
def State.enterGrid (s : State) : State :=
  let g := s.hdr.geometry
  { s with
    geom := g
    regs := { s.regs with
      variant := variantCode g.variant
      blocksX := BitVec.ofNat 32 g.blocksX
      blocksY := BitVec.ofNat 32 g.blocksY
      outLenLo := BitVec.ofNat 32 g.outLen
      outLenHi := BitVec.ofNat 32 (g.outLen / 2 ^ 32) }
    iterX := 0
    iterY := 0
    phase := .grid }

/-- The checks on the parsed header and their outcome (R246 to R253). -/
def State.checkHeader (s : State) : State :=
  match s.headerError with
  | some e => s.raise e
  | none => s.enterGrid

/-- The state VALIDATE checks the header on: parsed (R240) and latched (R245). -/
def State.parsedState (s : State) : State := State.latchHeader { s with hdr := (s.atReading 1).parsedHeader }

/-- VALIDATE once it is enabled (R241). The magic is one reading of IN, the header another (log 25). -/
def State.validateStep (s : State) : State :=
  if s.cfg.inCap < s.len.toNat then s.raise .capacityExceeded
  else if s.len.toNat < 4 ∨ (s.atReading 0).magicMatches = false then s.raise .badMagic
  else if s.len.toNat < hdrSize then s.raise .truncated
  else s.parsedState.checkHeader

/-- HDR.PARSE, R240. -/
def execHdrParse (s : State) : Host.Outcome State Fault Refusal := s.whenInExists 0 hdrSize s.parseHeader

/-- VALIDATE, R241: enabled in VALIDATE; elsewhere CORE does not move (log 11). -/
def execValidate (s : State) : Host.Outcome State Fault Refusal :=
  if s.phase = .validate then .next s.validateStep else .next s

/-- A number of GRID.STEP steps. -/
def gridSteps : Nat → State → Host.Outcome State Fault Refusal
  | 0, s => .next s
  | n + 1, s =>
    match execGridStep s with
    | .next t => gridSteps n t
    | .fault f => .fault f
    | .refused r => .refused r

/-- DECODE, R255: an accepted START, VALIDATE, then blocks_x * blocks_y block steps if validation passed. A
START is not accepted while BUSY, and then nothing happens (log 12). -/
def execDecode (s : State) : Host.Outcome State Fault Refusal :=
  let t := s.acceptStart.validateStep
  if s.busy then .next s
  else if t.phase = .grid then gridSteps (t.geom.blocksX * t.geom.blocksY) t
  else .next t

end Sys2Proof.Machine
end

