-- ==== Sys2Proof/Machine/HostAccess.lean ====
section
/-! DEFINITION. HOST's register accesses (45_host_interface.md R270 to R275). -/

namespace Sys2Proof.Machine

/-- RD, R270: the value goes to HOST, nothing else changes. DATA is ignored (30_encoding.md R91). -/
def execRd (offset : Byte) (_data : Word) (s : State) : Host.Outcome State Fault Refusal :=
  .next { s with ret := .word (s.readReg offset) }

/-- WR.CTRL, R271: bit 0 is START, accepted unless BUSY; the other bits are ignored. -/
def execWrCtrl (data : Word) (s : State) : Host.Outcome State Fault Refusal :=
  if data.getLsbD 0 = true ∧ s.busy = false then .next s.acceptStart else .next s

/-- WR.FLEN_LO, R272. -/
def execWrFlenLo (data : Word) (s : State) : Host.Outcome State Fault Refusal :=
  .next { s with regs := { s.regs with fileLenLo := data } }

/-- WR.FLEN_HI, R273. -/
def execWrFlenHi (data : Word) (s : State) : Host.Outcome State Fault Refusal :=
  .next { s with regs := { s.regs with fileLenHi := data } }

/-- WR.IGN, R274: no effect. -/
def execWrIgn (_offset : Byte) (_data : Word) (s : State) : Host.Outcome State Fault Refusal := .next s

/-- HAW.RSV, R275: no effect; a read returns 0. -/
def execHawRsv (write : Bool) (_rsv : BitVec 7) (_offset : Byte) (_data : Word) (s : State) :
    Host.Outcome State Fault Refusal :=
  if write then .next s else .next { s with ret := .word 0 }

end Sys2Proof.Machine
end

