-- ==== Sys2Proof/Machine/Reader.lean ====
section
/-! DEFINITION. The bit and byte readers (40_bit_readers.md). They write no state of the spec's; the value goes to
the caller (log 7). -/

namespace Sys2Proof.Machine

/-- LE.READ, R130. -/
def execLeRead (a n : Nat) (s : State) : Host.Outcome State Fault Refusal :=
  s.whenInExists a n { s.tick with ret := .value (s.memRead a n) }

/-- BITWIN, R132. -/
def execBitwin (bytes : List Byte) (p k : Nat) (s : State) : Host.Outcome State Fault Refusal :=
  .next { s with ret := .value (bitWindow bytes p k) }

end Sys2Proof.Machine
end

