-- ==== Sys2Proof/Machine/Dispatch.lean ====
section
/-! DEFINITION. One arm per operation. -/

namespace Sys2Proof.Machine

def exec (i : Instr) (s : State) : Host.Outcome State Fault Refusal :=
  match i with
  | .hawRsv write rsv offset data => Sys2Proof.Machine.execHawRsv write rsv offset data s
  | .rd offset data => Sys2Proof.Machine.execRd offset data s
  | .wrCtrl data => Sys2Proof.Machine.execWrCtrl data s
  | .wrFlenLo data => Sys2Proof.Machine.execWrFlenLo data s
  | .wrFlenHi data => Sys2Proof.Machine.execWrFlenHi data s
  | .wrIgn offset data => Sys2Proof.Machine.execWrIgn offset data s
  | .decDxt1 addr => Sys2Proof.Machine.execDecDxt1 addr s
  | .decDxt3 addr => Sys2Proof.Machine.execDecDxt3 addr s
  | .decDxt5 addr => Sys2Proof.Machine.execDecDxt5 addr s
  | .cmode4 c0 c1 => Sys2Proof.Machine.execCmode4 c0 c1 s
  | .cmode3 c0 c1 => Sys2Proof.Machine.execCmode3 c0 c1 s
  | .csel0 p => Sys2Proof.Machine.execCsel0 p s
  | .csel1 p => Sys2Proof.Machine.execCsel1 p s
  | .csel2 p => Sys2Proof.Machine.execCsel2 p s
  | .csel3 p => Sys2Proof.Machine.execCsel3 p s
  | .aexp4 n => Sys2Proof.Machine.execAexp4 n s
  | .amode8 a0 a1 => Sys2Proof.Machine.execAmode8 a0 a1 s
  | .amode6 a0 a1 => Sys2Proof.Machine.execAmode6 a0 a1 s
  | .asel0 p => Sys2Proof.Machine.execAsel0 p s
  | .asel1 p => Sys2Proof.Machine.execAsel1 p s
  | .asel2 p => Sys2Proof.Machine.execAsel2 p s
  | .asel3 p => Sys2Proof.Machine.execAsel3 p s
  | .asel4 p => Sys2Proof.Machine.execAsel4 p s
  | .asel5 p => Sys2Proof.Machine.execAsel5 p s
  | .asel6 p => Sys2Proof.Machine.execAsel6 p s
  | .asel7 p => Sys2Proof.Machine.execAsel7 p s
  | .leRead a n => Sys2Proof.Machine.execLeRead a n s
  | .bitwin bytes p k => Sys2Proof.Machine.execBitwin bytes p k s
  | .exp565 c => Sys2Proof.Machine.execExp565 c s
  | .cendRead b => Sys2Proof.Machine.execCendRead b s
  | .cpal01 c0 c1 => Sys2Proof.Machine.execCpal01 c0 c1 s
  | .cidxUnpack idxw p => Sys2Proof.Machine.execCidxUnpack idxw p s
  | .decColor b => Sys2Proof.Machine.execDecColor b s
  | .anibUnpack b p => Sys2Proof.Machine.execAnibUnpack b p s
  | .decAlpha3 b => Sys2Proof.Machine.execDecAlpha3 b s
  | .aendRead b => Sys2Proof.Machine.execAendRead b s
  | .aidxUnpack bytes p => Sys2Proof.Machine.execAidxUnpack bytes p s
  | .decAlpha5 b => Sys2Proof.Machine.execDecAlpha5 b s
  | .gridGeom w h => Sys2Proof.Machine.execGridGeom w h s
  | .gridAddr cx cy => Sys2Proof.Machine.execGridAddr cx cy s
  | .tileCopy cx cy => Sys2Proof.Machine.execTileCopy cx cy s
  | .gridStep => Sys2Proof.Machine.execGridStep s
  | .hdrParse => Sys2Proof.Machine.execHdrParse s
  | .validate => Sys2Proof.Machine.execValidate s
  | .decode => Sys2Proof.Machine.execDecode s

end Sys2Proof.Machine
end

