-- ==== Sys2Proof/Machine/HostPort.lean ====
section
/-! DEFINITION. HOST's memory port (45_host_interface.md R276), the old-or-new choices of a running decode
(20_memory.md R74 (d), 70_reset_and_hazards.md R342, R347), and reset (R340). -/

namespace Sys2Proof.Machine

/-- The running decode once validated, if it will write OUT: in GRID the state itself, in VALIDATE what the
pending validation makes of it (log 14). -/
def State.runningDecode (s : State) : Option State :=
  match s.phase with
  | .grid => some s
  | .validate => if s.validateStep.phase = .grid then some s.validateStep else none
  | .idle => none
  | .done => none
  | .error => none

/-- The tile byte a decode in GRID writes to an OUT address of its image (43_block_grid.md R221): image pixel
(x, y) comes from block (x div 4, y div 4), read as GRID.STEP reads it. -/
def State.imageByte (g : State) (a : Nat) : Byte :=
  let x := a / 4 % g.geom.w.toNat
  let y := a / 4 / g.geom.w.toNat
  tileByte (g.gridBlock (x / 4) (y / 4)).tile (tilePixel x y) ⟨a % 4, by omega⟩

/-- The value the running decode writes to an OUT address, if it writes it (R71). -/
def State.decodedByte (s : State) (a : Nat) : Option Byte :=
  match s.runningDecode with
  | none => none
  | some g => if a < g.geom.outLen then some (g.imageByte a) else none

/-- HOST writes a byte of IN (R276); while BUSY a byte of IN[0 .. len) is the input hazard (R346). -/
def hostInWrite (a : Nat) (v : Byte) (s : State) : Host.Outcome State Fault Refusal :=
  if s.cfg.inCap ≤ a then .fault .noSuchInAddress
  else if s.busy = true ∧ a < s.len.toNat then .refused .inputHazard
  else .next { s with inMem := s.inMem.write a v }

/-- HOST reads a byte of IN (R61). -/
def hostInRead (a : Nat) (s : State) : Host.Outcome State Fault Refusal :=
  if s.cfg.inCap ≤ a then .fault .noSuchInAddress
  else .next { s.tick with ret := .byte (s.readIn a) }

/-- HOST writes a byte of OUT. While BUSY the write races with the decode's own (R347): it is kept beside the
decode's bytes until DONE settles it; a byte the decode does not write is written at once (log 15). -/
def hostOutWrite (a : Nat) (v : Byte) (s : State) : Host.Outcome State Fault Refusal :=
  if s.cfg.outCap ≤ a then .fault .noSuchOutAddress
  else if s.busy then
    .next { s with
      outMem := if s.phase = .grid ∧ a < s.geom.outLen then s.outMem else s.outMem.write a v
      outBefore := s.outBefore.write a v
      outRaced := a :: s.outRaced }
  else .next { s with outMem := s.outMem.write a v }

/-- HOST reads a byte of OUT. While BUSY a byte the decode writes reads as its value without the decode or as
the decode's value (R74 (d), R347), a free choice at each read (log 14). -/
def hostOutRead (a : Nat) (s : State) : Host.Outcome State Fault Refusal :=
  if s.cfg.outCap ≤ a then .fault .noSuchOutAddress
  else
    match s.decodedByte a with
    | none => .next { s with ret := .byte (s.readOut a) }
    | some v =>
      .next { s.tick with ret := .byte (if Config.takesDecoded s.draws a then v else s.readBefore a) }

/-- R342: OUT after a reset: each byte the abandoned decode would have written holds its value without the
decode or the decode's value, a free choice per byte (log 16). With no decode running OUT is unchanged (R341). -/
def State.abandonedOut (s : State) : Memory :=
  match s.runningDecode with
  | none => s.outMem
  | some g =>
    (List.range (min g.geom.outLen s.cfg.outCap)).foldl
      (fun m a => if Config.takesDecoded s.draws a then m.write a (g.imageByte a) else m)
      s.outBefore

/-- RST, R340: every piece of state at its value of 10_state.md R46; IN and OUT are not changed but for R342.
The parameters are the machine's own, the draws and the schedule are not state of the spec's (log 24). -/
def State.rst (s : State) : State :=
  { State.reset with
    cfg := s.cfg
    inMem := s.inMem
    outMem := s.abandonedOut
    draws := s.draws + 1
    schedule := s.schedule }

end Sys2Proof.Machine
end

