-- ==== Sys2Proof/WellFormed.lean ====
section
/-! DEFINITION. Which operations the spec's encodings and operand ranges admit. -/

namespace Sys2Proof

/-- The byte counts of LE.READ (40_bit_readers.md R130). -/
def leReadCounts : List Nat := [1, 2, 4, 6, 8]

/-- Well-formed: the selector stands for the operation and the operands are in the range its rule gives. -/
def Instr.wf : Instr → Bool
  | .hawRsv _ rsv _ _ => rsv != 0
  | .rd _ _ => true
  | .wrCtrl _ => true
  | .wrFlenLo _ => true
  | .wrFlenHi _ => true
  | .wrIgn offset _ => offset != 0x00 && offset != 0x08 && offset != 0x0C
  | .decDxt1 _ => true
  | .decDxt3 _ => true
  | .decDxt5 _ => true
  | .cmode4 c0 c1 => decide (c1.toNat < c0.toNat)
  | .cmode3 c0 c1 => decide (c0.toNat ≤ c1.toNat)
  | .csel0 _ => true
  | .csel1 _ => true
  | .csel2 _ => true
  | .csel3 _ => true
  | .aexp4 _ => true
  | .amode8 a0 a1 => decide (a1.toNat < a0.toNat)
  | .amode6 a0 a1 => decide (a0.toNat ≤ a1.toNat)
  | .asel0 _ => true
  | .asel1 _ => true
  | .asel2 _ => true
  | .asel3 _ => true
  | .asel4 _ => true
  | .asel5 _ => true
  | .asel6 _ => true
  | .asel7 _ => true
  | .leRead _ n => leReadCounts.contains n
  | .bitwin bytes p k => decide (1 ≤ k) && decide (k ≤ 8) && decide (p + k ≤ 8 * bytes.length)
  | .exp565 _ => true
  | .cendRead _ => true
  | .cpal01 _ _ => true
  | .cidxUnpack _ _ => true
  | .decColor _ => true
  | .anibUnpack _ _ => true
  | .decAlpha3 _ => true
  | .aendRead _ => true
  | .aidxUnpack bytes _ => decide (bytes.length = 6)
  | .decAlpha5 _ => true
  | .gridGeom _ _ => true
  | .gridAddr _ _ => true
  | .tileCopy _ _ => true
  | .gridStep => true
  | .hdrParse => true
  | .validate => true
  | .decode => true

end Sys2Proof
end

