-- ==== Sys2Proof/Decode.lean ====
section
/-! DEFINITION. From the bits of a format to an operation, total and rejecting by name, and the encoder back
(30_encoding.md R91, R92, R110, R111). -/

namespace Sys2Proof

/-- Why a code stands for no operation. -/
inductive DecodeError where
  /-- a bit above the format's width is set -/
  | wordTooWide
  /-- a header selector R111 rejects: no block decoder belongs to it -/
  | rejectedSelector
  /-- not as many operands as the operation takes -/
  | operandCount
  /-- an operand outside the range its rule gives -/
  | operandRange
  deriving DecidableEq, Repr

/-- A pixel number operand, in [0, 16). -/
def pixelOperand (n : Nat) : Except DecodeError PixelNo :=
  if h : n < 16 then .ok ⟨n, h⟩ else .error .operandRange

/-- An operand of a stated width. -/
def bitsOperand (w n : Nat) : Except DecodeError (BitVec w) :=
  if n < 2 ^ w then .ok (BitVec.ofNat w n) else .error .operandRange

/-- A byte array operand. -/
def bytesOperand : List Nat → Except DecodeError (List Byte)
  | [] => .ok []
  | n :: ns =>
    match bitsOperand 8 n, bytesOperand ns with
    | .ok b, .ok bs => .ok (b :: bs)
    | _, _ => .error .operandRange

/-- The operation of a pixel's selector. -/
def withPixel (mk : PixelNo → Instr) : List Nat → Except DecodeError Instr
  | [n] =>
    match pixelOperand n with
    | .ok i => .ok (mk i)
    | .error e => .error e
  | _ => .error .operandCount

/-- An operation whose only operand is an IN address. -/
def withAddress (mk : Nat → Instr) : List Nat → Except DecodeError Instr
  | [a] => .ok (mk a)
  | _ => .error .operandCount

/-- An operation with two operands of one stated width. -/
def withPair (w : Nat) (mk : BitVec w → BitVec w → Instr) : List Nat → Except DecodeError Instr
  | [x, y] =>
    match bitsOperand w x, bitsOperand w y with
    | .ok u, .ok v => .ok (mk u v)
    | _, _ => .error .operandRange
  | _ => .error .operandCount

/-- An operation with no operand. -/
def withNone (i : Instr) : List Nat → Except DecodeError Instr
  | [] => .ok i
  | _ => .error .operandCount

/-- 30_encoding.md R91: the fields of a host access word. -/
def hawWrite (w : Word48) : Bool := w.getLsbD 47
def hawRsvBits (w : Word48) : BitVec 7 := w.extractLsb' 40 7
def hawOffset (w : Word48) : Byte := w.extractLsb' 32 8
def hawData (w : Word48) : Word := w.extractLsb' 0 32

/-- R92: the first matching line wins; every word is exactly one operation. -/
def decodeHaw (w : Word48) : Instr :=
  if hawRsvBits w ≠ 0 then .hawRsv (hawWrite w) (hawRsvBits w) (hawOffset w) (hawData w)
  else if hawWrite w = false then .rd (hawOffset w) (hawData w)
  else if hawOffset w = 0x00 then .wrCtrl (hawData w)
  else if hawOffset w = 0x08 then .wrFlenLo (hawData w)
  else if hawOffset w = 0x0C then .wrFlenHi (hawData w)
  else .wrIgn (hawOffset w) (hawData w)

/-- The header selector word of content type 1, compression 2 and an alpha kind (R110). -/
def hdrselWord (alphaKind : Nat) : Word48 := BitVec.ofNat 48 (1 * 2 ^ 16 + 2 * 2 ^ 8 + alphaKind)

/-- R110: the three header selectors; R111 rejects every other. -/
def decodeHdrsel (w : Word48) (ops : List Nat) : Except DecodeError Instr :=
  if w = hdrselWord 0 then withAddress .decDxt1 ops
  else if w = hdrselWord 1 then withAddress .decDxt3 ops
  else if w = hdrselWord 7 then withAddress .decDxt5 ops
  else .error .rejectedSelector

/-- R110: c0 in bits 15:0 and c1 in bits 31:16 of the block; the comparison selects the palette mode. -/
def decodePredColour (w : Word48) (ops : List Nat) : Except DecodeError Instr :=
  let c0 : Endpoint := w.extractLsb' 0 16
  let c1 : Endpoint := w.extractLsb' 16 16
  if 2 ^ 32 ≤ w.toNat then .error .wordTooWide
  else if c1.toNat < c0.toNat then withNone (.cmode4 c0 c1) ops
  else withNone (.cmode3 c0 c1) ops

/-- R110: a0 is block byte 0 and a1 block byte 1; the comparison selects the alpha mode. -/
def decodePredAlpha (w : Word48) (ops : List Nat) : Except DecodeError Instr :=
  let a0 : Byte := w.extractLsb' 0 8
  let a1 : Byte := w.extractLsb' 8 8
  if 2 ^ 16 ≤ w.toNat then .error .wordTooWide
  else if a1.toNat < a0.toNat then withNone (.amode8 a0 a1) ops
  else withNone (.amode6 a0 a1) ops

/-- R110: the 2-bit colour index. -/
def decodeCidx (w : Word48) (ops : List Nat) : Except DecodeError Instr :=
  match w.toNat with
  | 0 => withPixel .csel0 ops
  | 1 => withPixel .csel1 ops
  | 2 => withPixel .csel2 ops
  | 3 => withPixel .csel3 ops
  | _ => .error .wordTooWide

/-- R110: any nibble is AEXP4. -/
def decodeNib (w : Word48) (ops : List Nat) : Except DecodeError Instr :=
  if 2 ^ 4 ≤ w.toNat then .error .wordTooWide
  else withNone (.aexp4 (w.extractLsb' 0 4)) ops

/-- R110: the 3-bit alpha index. -/
def decodeAidx (w : Word48) (ops : List Nat) : Except DecodeError Instr :=
  match w.toNat with
  | 0 => withPixel .asel0 ops
  | 1 => withPixel .asel1 ops
  | 2 => withPixel .asel2 ops
  | 3 => withPixel .asel3 ops
  | 4 => withPixel .asel4 ops
  | 5 => withPixel .asel5 ops
  | 6 => withPixel .asel6 ops
  | 7 => withPixel .asel7 ops
  | _ => .error .wordTooWide

/-- LE.READ's operands: a count R130 admits. -/
def decodeLeRead : List Nat → Except DecodeError Instr
  | [a, n] => if leReadCounts.contains n then .ok (.leRead a n) else .error .operandRange
  | _ => .error .operandCount

/-- BITWIN's operands: R132's precondition. -/
def decodeBitwin : List Nat → Except DecodeError Instr
  | p :: k :: ns =>
    match bytesOperand ns with
    | .ok bs =>
      if 1 ≤ k ∧ k ≤ 8 ∧ p + k ≤ 8 * bs.length then .ok (.bitwin bs p k) else .error .operandRange
    | .error e => .error e
  | _ => .error .operandCount

def decodeExp565 : List Nat → Except DecodeError Instr
  | [c] =>
    match bitsOperand 16 c with
    | .ok v => .ok (.exp565 v)
    | .error e => .error e
  | _ => .error .operandCount

def decodeCidxUnpack : List Nat → Except DecodeError Instr
  | [x, n] =>
    match bitsOperand 32 x, pixelOperand n with
    | .ok v, .ok i => .ok (.cidxUnpack v i)
    | _, _ => .error .operandRange
  | _ => .error .operandCount

def decodeAnibUnpack : List Nat → Except DecodeError Instr
  | [b, n] =>
    match pixelOperand n with
    | .ok i => .ok (.anibUnpack b i)
    | .error e => .error e
  | _ => .error .operandCount

/-- AIDX.UNPACK's operands: the pixel number, then six index bytes (R187). -/
def decodeAidxUnpack : List Nat → Except DecodeError Instr
  | n :: ns =>
    match pixelOperand n, bytesOperand ns with
    | .ok i, .ok bs => if bs.length = 6 then .ok (.aidxUnpack bs i) else .error .operandCount
    | _, _ => .error .operandRange
  | _ => .error .operandCount

/-- An operation with a block column and a block row. -/
def withCoordinate (mk : Nat → Nat → Instr) : List Nat → Except DecodeError Instr
  | [x, y] => .ok (mk x y)
  | _ => .error .operandCount

/-- The operations with no selector bits: the name is given, the operands are checked. -/
def decodeSeq (op : SeqName) (ops : List Nat) : Except DecodeError Instr :=
  match op with
  | .leRead => decodeLeRead ops
  | .bitwin => decodeBitwin ops
  | .exp565 => decodeExp565 ops
  | .cendRead => withAddress .cendRead ops
  | .cpal01 => withPair 16 .cpal01 ops
  | .cidxUnpack => decodeCidxUnpack ops
  | .decColor => withAddress .decColor ops
  | .anibUnpack => decodeAnibUnpack ops
  | .decAlpha3 => withAddress .decAlpha3 ops
  | .aendRead => withAddress .aendRead ops
  | .aidxUnpack => decodeAidxUnpack ops
  | .decAlpha5 => withAddress .decAlpha5 ops
  | .gridGeom => withPair 32 .gridGeom ops
  | .gridAddr => withCoordinate .gridAddr ops
  | .tileCopy => withCoordinate .tileCopy ops
  | .gridStep => withNone .gridStep ops
  | .hdrParse => withNone .hdrParse ops
  | .validate => withNone .validate ops
  | .decode => withNone .decode ops

/-- The decoder. -/
def decode (c : Code) : Except DecodeError Instr :=
  match c.fmt with
  | .haw => withNone (decodeHaw c.word) c.operands
  | .hdrsel => decodeHdrsel c.word c.operands
  | .predColour => decodePredColour c.word c.operands
  | .predAlpha => decodePredAlpha c.word c.operands
  | .cidx2 => decodeCidx c.word c.operands
  | .nib4 => decodeNib c.word c.operands
  | .aidx3 => decodeAidx c.word c.operands
  | .seq op => if c.word = 0 then decodeSeq op c.operands else .error .wordTooWide

/-- The packing of R91. -/
def packHaw (write : Bool) (rsv : BitVec 7) (offset : Byte) (data : Word) : Word48 :=
  BitVec.ofNat 48 (write.toNat * 2 ^ 47 + rsv.toNat * 2 ^ 40 + offset.toNat * 2 ^ 32 + data.toNat)

/-- The code of a name with no bits. -/
def seqCode (op : SeqName) (ops : List Nat) : Code := ⟨.seq op, 0, ops⟩

/-- The encoder. -/
def encode : Instr → Code
  | .hawRsv write rsv offset data => ⟨.haw, packHaw write rsv offset data, []⟩
  | .rd offset data => ⟨.haw, packHaw false 0 offset data, []⟩
  | .wrCtrl data => ⟨.haw, packHaw true 0 0x00 data, []⟩
  | .wrFlenLo data => ⟨.haw, packHaw true 0 0x08 data, []⟩
  | .wrFlenHi data => ⟨.haw, packHaw true 0 0x0C data, []⟩
  | .wrIgn offset data => ⟨.haw, packHaw true 0 offset data, []⟩
  | .decDxt1 addr => ⟨.hdrsel, hdrselWord 0, [addr]⟩
  | .decDxt3 addr => ⟨.hdrsel, hdrselWord 1, [addr]⟩
  | .decDxt5 addr => ⟨.hdrsel, hdrselWord 7, [addr]⟩
  | .cmode4 c0 c1 => ⟨.predColour, BitVec.ofNat 48 (c1.toNat * 2 ^ 16 + c0.toNat), []⟩
  | .cmode3 c0 c1 => ⟨.predColour, BitVec.ofNat 48 (c1.toNat * 2 ^ 16 + c0.toNat), []⟩
  | .csel0 i => ⟨.cidx2, 0, [i.val]⟩
  | .csel1 i => ⟨.cidx2, 1, [i.val]⟩
  | .csel2 i => ⟨.cidx2, 2, [i.val]⟩
  | .csel3 i => ⟨.cidx2, 3, [i.val]⟩
  | .aexp4 n => ⟨.nib4, BitVec.ofNat 48 n.toNat, []⟩
  | .amode8 a0 a1 => ⟨.predAlpha, BitVec.ofNat 48 (a1.toNat * 2 ^ 8 + a0.toNat), []⟩
  | .amode6 a0 a1 => ⟨.predAlpha, BitVec.ofNat 48 (a1.toNat * 2 ^ 8 + a0.toNat), []⟩
  | .asel0 i => ⟨.aidx3, 0, [i.val]⟩
  | .asel1 i => ⟨.aidx3, 1, [i.val]⟩
  | .asel2 i => ⟨.aidx3, 2, [i.val]⟩
  | .asel3 i => ⟨.aidx3, 3, [i.val]⟩
  | .asel4 i => ⟨.aidx3, 4, [i.val]⟩
  | .asel5 i => ⟨.aidx3, 5, [i.val]⟩
  | .asel6 i => ⟨.aidx3, 6, [i.val]⟩
  | .asel7 i => ⟨.aidx3, 7, [i.val]⟩
  | .leRead a n => seqCode .leRead [a, n]
  | .bitwin bytes p k => seqCode .bitwin (p :: k :: bytes.map BitVec.toNat)
  | .exp565 c => seqCode .exp565 [c.toNat]
  | .cendRead b => seqCode .cendRead [b]
  | .cpal01 c0 c1 => seqCode .cpal01 [c0.toNat, c1.toNat]
  | .cidxUnpack idxw i => seqCode .cidxUnpack [idxw.toNat, i.val]
  | .decColor b => seqCode .decColor [b]
  | .anibUnpack b i => seqCode .anibUnpack [b, i.val]
  | .decAlpha3 b => seqCode .decAlpha3 [b]
  | .aendRead b => seqCode .aendRead [b]
  | .aidxUnpack bytes i => seqCode .aidxUnpack (i.val :: bytes.map BitVec.toNat)
  | .decAlpha5 b => seqCode .decAlpha5 [b]
  | .gridGeom w h => seqCode .gridGeom [w.toNat, h.toNat]
  | .gridAddr cx cy => seqCode .gridAddr [cx, cy]
  | .tileCopy cx cy => seqCode .tileCopy [cx, cy]
  | .gridStep => seqCode .gridStep []
  | .hdrParse => seqCode .hdrParse []
  | .validate => seqCode .validate []
  | .decode => seqCode .decode []

/-- The code of a table word of `nbits` bits, its operands 0. The opcode table's formats overlap as bare
numbers: the narrowest format that holds the word is taken, and 48 bits are a host access word but for the three
header selectors (log 5). -/
def tableCode (nbits w : Nat) : Code :=
  if nbits ≤ 8 then
    if w < 2 ^ 2 then ⟨.cidx2, BitVec.ofNat 48 w, [0]⟩
    else if w < 2 ^ 3 then ⟨.aidx3, BitVec.ofNat 48 w, [0]⟩
    else ⟨.nib4, BitVec.ofNat 48 w, []⟩
  else if nbits ≤ 16 then ⟨.predAlpha, BitVec.ofNat 48 w, []⟩
  else if nbits ≤ 32 then ⟨.predColour, BitVec.ofNat 48 w, []⟩
  else if w = (hdrselWord 0).toNat ∨ w = (hdrselWord 1).toNat ∨ w = (hdrselWord 7).toNat then
    ⟨.hdrsel, BitVec.ofNat 48 w, [0]⟩
  else ⟨.haw, BitVec.ofNat 48 w, []⟩

/-- The operation the decoder reads from a table word. -/
def decodeTableWord (nbits w : Nat) : Option Instr := (decode (tableCode nbits w)).toOption

end Sys2Proof
end

