-- ==== Sys2Proof/Machine/HostProgram.lean ====
section
/-! DEFINITION. The host program syntax and the pseudo-instructions (30_encoding.md R113, R114), as actions of the
schedule, and the loop WAIT. -/

namespace Sys2Proof.Machine

/-- One register access: a host access word. -/
def hostWord (w : Word48) : Action := .invoke ⟨.haw, w, []⟩

/-- RD REG of R113: W = 0, DATA = 0. -/
def hostRd (offset : Byte) : Action := hostWord (packHaw false 0 offset 0)

/-- WR REG, imm32 of R113. -/
def hostWr (offset : Byte) (imm : Word) : Action := hostWord (packHaw true 0 offset imm)

/-- START of R114. -/
def pseudoStart : List Action := [hostWr 0x00 1]

/-- SETLEN n of R114. -/
def pseudoSetLen (n : Nat) : List Action :=
  [hostWr 0x08 (BitVec.ofNat 32 (n % 2 ^ 32)), hostWr 0x0C (BitVec.ofNat 32 (n / 2 ^ 32))]

/-- LOAD a, bytes of R114. -/
def pseudoLoad (a : Nat) (bytes : List Byte) : List Action := bytes.mapIdx fun j v => .inWrite (a + j) v

/-- READOUT a, n of R114. -/
def pseudoReadOut (a n : Nat) : List Action := (List.range n).map fun j => .outRead (a + j)

/-- WAIT of R114. -/
def pseudoWait : List Action := [.wait]

/-- WAIT goes round again (R114): s[1:0] = 1. -/
def waitAgain (status : Word) : Bool := status.extractLsb' 0 2 == 1

/-- HOST is still in WAIT: its own later accesses wait, a step of CORE or the platform goes before the next read.
With none named CORE takes its turn (weak fairness, 45_host_interface.md R277; log 30). -/
def loopWait : List Action → List Action
  | .core :: rest => .core :: .wait :: rest
  | .rst :: rest => .rst :: .wait :: rest
  | rest => .core :: .wait :: rest

/-- One turn of WAIT (R114): `L: RD STATUS -> s`, back to L while s[1:0] = 1. -/
def hostWait (s : State) : Host.Outcome State Fault Refusal :=
  let t : State := { s with ret := .word (s.readReg 0x04) }
  .next (if waitAgain (s.readReg 0x04) then { t with schedule := loopWait s.schedule } else t)

end Sys2Proof.Machine
end

