-- ==== Sys2Proof/Machine/Step.lean ====
section
/-! DEFINITION. One step of the machine (45_host_interface.md R277). -/

namespace Sys2Proof.Machine

/-- CORE's turn (R277): VALIDATE in VALIDATE, GRID.STEP in GRID, no step in IDLE, DONE and ERROR. -/
def coreStep (s : State) : Host.Outcome State Fault Refusal :=
  match s.phase with
  | .validate => exec .validate s
  | .grid => exec .gridStep s
  | .idle => .next s
  | .done => .next s
  | .error => .next s

/-- An operation named by its code: decoded, then run. -/
def invoke (c : Code) (s : State) : Host.Outcome State Fault Refusal :=
  match decode c with
  | .ok i => exec i s
  | .error _ => .refused .undecodable

/-- One action of the interleaving. -/
def act (a : Action) (s : State) : Host.Outcome State Fault Refusal :=
  match a with
  | .invoke c => invoke c s
  | .inWrite a v => hostInWrite a v s
  | .inRead a => hostInRead a s
  | .outWrite a v => hostOutWrite a v s
  | .outRead a => hostOutRead a s
  | .wait => hostWait s
  | .rst => .next s.rst
  | .core => coreStep s

/-- One step: the next action of the schedule; with none left CORE moves (weak fairness, R277; log 2). -/
def step (s : State) : Host.Outcome State Fault Refusal :=
  match s.schedule with
  | [] => coreStep s
  | a :: rest => act a { s with schedule := rest }

/-- The state with one operation put before the schedule, so that the next step runs it (log 3). -/
def State.withFetchWord (s : State) (nbits w : Nat) : State :=
  { s with schedule := .invoke (tableCode nbits w) :: s.schedule }

end Sys2Proof.Machine
end

