-- ==== Sys2Proof/Safety.lean ====
section
/-! DEFINITION. What counts as a safe state and a safe run of DXTDEC, in the terms the statements use. -/

namespace Sys2Proof.Machine

/-- 10_state.md R24, 60_exceptions.md R300: ERR is 1 to 6 or 9 in ERROR and 0 elsewhere. -/
def State.errLegal (s : State) : Prop :=
  if s.phase = .error then s.err ∈ [1, 2, 3, 4, 5, 6, 9] else s.err = 0

/-- What every step keeps, whatever the schedule holds. -/
structure Inv (s : State) : Prop where
  /-- the parameters meet 00_scope.md R5 -/
  params      : s.cfg.legal = true
  /-- the memories are in canonical form (log 20) -/
  inWf        : s.inMem.wf
  outWf       : s.outMem.wf
  beforeWf    : s.outBefore.wf
  /-- no byte is listed at an address that does not exist (20_memory.md R61, R62) -/
  inBelow     : s.inMem.below s.cfg.inCap
  outBelow    : s.outMem.below s.cfg.outCap
  beforeBelow : s.outBefore.below s.cfg.outCap
  err         : s.errLegal
  /-- the record of a running decode is kept only while BUSY (log 14) -/
  quiet       : s.busy = false → s.outBefore = [] ∧ s.outRaced = []
  /-- every raced address exists and holds HOST's value (log 15) -/
  raced       : ∀ a ∈ s.outRaced, a < s.cfg.outCap ∧ (s.outBefore.lookup a).isSome = true

/-- An action HOST, CORE or the platform takes: of the operations only host access words (10_state.md R21,
45_host_interface.md R277; log 6). -/
def Action.external : Action → Bool
  | .invoke c => c.fmt == .haw && c.operands.isEmpty
  | .inWrite _ _ => true
  | .inRead _ => true
  | .outWrite _ _ => true
  | .outRead _ => true
  | .wait => true
  | .rst => true
  | .core => true

/-- The geometry of a decode in GRID (10_state.md R38, R39, 44_container.md R250 to R253). -/
structure GridInv (s : State) : Prop where
  variant    : s.geom.variant ≠ .none
  blockBytes : s.geom.blockBytes = blockBytesOf s.geom.variant
  blocksX    : s.geom.blocksX = blocksOf s.geom.w.toNat
  blocksY    : s.geom.blocksY = blocksOf s.geom.h.toNat
  /-- R242 -/
  lenFits    : s.len.toNat ≤ s.cfg.inCap
  /-- R250, R251 -/
  blocksFit  : s.geom.base.toNat + s.geom.blocksX * s.geom.blocksY * s.geom.blockBytes ≤ s.len.toNat
  /-- R251 -/
  length     : s.hdr.mipLengths[0].toNat = s.geom.blocksX * s.geom.blocksY * s.geom.blockBytes
  /-- R252 -/
  outFits    : s.geom.outLen ≤ s.cfg.outCap
  /-- R39 -/
  column     : s.iterX < s.geom.blocksX
  row        : s.iterY < s.geom.blocksY
  /-- R31, R30: the result registers show the geometry -/
  showsX     : s.regs.blocksX = BitVec.ofNat 32 s.geom.blocksX
  showsY     : s.regs.blocksY = BitVec.ofNat 32 s.geom.blocksY
  showsKind  : s.regs.variant = variantCode s.geom.variant

/-- The two states agree on everything but the datapath of 10_state.md R41 to R44 and the number of draws: what
a block decode leaves unchanged. -/
structure SameOutside (s t : State) : Prop where
  cfg       : t.cfg = s.cfg
  regs      : t.regs = s.regs
  phase     : t.phase = s.phase
  err       : t.err = s.err
  len       : t.len = s.len
  hdr       : t.hdr = s.hdr
  geom      : t.geom = s.geom
  iterX     : t.iterX = s.iterX
  iterY     : t.iterY = s.iterY
  inMem     : t.inMem = s.inMem
  outMem    : t.outMem = s.outMem
  outBefore : t.outBefore = s.outBefore
  outRaced  : t.outRaced = s.outRaced
  decodeDraws : t.decodeDraws = s.decodeDraws
  ret       : t.ret = s.ret
  schedule  : t.schedule = s.schedule

/-- The result registers of 10_state.md R34: every register but FILE_LEN. -/
def SameResults (r q : Regs) : Prop :=
  q = { r with fileLenLo := q.fileLenLo, fileLenHi := q.fileLenHi }

/-- What every step of the hardware keeps: the schedule holds only what HOST, CORE and the platform do, a decode
in GRID has a legal geometry, and one in VALIDATE has touched neither OUT nor a result register. -/
structure RunInv (s : State) : Prop where
  inv      : Inv s
  external : ∀ a ∈ s.schedule, a.external = true
  grid     : s.phase = .grid → GridInv s
  /-- a decode that is still validating has written no OUT byte (20_memory.md R71) -/
  pending  : s.phase = .validate → s.outMem = s.outBefore
  /-- the result registers read 0 before the validation (70_reset_and_hazards.md R350) -/
  cleared  : s.phase = .validate → SameResults Regs.reset s.regs

/-- The machine with another number of block lanes. -/
def State.withLanes (s : State) (n : Nat) : State := { s with cfg := { s.cfg with nLanes := n } }

/-- An outcome with its next state replaced. -/
def mapNext (f : State → State) (o : Host.Outcome State Fault Refusal) : Host.Outcome State Fault Refusal :=
  match o with
  | .next s => .next (f s)
  | .fault e => .fault e
  | .refused e => .refused e

end Sys2Proof.Machine
end

