-- ==== Sys2Proof/Certificates/Slice0/Obligations.lean ====
section
/-! DEFINITION. The statements for the provers, and the few words they use. -/

namespace Sys2Proof.Machine

/-- The little-endian value of a byte array as a sum (40_bit_readers.md R130, MemValue of R133). -/
def memValue (bytes : List Byte) : Nat :=
  ∑ j ∈ Finset.range bytes.length, (bytes.getD j 0).toNat * 2 ^ (8 * j)

/-- The little-endian value of n bytes of IN at a as a sum (R130). -/
def inValue (s : State) (a n : Nat) : Nat :=
  ∑ j ∈ Finset.range n, (s.readIn (a + j)).toNat * 2 ^ (8 * j)

/-- The colour of EXP565 in numbers (41_color_block.md R150, fields of 30_encoding.md R101). -/
def redOf (c : Endpoint) : Nat := c.toNat / 2 ^ 11 % 2 ^ 5 * 8
def greenOf (c : Endpoint) : Nat := c.toNat / 2 ^ 5 % 2 ^ 6 * 4
def blueOf (c : Endpoint) : Nat := c.toNat % 2 ^ 5 * 8

/-- A pixel with an endpoint's expanded colour, alpha 255 (R153). -/
def Pixel.isEndpoint (p : Pixel) (c : Endpoint) : Prop :=
  p.r.toNat = redOf c ∧ p.g.toNat = greenOf c ∧ p.b.toNat = blueOf c ∧ p.a = 255

/-- Slots 2 and 3 of the four-colour palette, channel by channel (R154). -/
def fourColourRule (p : Vector Pixel 4) : Prop :=
  (p[2].r.toNat = (2 * p[0].r.toNat + p[1].r.toNat) / 3 ∧
   p[2].g.toNat = (2 * p[0].g.toNat + p[1].g.toNat) / 3 ∧
   p[2].b.toNat = (2 * p[0].b.toNat + p[1].b.toNat) / 3 ∧ p[2].a = 255) ∧
  (p[3].r.toNat = (p[0].r.toNat + 2 * p[1].r.toNat) / 3 ∧
   p[3].g.toNat = (p[0].g.toNat + 2 * p[1].g.toNat) / 3 ∧
   p[3].b.toNat = (p[0].b.toNat + 2 * p[1].b.toNat) / 3 ∧ p[3].a = 255)

/-- Slots 2 and 3 of the three-colour palette (R155). -/
def threeColourRule (p : Vector Pixel 4) : Prop :=
  (p[2].r.toNat = (p[0].r.toNat + p[1].r.toNat) / 2 ∧
   p[2].g.toNat = (p[0].g.toNat + p[1].g.toNat) / 2 ∧
   p[2].b.toNat = (p[0].b.toNat + p[1].b.toNat) / 2 ∧ p[2].a = 255) ∧
  p[3] = ⟨0, 0, 0, 0⟩

/-- The eight-alpha table (42_alpha_block.md R185). -/
def eightAlphaRule (t : Vector Byte 8) (a0 a1 : Byte) : Prop :=
  t[0] = a0 ∧ t[1] = a1 ∧
    ∀ k : Fin 8, 2 ≤ k.val → t[k].toNat = ((8 - k.val) * a0.toNat + (k.val - 1) * a1.toNat) / 7

/-- The six-alpha table (R186). -/
def sixAlphaRule (t : Vector Byte 8) (a0 a1 : Byte) : Prop :=
  t[0] = a0 ∧ t[1] = a1 ∧
    (∀ k : Fin 8, 2 ≤ k.val → k.val < 6 →
      t[k].toNat = ((6 - k.val) * a0.toNat + (k.val - 1) * a1.toNat) / 5) ∧
    t[6] = 0 ∧ t[7] = 255

/-- CSEL.k and ASEL.k by number. -/
def colourSelect (k : Fin 4) (i : PixelNo) : Instr :=
  match k with
  | 0 => .csel0 i
  | 1 => .csel1 i
  | 2 => .csel2 i
  | 3 => .csel3 i

def alphaSelect (k : Fin 8) (i : PixelNo) : Instr :=
  match k with
  | 0 => .asel0 i
  | 1 => .asel1 i
  | 2 => .asel2 i
  | 3 => .asel3 i
  | 4 => .asel4 i
  | 5 => .asel5 i
  | 6 => .asel6 i
  | 7 => .asel7 i

/-- The block decoder of a latched variant (43_block_grid.md R218). -/
def blockDecoder (v : Variant) (addr : Nat) : Instr :=
  match v with
  | .none => .decDxt1 addr
  | .dxt1 => .decDxt1 addr
  | .dxt3 => .decDxt3 addr
  | .dxt5 => .decDxt5 addr

/-- IN[0..4) is 42 4C 50 32 (30_encoding.md R96). -/
def magicBytes (s : State) : Prop :=
  s.readIn 0 = 0x42 ∧ s.readIn 1 = 0x4C ∧ s.readIn 2 = 0x50 ∧ s.readIn 3 = 0x32

/-- The registers of R34 that only an accepted header writes. -/
def SameGeometryResults (r q : Regs) : Prop :=
  q.variant = r.variant ∧ q.blocksX = r.blocksX ∧ q.blocksY = r.blocksY ∧
    q.outLenLo = r.outLenLo ∧ q.outLenHi = r.outLenHi

/-- The IN addresses of the header fields that influence a decode (44_container.md R254, 10_state.md R37). -/
def influentialHeaderByte (a : Nat) : Prop :=
  a < 9 ∨ a = 10 ∨ (12 ≤ a ∧ a < 24) ∨ (84 ≤ a ∧ a < 88)

end Sys2Proof.Machine

open Sys2Proof Sys2Proof.Machine

/-! ## Encodings -/

/-- 30_encoding.md R92 with 45_host_interface.md R275: the first matching line of the table decodes every host
access word, every 48-bit word is one, and a word with reserved bits has no effect but that a read returns 0. -/
def Obligations.HawWordsDecodeByPriority : Prop :=
  (∀ (write : Bool) (rsv : BitVec 7) (offset : Byte) (data : Word),
    decode ⟨.haw, BitVec.ofBool write ++ rsv ++ offset ++ data, []⟩ =
      .ok (if rsv ≠ 0 then .hawRsv write rsv offset data
        else if write = false then .rd offset data
        else if offset = 0x00 then .wrCtrl data
        else if offset = 0x08 then .wrFlenLo data
        else if offset = 0x0C then .wrFlenHi data
        else .wrIgn offset data)) ∧
  (∀ w : Word48, ∃ (write : Bool) (rsv : BitVec 7) (offset : Byte) (data : Word),
    w = BitVec.ofBool write ++ rsv ++ offset ++ data) ∧
  (∀ (s : State) (write : Bool) (rsv : BitVec 7) (offset : Byte) (data : Word), rsv ≠ 0 →
    exec (.hawRsv write rsv offset data) s = .next (if write then s else { s with ret := .word 0 }))

/-- Decoding the code of a well-formed operation gives it back, every operand at every value. -/
def Obligations.DecodeOfEncodeIsTheOperation : Prop :=
  ∀ i : Instr, i.wf = true → decode (encode i) = .ok i

/-- A code that decodes is the code of a well-formed operation: no bit and no operand is dropped. -/
def Obligations.EncodeOfDecodeIsTheCode : Prop :=
  ∀ (c : Code) (i : Instr), decode c = .ok i → i.wf = true ∧ encode i = c

/-- Words written out from 95_test_vectors.md 2.6 and the opcode table. -/
def Obligations.SpecWordsDecodeToTheirOperations : Prop :=
  decode ⟨.haw, 0x800000000001, []⟩ = .ok (.wrCtrl 1) ∧
  decode ⟨.haw, 0x000400000000, []⟩ = .ok (.rd 0x04 0) ∧
  decode ⟨.haw, 0x80080000049C, []⟩ = .ok (.wrFlenLo 1180) ∧
  decode ⟨.haw, 0x800100000001, []⟩ = .ok (.wrIgn 0x01 1) ∧
  decode ⟨.haw, 0x7F0400000000, []⟩ = .ok (.hawRsv false 0x7F 0x04 0) ∧
  decode ⟨.hdrsel, 0x000000010207, [1172]⟩ = .ok (.decDxt5 1172) ∧
  decode ⟨.hdrsel, 0x000000010208, [1172]⟩ = .error .rejectedSelector ∧
  decode ⟨.cidx2, 3, [12]⟩ = .ok (.csel3 12) ∧
  decode ⟨.aidx3, 6, [4]⟩ = .ok (.asel6 4) ∧
  decode ⟨.nib4, 8, []⟩ = .ok (.aexp4 8)

/-- 30_encoding.md R110 and R99: what the selectors of the datapath select. -/
def Obligations.SelectorsDecodeToTheOperationMap : Prop :=
  (∀ (ct : Word) (comp kind : Byte) (addr : Nat),
    decode ⟨.hdrsel, ct ++ comp ++ kind, [addr]⟩ =
      if ct = 1 ∧ comp = 2 ∧ kind = 0 then .ok (.decDxt1 addr)
      else if ct = 1 ∧ comp = 2 ∧ kind = 1 then .ok (.decDxt3 addr)
      else if ct = 1 ∧ comp = 2 ∧ kind = 7 then .ok (.decDxt5 addr)
      else .error .rejectedSelector) ∧
  (∀ c0 c1 : Endpoint, decode ⟨.predColour, (0 : BitVec 16) ++ c1 ++ c0, []⟩ =
      .ok (if c1 < c0 then .cmode4 c0 c1 else .cmode3 c0 c1)) ∧
  (∀ a0 a1 : Byte, decode ⟨.predAlpha, (0 : BitVec 32) ++ a1 ++ a0, []⟩ =
      .ok (if a1 < a0 then .amode8 a0 a1 else .amode6 a0 a1)) ∧
  (∀ (k : Fin 4) (i : PixelNo), decode ⟨.cidx2, BitVec.ofNat 48 k.val, [i.val]⟩ = .ok (colourSelect k i)) ∧
  (∀ n : BitVec 4, decode ⟨.nib4, n.setWidth 48, []⟩ = .ok (.aexp4 n)) ∧
  (∀ (k : Fin 8) (i : PixelNo), decode ⟨.aidx3, BitVec.ofNat 48 k.val, [i.val]⟩ = .ok (alphaSelect k i))

/-! ## The step -/

/-- An invocation at the head of the schedule that decodes is run, on the state with the schedule moved on. -/
def Obligations.StepRunsTheDecodedOperation : Prop :=
  ∀ (s : State) (c : Code) (rest : List Action) (i : Instr),
    s.schedule = .invoke c :: rest → decode c = .ok i →
      i.wf = true ∧ step s = exec i { s with schedule := rest }

/-- 45_host_interface.md R277, 60_exceptions.md R314: CORE's turn is VALIDATE in VALIDATE and GRID.STEP in GRID;
in IDLE, DONE and ERROR CORE has no step. The empty schedule gives the turn to CORE (log 2). -/
def Obligations.CoreTakesItsEnabledStep : Prop :=
  ∀ (s t : State),
    (s.schedule = [] ∧ t = s ∨ ∃ rest, s.schedule = .core :: rest ∧ t = { s with schedule := rest }) →
    (s.phase = .validate → step s = exec .validate t ∧ exec .gridStep t = .next t) ∧
    (s.phase = .grid → step s = exec .gridStep t ∧ exec .validate t = .next t) ∧
    (s.phase = .idle ∨ s.phase = .done ∨ s.phase = .error →
      step s = .next t ∧ exec .validate t = .next t ∧ exec .gridStep t = .next t)

/-- 45_host_interface.md R276, 20_memory.md R61, R62: HOST's byte accesses with no decode running, a read of IN while
BUSY too (log 28), and their faults at addresses that do not exist. -/
def Obligations.HostMemoryPortWithoutADecode : Prop :=
  ∀ (s : State) (rest : List Action) (a : Nat) (v : Byte),
    (s.schedule = .inRead a :: rest →
      (s.cfg.inCap ≤ a → step s = .fault .noSuchInAddress) ∧
      (a < s.cfg.inCap → ∃ d,
        step s = .next { s with schedule := rest, ret := .byte (s.readIn a), draws := d })) ∧
    (s.busy = false → s.schedule = .inWrite a v :: rest →
      (s.cfg.inCap ≤ a → step s = .fault .noSuchInAddress) ∧
      (a < s.cfg.inCap → ∃ t, step s = .next t ∧ t = { s with schedule := rest, inMem := t.inMem } ∧
        t.readIn a = v ∧ ∀ b, b ≠ a → t.readIn b = s.readIn b)) ∧
    (s.busy = false → s.schedule = .outWrite a v :: rest →
      (s.cfg.outCap ≤ a → step s = .fault .noSuchOutAddress) ∧
      (a < s.cfg.outCap → ∃ t, step s = .next t ∧ t = { s with schedule := rest, outMem := t.outMem } ∧
        t.readOut a = v ∧ ∀ b, b ≠ a → t.readOut b = s.readOut b)) ∧
    (s.busy = false → s.schedule = .outRead a :: rest →
      (s.cfg.outCap ≤ a → step s = .fault .noSuchOutAddress) ∧
      (a < s.cfg.outCap → step s = .next { s with schedule := rest, ret := .byte (s.readOut a) }))

/-- 70_reset_and_hazards.md R346: a HOST write of IN[0 .. len) while BUSY is refused; at or beyond len it is taken
and leaves every other byte of IN as it was. -/
def Obligations.InputHazardIsRefused : Prop :=
  ∀ (s : State) (rest : List Action) (a : Nat) (v : Byte),
    s.schedule = .inWrite a v :: rest → s.busy = true → a < s.cfg.inCap →
    (a < s.len.toNat → step s = .refused .inputHazard) ∧
    (s.len.toNat ≤ a → ∃ t, step s = .next t ∧ t = { s with schedule := rest, inMem := t.inMem } ∧
      t.readIn a = v ∧ ∀ b, b ≠ a → t.readIn b = s.readIn b)

/-! ## Host register accesses -/

/-- 45_host_interface.md R270: RD returns the register of the map and changes nothing else; with the model's
invariant a read of STATUS while BUSY returns 1. -/
def Obligations.RegisterReadReturnsTheMappedRegister : Prop :=
  ∀ (s : State) (offset : Byte) (data : Word), ∃ v : Word,
    exec (.rd offset data) s = .next { s with ret := .word v } ∧
    (offset.toNat % 4 ≠ 0 ∨ 0x3C ≤ offset.toNat → v = 0) ∧
    (offset = 0x00 → v = 0) ∧
    (offset = 0x04 → v.toNat = s.err.toNat * 2 ^ 4 +
      (match s.phase with | .idle => 0 | .validate => 1 | .grid => 1 | .done => 2 | .error => 3)) ∧
    (offset = 0x04 → Inv s → s.busy = true → v = 0x00000001) ∧
    (offset = 0x08 → v = s.regs.fileLenLo) ∧ (offset = 0x0C → v = s.regs.fileLenHi) ∧
    (offset = 0x10 → v = s.regs.width) ∧ (offset = 0x14 → v = s.regs.height) ∧
    (offset = 0x18 → v = s.regs.contentType) ∧ (offset = 0x1C → v = s.regs.hdrBytes) ∧
    (offset = 0x20 → v = s.regs.mip0Offset) ∧ (offset = 0x24 → v = s.regs.mip0Length) ∧
    (offset = 0x28 → v = s.regs.variant) ∧ (offset = 0x2C → v = s.regs.blocksX) ∧
    (offset = 0x30 → v = s.regs.blocksY) ∧ (offset = 0x34 → v = s.regs.outLenLo) ∧
    (offset = 0x38 → v = s.regs.outLenHi)

/-- 10_state.md R24: the fields of STATUS, reserved bits 0, and in every state with the model's invariant the
listed error codes, 0 unless STATE = 3. -/
def Obligations.StatusShowsLegalFields : Prop :=
  ∀ (s : State) (v : Word), Inv s → v = s.readReg 0x04 →
    v.toNat < 2 ^ 8 ∧ v.toNat / 2 ^ 2 % 2 ^ 2 = 0 ∧
    (v.toNat % 4 = 0 ↔ s.phase = .idle) ∧
    (v.toNat % 4 = 1 ↔ s.busy = true) ∧
    (v.toNat % 4 = 2 ↔ s.phase = .done) ∧
    (v.toNat % 4 = 3 ↔ s.phase = .error) ∧
    (v.toNat % 4 ≠ 3 → v.toNat / 2 ^ 4 = 0) ∧
    (v.toNat % 4 = 3 → v.toNat / 2 ^ 4 ∈ [1, 2, 3, 4, 5, 6, 9])

/-- 45_host_interface.md R271: START is accepted exactly with DATA[0] = 1 and no decode running; it samples
FILE_LEN, clears ERR and the result registers, enters VALIDATE and leaves OUT and all else alone. Any other
write of CTRL has no effect. (outBefore, outRaced, draws and decodeDraws are the model's own, log 8, 14,
15.) -/
def Obligations.StartIsAcceptedUnlessBusy : Prop :=
  ∀ (s : State) (data : Word),
    (data.toNat % 2 = 1 → s.phase ≠ .validate → s.phase ≠ .grid → ∃ t,
      exec (.wrCtrl data) s = .next t ∧ t = { s with
        len := s.regs.fileLenHi ++ s.regs.fileLenLo
        err := 0
        regs := ⟨s.regs.fileLenLo, s.regs.fileLenHi, 0, 0, 0, 0, 0, 0, 0, 0, 0, 0, 0⟩
        phase := .validate
        outBefore := t.outBefore
        outRaced := t.outRaced
        draws := t.draws
        decodeDraws := t.decodeDraws }) ∧
    (data.toNat % 2 = 0 ∨ s.phase = .validate ∨ s.phase = .grid → exec (.wrCtrl data) s = .next s)

/-- 45_host_interface.md R272, R273: the FILE_LEN writes, in every phase; a running decode keeps its length. -/
def Obligations.FileLengthWritesChangeOnlyTheirRegister : Prop :=
  ∀ (s : State) (data : Word),
    exec (.wrFlenLo data) s = .next { s with regs := { s.regs with fileLenLo := data } } ∧
    exec (.wrFlenHi data) s = .next { s with regs := { s.regs with fileLenHi := data } }

/-- 45_host_interface.md R274: a write to any offset but 0x00, 0x08 and 0x0C is decoded as WR.IGN and changes
nothing. -/
def Obligations.OtherRegisterWritesAreIgnored : Prop :=
  ∀ (s : State) (offset : Byte) (data : Word), offset ≠ 0x00 → offset ≠ 0x08 → offset ≠ 0x0C →
    decode ⟨.haw, (1 : BitVec 1) ++ (0 : BitVec 7) ++ offset ++ data, []⟩ = .ok (.wrIgn offset data) ∧
    exec (.wrIgn offset data) s = .next s

/-! ## Readers -/

/-- 40_bit_readers.md R130: LE.READ returns the little-endian sum and writes no state; a byte HOST wrote is read
as written (a byte never written is a draw, 20_memory.md R61). -/
def Obligations.LeReadReturnsTheLittleEndianSum : Prop :=
  ∀ (s : State) (a n : Nat), n ∈ [1, 2, 4, 6, 8] → a + n ≤ s.cfg.inCap →
    (∃ d, exec (.leRead a n) s = .next { s with ret := .value (inValue s a n), draws := d }) ∧
    inValue s a n < 2 ^ (8 * n) ∧
    ∀ b v, s.inMem.lookup b = some v → s.readIn b = v

/-- 40_bit_readers.md R132, R133: the canonical bit window is the field of the byte array read as one
little-endian integer. -/
def Obligations.BitWindowIsTheIntegerField : Prop :=
  ∀ (s : State) (bytes : List Byte) (p k : Nat), 1 ≤ k → k ≤ 8 → p + k ≤ 8 * bytes.length →
    exec (.bitwin bytes p k) s = .next { s with ret := .value (memValue bytes / 2 ^ p % 2 ^ k) }

/-! ## Colour -/

/-- 41_color_block.md R150: EXP565 shifts the fields, without replication, and writes no state. -/
def Obligations.Exp565ShiftsTheFields : Prop :=
  ∀ (s : State) (c : Endpoint), ∃ r g b : Byte,
    exec (.exp565 c) s = .next { s with ret := .rgb r g b } ∧
    r.toNat = redOf c ∧ g.toNat = greenOf c ∧ b.toNat = blueOf c

/-- 41_color_block.md R151: CEND.READ latches the endpoints and the index word, little-endian, at any address. -/
def Obligations.CendReadLatchesTheColourBlock : Prop :=
  ∀ (s : State) (b : Nat), b + 8 ≤ s.cfg.inCap → ∃ t,
    exec (.cendRead b) s = .next t ∧
    t = { s with c0 := t.c0, c1 := t.c1, idxw := t.idxw, draws := t.draws } ∧
    t.c0.toNat = inValue s b 2 ∧ t.c1.toNat = inValue s (b + 2) 2 ∧ t.idxw.toNat = inValue s (b + 4) 4

/-- 41_color_block.md R153: slots 0 and 1 take the expanded endpoints with alpha 255. -/
def Obligations.Cpal01SetsTheOpaqueEndpoints : Prop :=
  ∀ (s : State) (c0 c1 : Endpoint), ∃ t,
    exec (.cpal01 c0 c1) s = .next t ∧ t = { s with pal := t.pal } ∧
    t.pal[0].isEndpoint c0 ∧ t.pal[1].isEndpoint c1 ∧ t.pal[2] = s.pal[2] ∧ t.pal[3] = s.pal[3]

/-- 41_color_block.md R154, R155: the two palette modes compute slots 2 and 3 from slots 0 and 1. -/
def Obligations.PaletteModesInterpolate : Prop :=
  ∀ (s : State) (c0 c1 : Endpoint), ∃ t u,
    exec (.cmode4 c0 c1) s = .next t ∧ t = { s with pal := t.pal } ∧
    t.pal[0] = s.pal[0] ∧ t.pal[1] = s.pal[1] ∧ fourColourRule t.pal ∧
    exec (.cmode3 c0 c1) s = .next u ∧ u = { s with pal := u.pal } ∧
    u.pal[0] = s.pal[0] ∧ u.pal[1] = s.pal[1] ∧ threeColourRule u.pal

/-- 41_color_block.md R156: CIDX.UNPACK returns bits [2i, 2i+2) of the index word and writes no state. -/
def Obligations.ColourIndexIsTwoBitsOfTheWord : Prop :=
  ∀ (s : State) (idxw : Word) (i : PixelNo),
    exec (.cidxUnpack idxw i) s = .next { s with ret := .value (idxw.toNat / 2 ^ (2 * i.val) % 4) }

/-- 41_color_block.md R157: CSEL.k writes palette slot k into the four bytes of pixel i and nothing else. -/
def Obligations.ColourSelectWritesOnePixel : Prop :=
  ∀ (s : State) (k : Fin 4) (i : PixelNo), ∃ t,
    exec (colourSelect k i) s = .next t ∧ t = { s with tile := t.tile } ∧
    t.tile[4 * i.val]'(by omega) = s.pal[k].r ∧ t.tile[4 * i.val + 1]'(by omega) = s.pal[k].g ∧
    t.tile[4 * i.val + 2]'(by omega) = s.pal[k].b ∧ t.tile[4 * i.val + 3]'(by omega) = s.pal[k].a ∧
    ∀ j : Fin 64, j.val / 4 ≠ i.val → t.tile[j] = s.tile[j]

/-- 41_color_block.md R158: DEC.COLOR reads the block, sets four_color, builds the palette of its mode and writes
every tile pixel from its index; nothing outside the colour datapath and the tile changes. -/
def Obligations.ColourBlockDecodesEveryPixel : Prop :=
  ∀ (s : State) (b : Nat), b + 8 ≤ s.cfg.inCap → ∃ t,
    exec (.decColor b) s = .next t ∧ SameOutside s t ∧
    t.alpha64 = s.alpha64 ∧ t.a0 = s.a0 ∧ t.a1 = s.a1 ∧ t.eightAlpha = s.eightAlpha ∧
    t.alphaTab = s.alphaTab ∧ t.aidx48 = s.aidx48 ∧
    t.c0.toNat = inValue s b 2 ∧ t.c1.toNat = inValue s (b + 2) 2 ∧ t.idxw.toNat = inValue s (b + 4) 4 ∧
    (t.fourColor = true ↔ t.c1.toNat < t.c0.toNat) ∧
    t.pal[0].isEndpoint t.c0 ∧ t.pal[1].isEndpoint t.c1 ∧
    (t.fourColor = true → fourColourRule t.pal) ∧ (t.fourColor = false → threeColourRule t.pal) ∧
    ∀ (i : PixelNo) (c : Fin 4),
      tileByte t.tile i c =
        (t.pal[t.idxw.toNat / 2 ^ (2 * i.val) % 4]'(Nat.mod_lt _ (by omega))).channel c

/-- 41_color_block.md R160: the palette properties of a decoded colour block. -/
def Obligations.PaletteProperties : Prop :=
  ∀ (s t : State) (b : Nat), exec (.decColor b) s = .next t →
    (t.c1.toNat < t.c0.toNat → ∀ k : Fin 4, t.pal[k].a = 255) ∧
    (t.c0.toNat ≤ t.c1.toNat → t.pal[3] = ⟨0, 0, 0, 0⟩) ∧
    (t.idxw = 0 → ∀ i : PixelNo,
      (tileByte t.tile i 0).toNat = redOf t.c0 ∧ (tileByte t.tile i 1).toNat = greenOf t.c0 ∧
      (tileByte t.tile i 2).toNat = blueOf t.c0 ∧ tileByte t.tile i 3 = 255)

/-! ## Alpha -/

/-- 42_alpha_block.md R181: AEXP4 is 17 n and writes no state. -/
def Obligations.NibbleExpansionReplicates : Prop :=
  ∀ (s : State) (n : BitVec 4), exec (.aexp4 n) s = .next { s with ret := .value (17 * n.toNat) }

/-- 42_alpha_block.md R180: the nibble of pixel i is bits [4i, 4i+4) of the alpha field, the low or the high nibble
of block byte i / 2; ANIB.UNPACK writes no state (the register alpha64 is DEC.ALPHA3's, log 18). -/
def Obligations.NibbleUnpackReadsItsByte : Prop :=
  ∀ (s : State) (b : Nat) (i : PixelNo), b + 8 ≤ s.cfg.inCap → ∃ n d,
    exec (.anibUnpack b i) s = .next { s with ret := .value n, draws := d } ∧
    n = inValue s b 8 / 2 ^ (4 * i.val) % 2 ^ 4 ∧
    n = (s.readIn (b + i.val / 2)).toNat / 16 ^ (i.val % 2) % 16

/-- 42_alpha_block.md R182: DEC.ALPHA3 latches the alpha field and overwrites only the alpha bytes. -/
def Obligations.ExplicitAlphaOverwritesOnlyAlpha : Prop :=
  ∀ (s : State) (b : Nat), b + 8 ≤ s.cfg.inCap → ∃ t,
    exec (.decAlpha3 b) s = .next t ∧
    t = { s with alpha64 := t.alpha64, tile := t.tile, draws := t.draws } ∧
    t.alpha64.toNat = inValue s b 8 ∧
    ∀ i : PixelNo,
      (tileByte t.tile i 3).toNat = 17 * (t.alpha64.toNat / 2 ^ (4 * i.val) % 16) ∧
      ∀ c : Fin 4, c ≠ 3 → tileByte t.tile i c = tileByte s.tile i c

/-- 42_alpha_block.md R183: AEND.READ latches the alpha endpoints and the index field. -/
def Obligations.AendReadLatchesTheAlphaBlock : Prop :=
  ∀ (s : State) (b : Nat), b + 8 ≤ s.cfg.inCap → ∃ t,
    exec (.aendRead b) s = .next t ∧
    t = { s with a0 := s.readIn b, a1 := s.readIn (b + 1), aidx48 := t.aidx48, draws := t.draws } ∧
    t.aidx48.toNat = inValue s (b + 2) 6

/-- 42_alpha_block.md R185, R186: the two alpha tables, for all endpoints. -/
def Obligations.AlphaModesInterpolate : Prop :=
  ∀ (s : State) (a0 a1 : Byte), ∃ t u,
    exec (.amode8 a0 a1) s = .next t ∧ t = { s with alphaTab := t.alphaTab } ∧ eightAlphaRule t.alphaTab a0 a1 ∧
    exec (.amode6 a0 a1) s = .next u ∧ u = { s with alphaTab := u.alphaTab } ∧ sixAlphaRule u.alphaTab a0 a1

/-- 42_alpha_block.md R187: AIDX.UNPACK is the bit window at 3i of the six bytes, and bits [3i, 3i+3) of their
little-endian value; it writes no state. -/
def Obligations.AlphaIndexIsThreeBitsOfTheField : Prop :=
  ∀ (s : State) (bytes : List Byte) (i : PixelNo), bytes.length = 6 →
    exec (.aidxUnpack bytes i) s = .next { s with ret := .value (bitWindow bytes (3 * i.val) 3) } ∧
    bitWindow bytes (3 * i.val) 3 = memValue bytes / 2 ^ (3 * i.val) % 8

/-- 42_alpha_block.md R188: ASEL.k writes A[k] into the alpha byte of pixel i and nothing else. -/
def Obligations.AlphaSelectWritesOneByte : Prop :=
  ∀ (s : State) (k : Fin 8) (i : PixelNo), ∃ t,
    exec (alphaSelect k i) s = .next t ∧ t = { s with tile := t.tile } ∧
    t.tile[4 * i.val + 3]'(by omega) = s.alphaTab[k] ∧
    ∀ j : Fin 64, j.val ≠ 4 * i.val + 3 → t.tile[j] = s.tile[j]

/-- 42_alpha_block.md R189: DEC.ALPHA5 reads the block, sets eight_alpha, builds the table of its mode and
overwrites only the alpha bytes. -/
def Obligations.InterpolatedAlphaOverwritesOnlyAlpha : Prop :=
  ∀ (s : State) (b : Nat), b + 8 ≤ s.cfg.inCap → ∃ t,
    exec (.decAlpha5 b) s = .next t ∧
    t = { s with
      a0 := s.readIn b, a1 := s.readIn (b + 1), aidx48 := t.aidx48, eightAlpha := t.eightAlpha
      alphaTab := t.alphaTab, tile := t.tile, draws := t.draws } ∧
    t.aidx48.toNat = inValue s (b + 2) 6 ∧
    (t.eightAlpha = true ↔ t.a1.toNat < t.a0.toNat) ∧
    (t.eightAlpha = true → eightAlphaRule t.alphaTab t.a0 t.a1) ∧
    (t.eightAlpha = false → sixAlphaRule t.alphaTab t.a0 t.a1) ∧
    ∀ i : PixelNo,
      tileByte t.tile i 3 =
        t.alphaTab[t.aidx48.toNat / 2 ^ (3 * i.val) % 8]'(Nat.mod_lt _ (by omega)) ∧
      ∀ c : Fin 4, c ≠ 3 → tileByte t.tile i c = tileByte s.tile i c

/-- 42_alpha_block.md R190: with a0 > a1 the entries 6 and 7 are interpolated, between the endpoints; otherwise
they are 0 and 255. -/
def Obligations.AlphaTableProperty : Prop :=
  ∀ (s t : State) (b : Nat), exec (.decAlpha5 b) s = .next t →
    (t.a1.toNat < t.a0.toNat →
      t.alphaTab[6].toNat = (2 * t.a0.toNat + 5 * t.a1.toNat) / 7 ∧
      t.alphaTab[7].toNat = (t.a0.toNat + 6 * t.a1.toNat) / 7 ∧
      ∀ k : Fin 8, t.a1.toNat ≤ t.alphaTab[k].toNat ∧ t.alphaTab[k].toNat ≤ t.a0.toNat) ∧
    (t.a0.toNat ≤ t.a1.toNat → t.alphaTab[6] = 0 ∧ t.alphaTab[7] = 255)

/-! ## Grid -/

/-- 43_block_grid.md R211: GRID.GEOM writes the exact ceilings, at most 2^30, and nothing else. -/
def Obligations.GridGeomWritesTheExactCeilings : Prop :=
  ∀ (s : State) (w h : Word), ∃ t,
    exec (.gridGeom w h) s = .next t ∧
    t = { s with geom := { s.geom with blocksX := t.geom.blocksX, blocksY := t.geom.blocksY } } ∧
    t.geom.blocksX = ⌈(w.toNat : ℚ) / 4⌉₊ ∧ t.geom.blocksY = ⌈(h.toNat : ℚ) / 4⌉₊ ∧
    t.geom.blocksX ≤ 2 ^ 30 ∧ t.geom.blocksY ≤ 2 ^ 30

/-- 43_block_grid.md R212: GRID.ADDR returns base + k * block_bytes for the row-major stream index k, exactly,
and in a decode's grid the block it names lies in the mip's range, which lies below len. -/
def Obligations.GridAddrIsTheStreamAddress : Prop :=
  ∀ (s : State) (cx cy : Nat),
    exec (.gridAddr cx cy) s = .next { s with
      ret := .value (s.geom.base.toNat + (cy * s.geom.blocksX + cx) * s.geom.blockBytes) } ∧
    (GridInv s → cx < s.geom.blocksX → cy < s.geom.blocksY →
      s.geom.base.toNat + (cy * s.geom.blocksX + cx) * s.geom.blockBytes + s.geom.blockBytes ≤
        s.geom.base.toNat + s.hdr.mipLengths[0].toNat ∧
      s.geom.base.toNat + s.hdr.mipLengths[0].toNat ≤ s.len.toNat)

/-- 43_block_grid.md R213, R214, R215: a DXT1 block is a colour block; a DXT3 or DXT5 block is the colour half at
addr + 8, then the alpha half at addr. -/
def Obligations.BlockDecodersComposeTheirHalves : Prop :=
  ∀ (s : State) (addr : Nat),
    (addr + 8 ≤ s.cfg.inCap → ∃ t, exec (.decDxt1 addr) s = .next t ∧ exec (.decColor addr) s = .next t) ∧
    (addr + 16 ≤ s.cfg.inCap → ∃ u t v,
      exec (.decColor (addr + 8)) s = .next u ∧
      exec (.decDxt3 addr) s = .next t ∧ exec (.decAlpha3 addr) u = .next t ∧
      exec (.decDxt5 addr) s = .next v ∧ exec (.decAlpha5 addr) u = .next v)

/-- 43_block_grid.md R217, 20_memory.md R66: TILE.COPY writes exactly the tile pixels that lie inside the image,
each at its four OUT bytes, where those bytes exist. (Where one does not, see AbsentAddressesStopByName.) -/
def Obligations.TileCopyWritesTheClippedTile : Prop :=
  ∀ (s : State) (cx cy : Nat),
    (∀ px py : Fin 4, 4 * cx + px.val < s.geom.w.toNat → 4 * cy + py.val < s.geom.h.toNat →
      4 * ((4 * cy + py.val) * s.geom.w.toNat + (4 * cx + px.val)) + 3 < s.cfg.outCap) →
    ∃ t, exec (.tileCopy cx cy) s = .next t ∧ t = { s with outMem := t.outMem } ∧
      (∀ px py c : Fin 4, 4 * cx + px.val < s.geom.w.toNat → 4 * cy + py.val < s.geom.h.toNat →
        t.readOut (4 * ((4 * cy + py.val) * s.geom.w.toNat + (4 * cx + px.val)) + c.val) =
          s.tile[4 * (4 * py.val + px.val) + c.val]'(by omega)) ∧
      ∀ a, (∀ px py c : Fin 4, 4 * cx + px.val < s.geom.w.toNat → 4 * cy + py.val < s.geom.h.toNat →
          a ≠ 4 * ((4 * cy + py.val) * s.geom.w.toNat + (4 * cx + px.val)) + c.val) →
        t.readOut a = s.readOut a

/-- 43_block_grid.md R218, 10_state.md R40: in a decode's grid GRID.STEP decodes the block of the iterator, copies
the tile and advances in row-major order or enters DONE. At DONE the OUT bytes HOST wrote while BUSY are settled (log 15);
with none OUT is the copy's. The block is read with a draw d of the decode's own (log 8). -/
def Obligations.GridStepDecodesCopiesAdvances : Prop :=
  ∀ s : State, s.phase = .grid → GridInv s → ∃ d u v t,
    exec (blockDecoder s.geom.variant
      (s.geom.base.toNat + (s.iterY * s.geom.blocksX + s.iterX) * s.geom.blockBytes))
      { s with draws := d } = .next u ∧
    exec (.tileCopy s.iterX s.iterY) u = .next v ∧
    exec .gridStep s = .next t ∧
    (s.iterX + 1 < s.geom.blocksX → t = { v with iterX := s.iterX + 1, draws := t.draws }) ∧
    (s.iterX + 1 = s.geom.blocksX → s.iterY + 1 < s.geom.blocksY →
      t = { v with iterX := 0, iterY := s.iterY + 1, draws := t.draws }) ∧
    (s.iterX + 1 = s.geom.blocksX → s.iterY + 1 = s.geom.blocksY →
      t = { v with phase := .done, outMem := t.outMem, outBefore := [], outRaced := [], draws := t.draws } ∧
      (s.outRaced = [] → t.outMem = v.outMem))

/-! ## Container -/

/-- 44_container.md R240, 30_encoding.md R95: HDR.PARSE reads the header layout and nothing else changes. -/
def Obligations.HdrParseReadsTheLayout : Prop :=
  ∀ s : State, 1172 ≤ s.cfg.inCap → ∃ t,
    exec .hdrParse s = .next t ∧ t = { s with hdr := t.hdr, draws := t.draws } ∧
    (∀ j : Fin 4, t.hdr.magic[j] = s.readIn j.val) ∧
    t.hdr.contentType.toNat = inValue s 4 4 ∧
    t.hdr.compression = s.readIn 8 ∧ t.hdr.alphaDepth = s.readIn 9 ∧
    t.hdr.alphaKind = s.readIn 10 ∧ t.hdr.hasMips = s.readIn 11 ∧
    t.hdr.width.toNat = inValue s 12 4 ∧ t.hdr.height.toNat = inValue s 16 4 ∧
    (∀ j : Fin 16, t.hdr.mipOffsets[j].toNat = inValue s (20 + 4 * j.val) 4) ∧
    (∀ j : Fin 16, t.hdr.mipLengths[j].toNat = inValue s (84 + 4 * j.val) 4) ∧
    (∀ j : Fin 256, t.hdr.palette[j].toNat = inValue s (148 + 4 * j.val) 4)

/-- 44_container.md R241 to R253, 60_exceptions.md R303: VALIDATE ends in ERROR with the code of the first failing
check of the listed order, or in GRID. The magic is read with a draw d and the header, as HDR.PARSE
reads it, with a draw e of the decode's own (log 8, 25). -/
def Obligations.ValidateReportsTheFirstFailingCheck : Prop :=
  ∀ s : State, s.phase = .validate → ∃ d e t, exec .validate s = .next t ∧
    let hdr := ({ s with draws := e } : State).parsedHeader
    let offset := hdr.mipOffsets[0].toNat
    let length := hdr.mipLengths[0].toNat
    let fails : BitVec 4 → Prop := fun code => t.phase = .error ∧ t.err = code
    (s.cfg.inCap < s.len.toNat → fails 9) ∧
    (s.len.toNat ≤ s.cfg.inCap →
      (s.len.toNat < 4 ∨ ¬ magicBytes { s with draws := d } → fails 1) ∧
      (4 ≤ s.len.toNat → magicBytes { s with draws := d } →
        (s.len.toNat < 1172 → fails 6) ∧
        (1172 ≤ s.len.toNat →
          t.hdr = hdr ∧
          (hdr.contentType ≠ 1 → fails 2) ∧
          (hdr.contentType = 1 →
            (hdr.compression ≠ 2 → fails 3) ∧
            (hdr.compression = 2 →
              (hdr.alphaKind ≠ 0 ∧ hdr.alphaKind ≠ 1 ∧ hdr.alphaKind ≠ 7 → fails 4) ∧
              (hdr.alphaKind = 0 ∨ hdr.alphaKind = 1 ∨ hdr.alphaKind = 7 →
                (offset = 0 ∨ length = 0 → fails 5) ∧
                (offset ≠ 0 → length ≠ 0 →
                  (s.len.toNat < offset + length → fails 6) ∧
                  (offset + length ≤ s.len.toNat →
                    let expected := (hdr.width.toNat + 3) / 4 * ((hdr.height.toNat + 3) / 4) *
                      (if hdr.alphaKind = 0 then 8 else 16)
                    (length ≠ expected → fails 6) ∧
                    (length = expected →
                      (s.cfg.outCap < hdr.width.toNat * hdr.height.toNat * 4 → fails 9) ∧
                      (hdr.width.toNat * hdr.height.toNat * 4 ≤ s.cfg.outCap →
                        t.phase = .grid ∧ t.err = s.err))))))))))

/-- 44_container.md R245, 10_state.md R34: the six header registers are latched once the capacity, magic and
header-length checks have passed, even if a later check fails, and not before. The magic is read with a draw d of the decode's own (log 8). -/
def Obligations.HeaderRegistersAreLatchedAfterTheLengthCheck : Prop :=
  ∀ s : State, s.phase = .validate → ∃ d t, exec .validate s = .next t ∧
    t.regs.fileLenLo = s.regs.fileLenLo ∧ t.regs.fileLenHi = s.regs.fileLenHi ∧
    (t.phase ≠ .grid → SameGeometryResults s.regs t.regs) ∧
    (s.cfg.inCap < s.len.toNat ∨ s.len.toNat < 1172 ∨ ¬ magicBytes { s with draws := d } →
      t.regs = s.regs ∧ t.hdr = s.hdr) ∧
    (s.len.toNat ≤ s.cfg.inCap → 1172 ≤ s.len.toNat → magicBytes { s with draws := d } →
      t.regs.width = t.hdr.width ∧ t.regs.height = t.hdr.height ∧ t.regs.contentType = t.hdr.contentType ∧
      t.regs.hdrBytes.toNat = t.hdr.hasMips.toNat * 2 ^ 24 + t.hdr.alphaKind.toNat * 2 ^ 16 +
        t.hdr.alphaDepth.toNat * 2 ^ 8 + t.hdr.compression.toNat ∧
      t.regs.mip0Offset = t.hdr.mipOffsets[0] ∧ t.regs.mip0Length = t.hdr.mipLengths[0])

/-- 44_container.md R253, 00_scope.md R6: what an accepted header latches, and the bounds that follow. -/
def Obligations.AcceptedHeaderLatchesTheGeometry : Prop :=
  ∀ s t : State, s.phase = .validate → exec .validate s = .next t → t.phase = .grid →
    t = { s with
      hdr := t.hdr, regs := t.regs, geom := t.geom, iterX := 0, iterY := 0, phase := .grid, draws := t.draws } ∧
    t.geom.variant = (if t.hdr.alphaKind = 0 then .dxt1 else if t.hdr.alphaKind = 1 then .dxt3 else .dxt5) ∧
    t.geom.blockBytes = (if t.hdr.alphaKind = 0 then 8 else 16) ∧
    t.geom.blocksX = (t.hdr.width.toNat + 3) / 4 ∧ t.geom.blocksY = (t.hdr.height.toNat + 3) / 4 ∧
    t.geom.base = t.hdr.mipOffsets[0] ∧ t.geom.w = t.hdr.width ∧ t.geom.h = t.hdr.height ∧
    t.regs.variant.toNat = (if t.hdr.alphaKind = 0 then 1 else if t.hdr.alphaKind = 1 then 2 else 3) ∧
    t.regs.blocksX.toNat = t.geom.blocksX ∧ t.regs.blocksY.toNat = t.geom.blocksY ∧
    t.regs.outLenHi.toNat * 2 ^ 32 + t.regs.outLenLo.toNat = t.hdr.width.toNat * t.hdr.height.toNat * 4 ∧
    0 < t.geom.blocksX * t.geom.blocksY ∧ t.geom.blocksX * t.geom.blocksY < 2 ^ 29 ∧
    t.hdr.width.toNat * t.hdr.height.toNat < 2 ^ 33 ∧ t.regs.outLenHi.toNat < 2 ^ 3 ∧
    GridInv t

/-- 60_exceptions.md R301: an error of VALIDATE changes err and phase, the header record and registers where they
were latched, and nothing else of the machine; VARIANT, BLOCKS and OUT_LEN stay as they were, 0 in a run; no OUT
byte is written. (draws, outBefore and outRaced are the
model's own.) -/
def Obligations.ErrorsArePrecise : Prop :=
  ∀ s t : State, s.phase = .validate → exec .validate s = .next t → t.phase = .error →
    t = { s with
      err := t.err, phase := .error, hdr := t.hdr, regs := t.regs
      draws := t.draws, outBefore := [], outRaced := [] } ∧
    t.err ∈ [1, 2, 3, 4, 5, 6, 9] ∧ SameGeometryResults s.regs t.regs ∧
    (RunInv s → SameGeometryResults Regs.reset t.regs) ∧
    ∀ a, t.readOut a = s.readOut a

/-- 44_container.md R254: two machines whose IN differs only in header bytes that do not influence a decode, or
beyond the header, validate alike, but for the registers and the record of the ignored fields. -/
def Obligations.IgnoredHeaderFieldsDoNotMatter : Prop :=
  ∀ (s : State) (m : Memory), s.phase = .validate →
    (∀ a, influentialHeaderByte a → m.lookup a = s.inMem.lookup a) →
    ∃ t u, exec .validate s = .next t ∧ exec .validate { s with inMem := m } = .next u ∧
      u.phase = t.phase ∧ u.err = t.err ∧ u.geom = t.geom ∧ u.iterX = t.iterX ∧ u.iterY = t.iterY ∧
      u.regs = { t.regs with hdrBytes := u.regs.hdrBytes } ∧ u.outMem = t.outMem

/-- 44_container.md R255, 70_reset_and_hazards.md R351: with no decode running DECODE is an accepted START followed
by CORE's own steps: one if it fails, 1 + blocks_x * blocks_y if it succeeds. While BUSY no START is accepted and
DECODE has no effect (log 12). HOST's WAIT reads STATUS and goes round while STATE = 1, and in a run it ends, with
STATE not BUSY (30_encoding.md R114; a turn of CORE between two of its reads is log 2 and 30). -/
def Obligations.DecodeIsItsSteps : Prop :=
  (∀ s : State, s.schedule = [] → s.busy = false → ∃ t n,
    exec .decode s = .next t ∧ Host.Core.run Sys2Proof.core n s.acceptStart = .next t ∧
    (t.phase = .error ∧ n = 1 ∨ t.phase = .done ∧ n = 1 + t.geom.blocksX * t.geom.blocksY)) ∧
  (∀ s : State, s.busy = true → exec .decode s = .next s) ∧
  (∀ (s : State) (rest : List Action), s.schedule = .wait :: rest →
    (s.busy = false → step s = .next { s with schedule := rest, ret := .word (s.readReg 0x04) }) ∧
    (s.busy = true → ∃ q, step s = .next { s with schedule := q, ret := .word (s.readReg 0x04) } ∧
      (rest.head? = some .core ∨ rest.head? = some .rst → ∃ x r, rest = x :: r ∧ q = x :: .wait :: r) ∧
      (rest.head? ≠ some .core → rest.head? ≠ some .rst → q = .core :: .wait :: rest))) ∧
  ∀ (s : State) (rest : List Action), RunInv s → s.schedule = .wait :: rest →
    rest.head? ≠ some .core → rest.head? ≠ some .rst → ∃ n t,
      Host.Core.run Sys2Proof.core n s = .next t ∧ t.schedule = rest ∧
      (t.phase = .idle ∨ t.phase = .done ∨ t.phase = .error) ∧ t.ret = .word (t.readReg 0x04)

/-- 43_block_grid.md R220, R221, 20_memory.md R71: a decode that validates, of blocks HOST has loaded, ends in DONE
with every image pixel taken from its block's tile and no byte written at or beyond OUT_LEN. -/
def Obligations.DecodeWritesTheImage : Prop :=
  ∀ s g : State, s.busy = false → exec .validate s.acceptStart = .next g → g.phase = .grid →
    (∀ a, g.geom.base.toNat ≤ a →
      a < g.geom.base.toNat + g.geom.blocksX * g.geom.blocksY * g.geom.blockBytes →
      (g.inMem.lookup a).isSome = true) →
    ∃ t, exec .decode s = .next t ∧ t.phase = .done ∧ t.err = 0 ∧ t.regs = g.regs ∧ t.inMem = s.inMem ∧
      (∀ (x y : Nat) (c : Fin 4), x < g.geom.w.toNat → y < g.geom.h.toNat →
        ∃ u, exec (blockDecoder g.geom.variant
            (g.geom.base.toNat + (y / 4 * g.geom.blocksX + x / 4) * g.geom.blockBytes)) g = .next u ∧
          t.readOut (4 * (y * g.geom.w.toNat + x) + c.val) = tileByte u.tile (tilePixel x y) c) ∧
      ∀ a, g.geom.w.toNat * g.geom.h.toNat * 4 ≤ a → t.readOut a = s.readOut a

/-! ## Reset and the hazards of OUT -/

/-- 10_state.md R46: after reset every register reads 0 and all internal state is 0; reset does not change IN, and
OUT only where it abandons a decode (70_reset_and_hazards.md R342). (The parameters and the model's own fields are
log 1, 8, 24.) -/
def Obligations.ResetValuesAreZero : Prop :=
  (∀ offset : Byte, State.reset.readReg offset = 0) ∧
  State.reset.phase = .idle ∧ State.reset.err = 0 ∧ State.reset.len = 0 ∧
  State.reset.hdr = ⟨Vector.replicate 4 0, 0, 0, 0, 0, 0, 0, 0, Vector.replicate 16 0, Vector.replicate 16 0,
    Vector.replicate 256 0⟩ ∧
  State.reset.geom = ⟨.none, 0, 0, 0, 0, 0, 0⟩ ∧ State.reset.iterX = 0 ∧ State.reset.iterY = 0 ∧
  State.reset.c0 = 0 ∧ State.reset.c1 = 0 ∧ State.reset.idxw = 0 ∧ State.reset.fourColor = false ∧
  State.reset.pal = Vector.replicate 4 ⟨0, 0, 0, 0⟩ ∧ State.reset.alpha64 = 0 ∧
  State.reset.a0 = 0 ∧ State.reset.a1 = 0 ∧ State.reset.eightAlpha = false ∧
  State.reset.alphaTab = Vector.replicate 8 0 ∧ State.reset.aidx48 = 0 ∧
  State.reset.tile = Vector.replicate 64 0 ∧
  ∀ s : State, act .rst s = .next s.rst ∧ s.rst.inMem = s.inMem ∧ (s.busy = false → s.rst.outMem = s.outMem)

/-- 70_reset_and_hazards.md R340, R341, R342: RST sets every piece of state to its reset value and leaves IN alone;
with no decode running it leaves OUT alone; of a running decode each OUT byte holds its value without the decode
or the decode's value, and a byte the decode does not write its value without it. (What is kept is log 24; the value
without the decode, HOST's where HOST wrote meanwhile, and the decode's are the model's choices of log 14 and 16.) -/
def Obligations.ResetInputRestoresTheResetState : Prop :=
  ∀ (s : State) (rest : List Action), s.schedule = .rst :: rest → ∃ t,
    step s = .next t ∧
    t = { State.reset with cfg := s.cfg, inMem := s.inMem, outMem := t.outMem, draws := t.draws, schedule := rest } ∧
    (s.busy = false → t.outMem = s.outMem) ∧
    (s.busy = true → RunInv s → ∀ a, t.readOut a = s.readBefore a ∨ s.decodedByte a = some (t.readOut a)) ∧
    (s.phase = .grid → ∀ a, t.readOut a = s.readBefore a ∨
      a < s.geom.outLen ∧ s.decodedByte a = some (t.readOut a))

/-- 20_memory.md R74 (d), 70_reset_and_hazards.md R347: while BUSY a HOST read of an OUT byte returns the byte the
decode writes or the byte without the decode, and nothing else of the spec's state changes; a byte the decode
does not write reads as it stands. The byte the decode writes is the block decoder's, it stays the same as long as
the decode runs, and CORE writes no other value to OUT but where HOST raced (log 8, 14, 15). -/
def Obligations.OutReadWhileBusyIsOldOrNew : Prop :=
  (∀ (s : State) (rest : List Action) (a : Nat),
    s.schedule = .outRead a :: rest → a < s.cfg.outCap → ∃ t w,
      step s = .next t ∧ t = { s with schedule := rest, ret := .byte w, draws := t.draws } ∧
      (s.decodedByte a = none → w = s.readOut a) ∧
      (∀ v, s.decodedByte a = some v → w = v ∨ w = s.readBefore a) ∧
      (s.phase = .grid → s.geom.outLen ≤ a → w = s.readOut a)) ∧
  (∀ (s : State) (x y : Nat) (c : Fin 4), s.phase = .grid → GridInv s →
    x < s.geom.w.toNat → y < s.geom.h.toNat → ∃ d u,
      exec (blockDecoder s.geom.variant
        (s.geom.base.toNat + (y / 4 * s.geom.blocksX + x / 4) * s.geom.blockBytes)) { s with draws := d } = .next u ∧
      s.decodedByte (4 * (y * s.geom.w.toNat + x) + c.val) = some (tileByte u.tile (tilePixel x y) c)) ∧
  (∀ (s : State) (a : Nat), s.phase = .grid → s.geom.w.toNat * s.geom.h.toNat * 4 ≤ a → s.decodedByte a = none) ∧
  (∀ s t : State, RunInv s → step s = .next t → s.busy = true → t.busy = true →
    ∀ a, t.decodedByte a = s.decodedByte a) ∧
  ∀ s t : State, s.phase = .grid → GridInv s → exec .gridStep s = .next t → ∀ a,
    t.readOut a = s.readOut a ∨ s.decodedByte a = some (t.readOut a) ∨
      a ∈ s.outRaced ∧ t.phase = .done ∧ t.readOut a = s.readBefore a

/-- 70_reset_and_hazards.md R347: a HOST write of an OUT byte while BUSY is taken; when the decode ends in DONE,
every byte holds the decode's value or, where HOST wrote it meanwhile, that or HOST's. -/
def Obligations.OutWriteWhileBusyRaces : Prop :=
  (∀ (s : State) (rest : List Action) (a : Nat) (v : Byte),
    s.schedule = .outWrite a v :: rest → s.busy = true → a < s.cfg.outCap → ∃ t,
      step s = .next t ∧
      t = { s with schedule := rest, outMem := t.outMem, outBefore := t.outBefore, outRaced := t.outRaced } ∧
      t.readBefore a = v ∧ t.outRaced = a :: s.outRaced ∧
      (s.phase = .validate → t.readOut a = v) ∧
      (s.phase = .grid → s.geom.outLen ≤ a → t.readOut a = v) ∧
      (s.phase = .grid → a < s.geom.outLen → t.readOut a = s.readOut a) ∧
      ∀ b, b ≠ a → t.readBefore b = s.readBefore b ∧ t.readOut b = s.readOut b) ∧
  (∀ s u t : State, s.phase = .grid → GridInv s → exec .gridStep s = .next t → t.phase = .done →
    exec (.tileCopy s.iterX s.iterY) (s.gridBlock s.iterX s.iterY) = .next u →
    ∀ a, t.readOut a = u.readOut a ∨
      a ∈ s.outRaced ∧ a < s.geom.outLen ∧ t.readOut a = s.readBefore a)

/-- 45_host_interface.md R276, 20_memory.md R61, R62: what lies at or beyond a capacity does not exist; an operation
that would read or copy there, a HOST access while BUSY too, and a block step with no variant stop by name (log 10, 19); a
BUSY write there faults before the hazard is looked at (log 17). An invocation that decodes to nothing is refused
(30_encoding.md R110, R111; log 29). -/
def Obligations.AbsentAddressesStopByName : Prop :=
  (∀ (s : State) (i : Instr) (a k : Nat), s.cfg.inCap < a + k →
    (k ∈ [1, 2, 4, 6, 8] ∧ i = .leRead a k ∨
      k = 8 ∧ (i = .cendRead a ∨ i = .decColor a ∨ i = .decAlpha3 a ∨ i = .aendRead a ∨ i = .decAlpha5 a ∨
        i = .decDxt1 a ∨ ∃ p, i = .anibUnpack a p) ∨
      k = 16 ∧ (i = .decDxt3 a ∨ i = .decDxt5 a) ∨
      a = 0 ∧ k = 1172 ∧ i = .hdrParse) →
    exec i s = .fault .noSuchInAddress) ∧
  (∀ (s : State) (rest : List Action) (a : Nat) (v : Byte),
    (s.cfg.inCap ≤ a → s.schedule = .inWrite a v :: rest ∨ s.schedule = .inRead a :: rest →
      step s = .fault .noSuchInAddress) ∧
    (s.cfg.outCap ≤ a → s.schedule = .outWrite a v :: rest ∨ s.schedule = .outRead a :: rest →
      step s = .fault .noSuchOutAddress)) ∧
  (∀ (s : State) (cx cy : Nat),
    (∃ px py : Fin 4, 4 * cx + px.val < s.geom.w.toNat ∧ 4 * cy + py.val < s.geom.h.toNat ∧
      s.cfg.outCap ≤ 4 * ((4 * cy + py.val) * s.geom.w.toNat + (4 * cx + px.val)) + 3) →
    exec (.tileCopy cx cy) s = .fault .noSuchOutAddress) ∧
  (∀ s : State, s.phase = .grid → s.geom.variant = .none → exec .gridStep s = .fault .noVariant) ∧
  ∀ (s : State) (c : Code) (rest : List Action) (e : DecodeError),
    s.schedule = .invoke c :: rest → decode c = .error e → step s = .refused .undecodable

/-! ## Invariants and whole-machine rules -/

/-- The reset state meets the invariant of a run. -/
def Obligations.ResetMeetsTheRunInvariant : Prop := RunInv State.reset

/-- Every step keeps the invariant of the machine, whatever the schedule holds: the memories stay canonical and
inside their capacities, ERR stays a listed code of its phase (10_state.md R24), the parameters stay legal. -/
def Obligations.StepKeepsTheInvariant : Prop :=
  ∀ s t : State, Inv s → step s = .next t → Inv t ∧ t.cfg = s.cfg

/-- Every step of the hardware keeps the invariant of a run: a decode in GRID has a legal geometry, its blocks lie
in IN below len, its image in OUT, its iterator in the grid (20_memory.md R72, 10_state.md R39, R71). -/
def Obligations.StepKeepsTheRunInvariant : Prop :=
  ∀ s t : State, RunInv s → step s = .next t → RunInv t

/-- 20_memory.md R72, 60_exceptions.md R300: in a run no step of CORE stops, and a step of HOST or the platform
stops only at an address that does not exist (45_host_interface.md R276) or by the input hazard (R346). -/
def Obligations.RunsStopOnlyByTheHost : Prop :=
  ∀ s : State, RunInv s →
    (∃ t, coreStep s = .next t) ∧
    ((∃ t, step s = .next t) ∨
      (∃ (a : Nat) (rest : List Action),
        (∃ v, s.schedule = .inWrite a v :: rest ∧ (s.cfg.inCap ≤ a ∨ s.busy = true ∧ a < s.len.toNat)) ∨
        (s.schedule = .inRead a :: rest ∧ s.cfg.inCap ≤ a) ∨
        (∃ v, s.schedule = .outWrite a v :: rest ∧ s.cfg.outCap ≤ a) ∨
        (s.schedule = .outRead a :: rest ∧ s.cfg.outCap ≤ a)))

/-- 10_state.md R35: in a run `phase` moves only as listed: to IDLE on reset, to VALIDATE on an accepted START, from
VALIDATE and GRID by CORE's steps. -/
def Obligations.PhaseMovesOnlyAsListed : Prop :=
  ∀ s t : State, RunInv s → step s = .next t →
    t.phase = s.phase ∨
    (t.phase = .idle ∧ ∃ rest, s.schedule = .rst :: rest) ∨
    ((s.phase = .idle ∨ s.phase = .done ∨ s.phase = .error) ∧ t.phase = .validate ∧
      ∃ c rest data, s.schedule = .invoke c :: rest ∧ decode c = .ok (.wrCtrl data) ∧ data.toNat % 2 = 1) ∨
    ((s.schedule = [] ∨ ∃ rest, s.schedule = .core :: rest) ∧
      (s.phase = .validate ∧ (t.phase = .error ∨ t.phase = .grid) ∨ s.phase = .grid ∧ t.phase = .done))

/-- 10_state.md R34, R25: of the operations only WR.CTRL, VALIDATE and DECODE change the result registers, and only
WR.FLEN_LO and WR.FLEN_HI change FILE_LEN. -/
def Obligations.RegistersChangeOnlyByTheirOperations : Prop :=
  ∀ (i : Instr) (s t : State), exec i s = .next t →
    ((∀ data, i ≠ .wrCtrl data) → i ≠ .validate → i ≠ .decode → SameResults s.regs t.regs) ∧
    ((∀ data, i ≠ .wrFlenLo data) → t.regs.fileLenLo = s.regs.fileLenLo) ∧
    ((∀ data, i ≠ .wrFlenHi data) → t.regs.fileLenHi = s.regs.fileLenHi)

/-- 20_memory.md R61, R62, R71: no operation writes IN; only TILE.COPY, GRID.STEP and DECODE write OUT. No operation
touches the schedule or the parameters. -/
def Obligations.OnlyTheCopyWritesOut : Prop :=
  ∀ (i : Instr) (s t : State), exec i s = .next t →
    t.inMem = s.inMem ∧ t.schedule = s.schedule ∧ t.cfg = s.cfg ∧
    ((∀ cx cy, i ≠ .tileCopy cx cy) → i ≠ .gridStep → i ≠ .decode → t.outMem = s.outMem)

/-- 10_state.md R44: four_color is written only by the colour block decoder and what runs it, eight_alpha only by
the DXT5 alpha decoder and what runs it. -/
def Obligations.FlagsChangeOnlyByTheirDecoders : Prop :=
  ∀ (i : Instr) (s t : State), exec i s = .next t → i ≠ .gridStep → i ≠ .decode →
    ((∀ b, i ≠ .decColor b ∧ i ≠ .decDxt1 b ∧ i ≠ .decDxt3 b ∧ i ≠ .decDxt5 b) → t.fourColor = s.fourColor) ∧
    ((∀ b, i ≠ .decAlpha5 b ∧ i ≠ .decDxt5 b) → t.eightAlpha = s.eightAlpha)

/-- 20_memory.md R75, 00_scope.md R5: the number of block lanes is not observable: a step with another number does
the same. -/
def Obligations.LanesAreNotObservable : Prop :=
  ∀ (s : State) (n : Nat), step (s.withLanes n) = mapNext (fun t => t.withLanes n) (step s)
end

