-- ==== Sys2Proof/Laws/State.lean ====
section
/-! SUPPORT. The fields each named update of State leaves alone, and the ones it writes: one lemma per field per
update, so that no later proof unfolds an update. -/

namespace Sys2Proof.Machine

variable (s : State)

/-! ### tick -/

@[simp] theorem State.tick_cfg : (s.tick).cfg = s.cfg := rfl
@[simp] theorem State.tick_regs : (s.tick).regs = s.regs := rfl
@[simp] theorem State.tick_phase : (s.tick).phase = s.phase := rfl
@[simp] theorem State.tick_err : (s.tick).err = s.err := rfl
@[simp] theorem State.tick_len : (s.tick).len = s.len := rfl
@[simp] theorem State.tick_hdr : (s.tick).hdr = s.hdr := rfl
@[simp] theorem State.tick_geom : (s.tick).geom = s.geom := rfl
@[simp] theorem State.tick_iterX : (s.tick).iterX = s.iterX := rfl
@[simp] theorem State.tick_iterY : (s.tick).iterY = s.iterY := rfl
@[simp] theorem State.tick_c0 : (s.tick).c0 = s.c0 := rfl
@[simp] theorem State.tick_c1 : (s.tick).c1 = s.c1 := rfl
@[simp] theorem State.tick_idxw : (s.tick).idxw = s.idxw := rfl
@[simp] theorem State.tick_fourColor : (s.tick).fourColor = s.fourColor := rfl
@[simp] theorem State.tick_pal : (s.tick).pal = s.pal := rfl
@[simp] theorem State.tick_alpha64 : (s.tick).alpha64 = s.alpha64 := rfl
@[simp] theorem State.tick_a0 : (s.tick).a0 = s.a0 := rfl
@[simp] theorem State.tick_a1 : (s.tick).a1 = s.a1 := rfl
@[simp] theorem State.tick_eightAlpha : (s.tick).eightAlpha = s.eightAlpha := rfl
@[simp] theorem State.tick_alphaTab : (s.tick).alphaTab = s.alphaTab := rfl
@[simp] theorem State.tick_aidx48 : (s.tick).aidx48 = s.aidx48 := rfl
@[simp] theorem State.tick_tile : (s.tick).tile = s.tile := rfl
@[simp] theorem State.tick_inMem : (s.tick).inMem = s.inMem := rfl
@[simp] theorem State.tick_outMem : (s.tick).outMem = s.outMem := rfl
@[simp] theorem State.tick_outBefore : (s.tick).outBefore = s.outBefore := rfl
@[simp] theorem State.tick_outRaced : (s.tick).outRaced = s.outRaced := rfl
@[simp] theorem State.tick_draws : (s.tick).draws = s.draws + 1 := rfl
@[simp] theorem State.tick_decodeDraws : (s.tick).decodeDraws = s.decodeDraws := rfl
@[simp] theorem State.tick_ret : (s.tick).ret = s.ret := rfl
@[simp] theorem State.tick_schedule : (s.tick).schedule = s.schedule := rfl

/-! ### atReading -/

@[simp] theorem State.atReading_cfg (k : Nat) : (s.atReading k).cfg = s.cfg := rfl
@[simp] theorem State.atReading_regs (k : Nat) : (s.atReading k).regs = s.regs := rfl
@[simp] theorem State.atReading_phase (k : Nat) : (s.atReading k).phase = s.phase := rfl
@[simp] theorem State.atReading_err (k : Nat) : (s.atReading k).err = s.err := rfl
@[simp] theorem State.atReading_len (k : Nat) : (s.atReading k).len = s.len := rfl
@[simp] theorem State.atReading_hdr (k : Nat) : (s.atReading k).hdr = s.hdr := rfl
@[simp] theorem State.atReading_geom (k : Nat) : (s.atReading k).geom = s.geom := rfl
@[simp] theorem State.atReading_iterX (k : Nat) : (s.atReading k).iterX = s.iterX := rfl
@[simp] theorem State.atReading_iterY (k : Nat) : (s.atReading k).iterY = s.iterY := rfl
@[simp] theorem State.atReading_c0 (k : Nat) : (s.atReading k).c0 = s.c0 := rfl
@[simp] theorem State.atReading_c1 (k : Nat) : (s.atReading k).c1 = s.c1 := rfl
@[simp] theorem State.atReading_idxw (k : Nat) : (s.atReading k).idxw = s.idxw := rfl
@[simp] theorem State.atReading_fourColor (k : Nat) : (s.atReading k).fourColor = s.fourColor := rfl
@[simp] theorem State.atReading_pal (k : Nat) : (s.atReading k).pal = s.pal := rfl
@[simp] theorem State.atReading_alpha64 (k : Nat) : (s.atReading k).alpha64 = s.alpha64 := rfl
@[simp] theorem State.atReading_a0 (k : Nat) : (s.atReading k).a0 = s.a0 := rfl
@[simp] theorem State.atReading_a1 (k : Nat) : (s.atReading k).a1 = s.a1 := rfl
@[simp] theorem State.atReading_eightAlpha (k : Nat) : (s.atReading k).eightAlpha = s.eightAlpha := rfl
@[simp] theorem State.atReading_alphaTab (k : Nat) : (s.atReading k).alphaTab = s.alphaTab := rfl
@[simp] theorem State.atReading_aidx48 (k : Nat) : (s.atReading k).aidx48 = s.aidx48 := rfl
@[simp] theorem State.atReading_tile (k : Nat) : (s.atReading k).tile = s.tile := rfl
@[simp] theorem State.atReading_inMem (k : Nat) : (s.atReading k).inMem = s.inMem := rfl
@[simp] theorem State.atReading_outMem (k : Nat) : (s.atReading k).outMem = s.outMem := rfl
@[simp] theorem State.atReading_outBefore (k : Nat) : (s.atReading k).outBefore = s.outBefore := rfl
@[simp] theorem State.atReading_outRaced (k : Nat) : (s.atReading k).outRaced = s.outRaced := rfl
@[simp] theorem State.atReading_draws (k : Nat) : (s.atReading k).draws = s.decodeDraws + k := rfl
@[simp] theorem State.atReading_decodeDraws (k : Nat) : (s.atReading k).decodeDraws = s.decodeDraws := rfl
@[simp] theorem State.atReading_ret (k : Nat) : (s.atReading k).ret = s.ret := rfl
@[simp] theorem State.atReading_schedule (k : Nat) : (s.atReading k).schedule = s.schedule := rfl

/-! ### raise -/

@[simp] theorem State.raise_cfg (e : ErrorKind) : (s.raise e).cfg = s.cfg := rfl
@[simp] theorem State.raise_regs (e : ErrorKind) : (s.raise e).regs = s.regs := rfl
@[simp] theorem State.raise_phase (e : ErrorKind) : (s.raise e).phase = .error := rfl
@[simp] theorem State.raise_err (e : ErrorKind) : (s.raise e).err = errorCode e := rfl
@[simp] theorem State.raise_len (e : ErrorKind) : (s.raise e).len = s.len := rfl
@[simp] theorem State.raise_hdr (e : ErrorKind) : (s.raise e).hdr = s.hdr := rfl
@[simp] theorem State.raise_geom (e : ErrorKind) : (s.raise e).geom = s.geom := rfl
@[simp] theorem State.raise_iterX (e : ErrorKind) : (s.raise e).iterX = s.iterX := rfl
@[simp] theorem State.raise_iterY (e : ErrorKind) : (s.raise e).iterY = s.iterY := rfl
@[simp] theorem State.raise_c0 (e : ErrorKind) : (s.raise e).c0 = s.c0 := rfl
@[simp] theorem State.raise_c1 (e : ErrorKind) : (s.raise e).c1 = s.c1 := rfl
@[simp] theorem State.raise_idxw (e : ErrorKind) : (s.raise e).idxw = s.idxw := rfl
@[simp] theorem State.raise_fourColor (e : ErrorKind) : (s.raise e).fourColor = s.fourColor := rfl
@[simp] theorem State.raise_pal (e : ErrorKind) : (s.raise e).pal = s.pal := rfl
@[simp] theorem State.raise_alpha64 (e : ErrorKind) : (s.raise e).alpha64 = s.alpha64 := rfl
@[simp] theorem State.raise_a0 (e : ErrorKind) : (s.raise e).a0 = s.a0 := rfl
@[simp] theorem State.raise_a1 (e : ErrorKind) : (s.raise e).a1 = s.a1 := rfl
@[simp] theorem State.raise_eightAlpha (e : ErrorKind) : (s.raise e).eightAlpha = s.eightAlpha := rfl
@[simp] theorem State.raise_alphaTab (e : ErrorKind) : (s.raise e).alphaTab = s.alphaTab := rfl
@[simp] theorem State.raise_aidx48 (e : ErrorKind) : (s.raise e).aidx48 = s.aidx48 := rfl
@[simp] theorem State.raise_tile (e : ErrorKind) : (s.raise e).tile = s.tile := rfl
@[simp] theorem State.raise_inMem (e : ErrorKind) : (s.raise e).inMem = s.inMem := rfl
@[simp] theorem State.raise_outMem (e : ErrorKind) : (s.raise e).outMem = s.outMem := rfl
@[simp] theorem State.raise_outBefore (e : ErrorKind) : (s.raise e).outBefore = [] := rfl
@[simp] theorem State.raise_outRaced (e : ErrorKind) : (s.raise e).outRaced = [] := rfl
@[simp] theorem State.raise_draws (e : ErrorKind) : (s.raise e).draws = s.draws := rfl
@[simp] theorem State.raise_decodeDraws (e : ErrorKind) : (s.raise e).decodeDraws = s.decodeDraws := rfl
@[simp] theorem State.raise_ret (e : ErrorKind) : (s.raise e).ret = s.ret := rfl
@[simp] theorem State.raise_schedule (e : ErrorKind) : (s.raise e).schedule = s.schedule := rfl

/-! ### acceptStart -/

@[simp] theorem State.acceptStart_cfg : (s.acceptStart).cfg = s.cfg := rfl
@[simp] theorem State.acceptStart_phase : (s.acceptStart).phase = .validate := rfl
@[simp] theorem State.acceptStart_err : (s.acceptStart).err = 0 := rfl
@[simp] theorem State.acceptStart_len : (s.acceptStart).len = s.fileLen := rfl
@[simp] theorem State.acceptStart_hdr : (s.acceptStart).hdr = s.hdr := rfl
@[simp] theorem State.acceptStart_geom : (s.acceptStart).geom = s.geom := rfl
@[simp] theorem State.acceptStart_iterX : (s.acceptStart).iterX = s.iterX := rfl
@[simp] theorem State.acceptStart_iterY : (s.acceptStart).iterY = s.iterY := rfl
@[simp] theorem State.acceptStart_c0 : (s.acceptStart).c0 = s.c0 := rfl
@[simp] theorem State.acceptStart_c1 : (s.acceptStart).c1 = s.c1 := rfl
@[simp] theorem State.acceptStart_idxw : (s.acceptStart).idxw = s.idxw := rfl
@[simp] theorem State.acceptStart_fourColor : (s.acceptStart).fourColor = s.fourColor := rfl
@[simp] theorem State.acceptStart_pal : (s.acceptStart).pal = s.pal := rfl
@[simp] theorem State.acceptStart_alpha64 : (s.acceptStart).alpha64 = s.alpha64 := rfl
@[simp] theorem State.acceptStart_a0 : (s.acceptStart).a0 = s.a0 := rfl
@[simp] theorem State.acceptStart_a1 : (s.acceptStart).a1 = s.a1 := rfl
@[simp] theorem State.acceptStart_eightAlpha : (s.acceptStart).eightAlpha = s.eightAlpha := rfl
@[simp] theorem State.acceptStart_alphaTab : (s.acceptStart).alphaTab = s.alphaTab := rfl
@[simp] theorem State.acceptStart_aidx48 : (s.acceptStart).aidx48 = s.aidx48 := rfl
@[simp] theorem State.acceptStart_tile : (s.acceptStart).tile = s.tile := rfl
@[simp] theorem State.acceptStart_inMem : (s.acceptStart).inMem = s.inMem := rfl
@[simp] theorem State.acceptStart_outMem : (s.acceptStart).outMem = s.outMem := rfl
@[simp] theorem State.acceptStart_outBefore : (s.acceptStart).outBefore = s.outMem := rfl
@[simp] theorem State.acceptStart_outRaced : (s.acceptStart).outRaced = [] := rfl
@[simp] theorem State.acceptStart_draws : (s.acceptStart).draws = s.draws + decodeReadings := rfl
@[simp] theorem State.acceptStart_decodeDraws : (s.acceptStart).decodeDraws = s.draws := rfl
@[simp] theorem State.acceptStart_ret : (s.acceptStart).ret = s.ret := rfl
@[simp] theorem State.acceptStart_schedule : (s.acceptStart).schedule = s.schedule := rfl

/-! ### setFourColour -/

@[simp] theorem State.setFourColour_cfg : (s.setFourColour).cfg = s.cfg := rfl
@[simp] theorem State.setFourColour_regs : (s.setFourColour).regs = s.regs := rfl
@[simp] theorem State.setFourColour_phase : (s.setFourColour).phase = s.phase := rfl
@[simp] theorem State.setFourColour_err : (s.setFourColour).err = s.err := rfl
@[simp] theorem State.setFourColour_len : (s.setFourColour).len = s.len := rfl
@[simp] theorem State.setFourColour_hdr : (s.setFourColour).hdr = s.hdr := rfl
@[simp] theorem State.setFourColour_geom : (s.setFourColour).geom = s.geom := rfl
@[simp] theorem State.setFourColour_iterX : (s.setFourColour).iterX = s.iterX := rfl
@[simp] theorem State.setFourColour_iterY : (s.setFourColour).iterY = s.iterY := rfl
@[simp] theorem State.setFourColour_c0 : (s.setFourColour).c0 = s.c0 := rfl
@[simp] theorem State.setFourColour_c1 : (s.setFourColour).c1 = s.c1 := rfl
@[simp] theorem State.setFourColour_idxw : (s.setFourColour).idxw = s.idxw := rfl
@[simp] theorem State.setFourColour_fourColor : (s.setFourColour).fourColor = isFourColour s.c0 s.c1 := rfl
@[simp] theorem State.setFourColour_pal : (s.setFourColour).pal = s.pal := rfl
@[simp] theorem State.setFourColour_alpha64 : (s.setFourColour).alpha64 = s.alpha64 := rfl
@[simp] theorem State.setFourColour_a0 : (s.setFourColour).a0 = s.a0 := rfl
@[simp] theorem State.setFourColour_a1 : (s.setFourColour).a1 = s.a1 := rfl
@[simp] theorem State.setFourColour_eightAlpha : (s.setFourColour).eightAlpha = s.eightAlpha := rfl
@[simp] theorem State.setFourColour_alphaTab : (s.setFourColour).alphaTab = s.alphaTab := rfl
@[simp] theorem State.setFourColour_aidx48 : (s.setFourColour).aidx48 = s.aidx48 := rfl
@[simp] theorem State.setFourColour_tile : (s.setFourColour).tile = s.tile := rfl
@[simp] theorem State.setFourColour_inMem : (s.setFourColour).inMem = s.inMem := rfl
@[simp] theorem State.setFourColour_outMem : (s.setFourColour).outMem = s.outMem := rfl
@[simp] theorem State.setFourColour_outBefore : (s.setFourColour).outBefore = s.outBefore := rfl
@[simp] theorem State.setFourColour_outRaced : (s.setFourColour).outRaced = s.outRaced := rfl
@[simp] theorem State.setFourColour_draws : (s.setFourColour).draws = s.draws := rfl
@[simp] theorem State.setFourColour_decodeDraws : (s.setFourColour).decodeDraws = s.decodeDraws := rfl
@[simp] theorem State.setFourColour_ret : (s.setFourColour).ret = s.ret := rfl
@[simp] theorem State.setFourColour_schedule : (s.setFourColour).schedule = s.schedule := rfl

/-! ### setEightAlpha -/

@[simp] theorem State.setEightAlpha_cfg : (s.setEightAlpha).cfg = s.cfg := rfl
@[simp] theorem State.setEightAlpha_regs : (s.setEightAlpha).regs = s.regs := rfl
@[simp] theorem State.setEightAlpha_phase : (s.setEightAlpha).phase = s.phase := rfl
@[simp] theorem State.setEightAlpha_err : (s.setEightAlpha).err = s.err := rfl
@[simp] theorem State.setEightAlpha_len : (s.setEightAlpha).len = s.len := rfl
@[simp] theorem State.setEightAlpha_hdr : (s.setEightAlpha).hdr = s.hdr := rfl
@[simp] theorem State.setEightAlpha_geom : (s.setEightAlpha).geom = s.geom := rfl
@[simp] theorem State.setEightAlpha_iterX : (s.setEightAlpha).iterX = s.iterX := rfl
@[simp] theorem State.setEightAlpha_iterY : (s.setEightAlpha).iterY = s.iterY := rfl
@[simp] theorem State.setEightAlpha_c0 : (s.setEightAlpha).c0 = s.c0 := rfl
@[simp] theorem State.setEightAlpha_c1 : (s.setEightAlpha).c1 = s.c1 := rfl
@[simp] theorem State.setEightAlpha_idxw : (s.setEightAlpha).idxw = s.idxw := rfl
@[simp] theorem State.setEightAlpha_fourColor : (s.setEightAlpha).fourColor = s.fourColor := rfl
@[simp] theorem State.setEightAlpha_pal : (s.setEightAlpha).pal = s.pal := rfl
@[simp] theorem State.setEightAlpha_alpha64 : (s.setEightAlpha).alpha64 = s.alpha64 := rfl
@[simp] theorem State.setEightAlpha_a0 : (s.setEightAlpha).a0 = s.a0 := rfl
@[simp] theorem State.setEightAlpha_a1 : (s.setEightAlpha).a1 = s.a1 := rfl
@[simp] theorem State.setEightAlpha_eightAlpha : (s.setEightAlpha).eightAlpha = isEightAlpha s.a0 s.a1 := rfl
@[simp] theorem State.setEightAlpha_alphaTab : (s.setEightAlpha).alphaTab = s.alphaTab := rfl
@[simp] theorem State.setEightAlpha_aidx48 : (s.setEightAlpha).aidx48 = s.aidx48 := rfl
@[simp] theorem State.setEightAlpha_tile : (s.setEightAlpha).tile = s.tile := rfl
@[simp] theorem State.setEightAlpha_inMem : (s.setEightAlpha).inMem = s.inMem := rfl
@[simp] theorem State.setEightAlpha_outMem : (s.setEightAlpha).outMem = s.outMem := rfl
@[simp] theorem State.setEightAlpha_outBefore : (s.setEightAlpha).outBefore = s.outBefore := rfl
@[simp] theorem State.setEightAlpha_outRaced : (s.setEightAlpha).outRaced = s.outRaced := rfl
@[simp] theorem State.setEightAlpha_draws : (s.setEightAlpha).draws = s.draws := rfl
@[simp] theorem State.setEightAlpha_decodeDraws : (s.setEightAlpha).decodeDraws = s.decodeDraws := rfl
@[simp] theorem State.setEightAlpha_ret : (s.setEightAlpha).ret = s.ret := rfl
@[simp] theorem State.setEightAlpha_schedule : (s.setEightAlpha).schedule = s.schedule := rfl

/-! ### readEndpoints -/

@[simp] theorem State.readEndpoints_cfg (b : Nat) : (s.readEndpoints b).cfg = s.cfg := by simp only [State.readEndpoints]
@[simp] theorem State.readEndpoints_regs (b : Nat) : (s.readEndpoints b).regs = s.regs := by simp only [State.readEndpoints]
@[simp] theorem State.readEndpoints_phase (b : Nat) : (s.readEndpoints b).phase = s.phase := by simp only [State.readEndpoints]
@[simp] theorem State.readEndpoints_err (b : Nat) : (s.readEndpoints b).err = s.err := by simp only [State.readEndpoints]
@[simp] theorem State.readEndpoints_len (b : Nat) : (s.readEndpoints b).len = s.len := by simp only [State.readEndpoints]
@[simp] theorem State.readEndpoints_hdr (b : Nat) : (s.readEndpoints b).hdr = s.hdr := by simp only [State.readEndpoints]
@[simp] theorem State.readEndpoints_geom (b : Nat) : (s.readEndpoints b).geom = s.geom := by simp only [State.readEndpoints]
@[simp] theorem State.readEndpoints_iterX (b : Nat) : (s.readEndpoints b).iterX = s.iterX := by simp only [State.readEndpoints]
@[simp] theorem State.readEndpoints_iterY (b : Nat) : (s.readEndpoints b).iterY = s.iterY := by simp only [State.readEndpoints]
@[simp] theorem State.readEndpoints_fourColor (b : Nat) : (s.readEndpoints b).fourColor = s.fourColor := by simp only [State.readEndpoints]
@[simp] theorem State.readEndpoints_pal (b : Nat) : (s.readEndpoints b).pal = s.pal := by simp only [State.readEndpoints]
@[simp] theorem State.readEndpoints_alpha64 (b : Nat) : (s.readEndpoints b).alpha64 = s.alpha64 := by simp only [State.readEndpoints]
@[simp] theorem State.readEndpoints_a0 (b : Nat) : (s.readEndpoints b).a0 = s.a0 := by simp only [State.readEndpoints]
@[simp] theorem State.readEndpoints_a1 (b : Nat) : (s.readEndpoints b).a1 = s.a1 := by simp only [State.readEndpoints]
@[simp] theorem State.readEndpoints_eightAlpha (b : Nat) : (s.readEndpoints b).eightAlpha = s.eightAlpha := by simp only [State.readEndpoints]
@[simp] theorem State.readEndpoints_alphaTab (b : Nat) : (s.readEndpoints b).alphaTab = s.alphaTab := by simp only [State.readEndpoints]
@[simp] theorem State.readEndpoints_aidx48 (b : Nat) : (s.readEndpoints b).aidx48 = s.aidx48 := by simp only [State.readEndpoints]
@[simp] theorem State.readEndpoints_tile (b : Nat) : (s.readEndpoints b).tile = s.tile := by simp only [State.readEndpoints]
@[simp] theorem State.readEndpoints_inMem (b : Nat) : (s.readEndpoints b).inMem = s.inMem := by simp only [State.readEndpoints]
@[simp] theorem State.readEndpoints_outMem (b : Nat) : (s.readEndpoints b).outMem = s.outMem := by simp only [State.readEndpoints]
@[simp] theorem State.readEndpoints_outBefore (b : Nat) : (s.readEndpoints b).outBefore = s.outBefore := by simp only [State.readEndpoints]
@[simp] theorem State.readEndpoints_outRaced (b : Nat) : (s.readEndpoints b).outRaced = s.outRaced := by simp only [State.readEndpoints]
@[simp] theorem State.readEndpoints_draws (b : Nat) : (s.readEndpoints b).draws = s.draws + 1 := by simp only [State.readEndpoints]
@[simp] theorem State.readEndpoints_decodeDraws (b : Nat) : (s.readEndpoints b).decodeDraws = s.decodeDraws := by simp only [State.readEndpoints]
@[simp] theorem State.readEndpoints_ret (b : Nat) : (s.readEndpoints b).ret = s.ret := by simp only [State.readEndpoints]
@[simp] theorem State.readEndpoints_schedule (b : Nat) : (s.readEndpoints b).schedule = s.schedule := by simp only [State.readEndpoints]

/-! ### setSlots01 -/

@[simp] theorem State.setSlots01_cfg (x y : Endpoint) : (s.setSlots01 x y).cfg = s.cfg := rfl
@[simp] theorem State.setSlots01_regs (x y : Endpoint) : (s.setSlots01 x y).regs = s.regs := rfl
@[simp] theorem State.setSlots01_phase (x y : Endpoint) : (s.setSlots01 x y).phase = s.phase := rfl
@[simp] theorem State.setSlots01_err (x y : Endpoint) : (s.setSlots01 x y).err = s.err := rfl
@[simp] theorem State.setSlots01_len (x y : Endpoint) : (s.setSlots01 x y).len = s.len := rfl
@[simp] theorem State.setSlots01_hdr (x y : Endpoint) : (s.setSlots01 x y).hdr = s.hdr := rfl
@[simp] theorem State.setSlots01_geom (x y : Endpoint) : (s.setSlots01 x y).geom = s.geom := rfl
@[simp] theorem State.setSlots01_iterX (x y : Endpoint) : (s.setSlots01 x y).iterX = s.iterX := rfl
@[simp] theorem State.setSlots01_iterY (x y : Endpoint) : (s.setSlots01 x y).iterY = s.iterY := rfl
@[simp] theorem State.setSlots01_c0 (x y : Endpoint) : (s.setSlots01 x y).c0 = s.c0 := rfl
@[simp] theorem State.setSlots01_c1 (x y : Endpoint) : (s.setSlots01 x y).c1 = s.c1 := rfl
@[simp] theorem State.setSlots01_idxw (x y : Endpoint) : (s.setSlots01 x y).idxw = s.idxw := rfl
@[simp] theorem State.setSlots01_fourColor (x y : Endpoint) : (s.setSlots01 x y).fourColor = s.fourColor := rfl
@[simp] theorem State.setSlots01_alpha64 (x y : Endpoint) : (s.setSlots01 x y).alpha64 = s.alpha64 := rfl
@[simp] theorem State.setSlots01_a0 (x y : Endpoint) : (s.setSlots01 x y).a0 = s.a0 := rfl
@[simp] theorem State.setSlots01_a1 (x y : Endpoint) : (s.setSlots01 x y).a1 = s.a1 := rfl
@[simp] theorem State.setSlots01_eightAlpha (x y : Endpoint) : (s.setSlots01 x y).eightAlpha = s.eightAlpha := rfl
@[simp] theorem State.setSlots01_alphaTab (x y : Endpoint) : (s.setSlots01 x y).alphaTab = s.alphaTab := rfl
@[simp] theorem State.setSlots01_aidx48 (x y : Endpoint) : (s.setSlots01 x y).aidx48 = s.aidx48 := rfl
@[simp] theorem State.setSlots01_tile (x y : Endpoint) : (s.setSlots01 x y).tile = s.tile := rfl
@[simp] theorem State.setSlots01_inMem (x y : Endpoint) : (s.setSlots01 x y).inMem = s.inMem := rfl
@[simp] theorem State.setSlots01_outMem (x y : Endpoint) : (s.setSlots01 x y).outMem = s.outMem := rfl
@[simp] theorem State.setSlots01_outBefore (x y : Endpoint) : (s.setSlots01 x y).outBefore = s.outBefore := rfl
@[simp] theorem State.setSlots01_outRaced (x y : Endpoint) : (s.setSlots01 x y).outRaced = s.outRaced := rfl
@[simp] theorem State.setSlots01_draws (x y : Endpoint) : (s.setSlots01 x y).draws = s.draws := rfl
@[simp] theorem State.setSlots01_decodeDraws (x y : Endpoint) : (s.setSlots01 x y).decodeDraws = s.decodeDraws := rfl
@[simp] theorem State.setSlots01_ret (x y : Endpoint) : (s.setSlots01 x y).ret = s.ret := rfl
@[simp] theorem State.setSlots01_schedule (x y : Endpoint) : (s.setSlots01 x y).schedule = s.schedule := rfl

/-! ### fourColourSlots -/

@[simp] theorem State.fourColourSlots_cfg : (s.fourColourSlots).cfg = s.cfg := rfl
@[simp] theorem State.fourColourSlots_regs : (s.fourColourSlots).regs = s.regs := rfl
@[simp] theorem State.fourColourSlots_phase : (s.fourColourSlots).phase = s.phase := rfl
@[simp] theorem State.fourColourSlots_err : (s.fourColourSlots).err = s.err := rfl
@[simp] theorem State.fourColourSlots_len : (s.fourColourSlots).len = s.len := rfl
@[simp] theorem State.fourColourSlots_hdr : (s.fourColourSlots).hdr = s.hdr := rfl
@[simp] theorem State.fourColourSlots_geom : (s.fourColourSlots).geom = s.geom := rfl
@[simp] theorem State.fourColourSlots_iterX : (s.fourColourSlots).iterX = s.iterX := rfl
@[simp] theorem State.fourColourSlots_iterY : (s.fourColourSlots).iterY = s.iterY := rfl
@[simp] theorem State.fourColourSlots_c0 : (s.fourColourSlots).c0 = s.c0 := rfl
@[simp] theorem State.fourColourSlots_c1 : (s.fourColourSlots).c1 = s.c1 := rfl
@[simp] theorem State.fourColourSlots_idxw : (s.fourColourSlots).idxw = s.idxw := rfl
@[simp] theorem State.fourColourSlots_fourColor : (s.fourColourSlots).fourColor = s.fourColor := rfl
@[simp] theorem State.fourColourSlots_alpha64 : (s.fourColourSlots).alpha64 = s.alpha64 := rfl
@[simp] theorem State.fourColourSlots_a0 : (s.fourColourSlots).a0 = s.a0 := rfl
@[simp] theorem State.fourColourSlots_a1 : (s.fourColourSlots).a1 = s.a1 := rfl
@[simp] theorem State.fourColourSlots_eightAlpha : (s.fourColourSlots).eightAlpha = s.eightAlpha := rfl
@[simp] theorem State.fourColourSlots_alphaTab : (s.fourColourSlots).alphaTab = s.alphaTab := rfl
@[simp] theorem State.fourColourSlots_aidx48 : (s.fourColourSlots).aidx48 = s.aidx48 := rfl
@[simp] theorem State.fourColourSlots_tile : (s.fourColourSlots).tile = s.tile := rfl
@[simp] theorem State.fourColourSlots_inMem : (s.fourColourSlots).inMem = s.inMem := rfl
@[simp] theorem State.fourColourSlots_outMem : (s.fourColourSlots).outMem = s.outMem := rfl
@[simp] theorem State.fourColourSlots_outBefore : (s.fourColourSlots).outBefore = s.outBefore := rfl
@[simp] theorem State.fourColourSlots_outRaced : (s.fourColourSlots).outRaced = s.outRaced := rfl
@[simp] theorem State.fourColourSlots_draws : (s.fourColourSlots).draws = s.draws := rfl
@[simp] theorem State.fourColourSlots_decodeDraws : (s.fourColourSlots).decodeDraws = s.decodeDraws := rfl
@[simp] theorem State.fourColourSlots_ret : (s.fourColourSlots).ret = s.ret := rfl
@[simp] theorem State.fourColourSlots_schedule : (s.fourColourSlots).schedule = s.schedule := rfl

/-! ### threeColourSlots -/

@[simp] theorem State.threeColourSlots_cfg : (s.threeColourSlots).cfg = s.cfg := rfl
@[simp] theorem State.threeColourSlots_regs : (s.threeColourSlots).regs = s.regs := rfl
@[simp] theorem State.threeColourSlots_phase : (s.threeColourSlots).phase = s.phase := rfl
@[simp] theorem State.threeColourSlots_err : (s.threeColourSlots).err = s.err := rfl
@[simp] theorem State.threeColourSlots_len : (s.threeColourSlots).len = s.len := rfl
@[simp] theorem State.threeColourSlots_hdr : (s.threeColourSlots).hdr = s.hdr := rfl
@[simp] theorem State.threeColourSlots_geom : (s.threeColourSlots).geom = s.geom := rfl
@[simp] theorem State.threeColourSlots_iterX : (s.threeColourSlots).iterX = s.iterX := rfl
@[simp] theorem State.threeColourSlots_iterY : (s.threeColourSlots).iterY = s.iterY := rfl
@[simp] theorem State.threeColourSlots_c0 : (s.threeColourSlots).c0 = s.c0 := rfl
@[simp] theorem State.threeColourSlots_c1 : (s.threeColourSlots).c1 = s.c1 := rfl
@[simp] theorem State.threeColourSlots_idxw : (s.threeColourSlots).idxw = s.idxw := rfl
@[simp] theorem State.threeColourSlots_fourColor : (s.threeColourSlots).fourColor = s.fourColor := rfl
@[simp] theorem State.threeColourSlots_alpha64 : (s.threeColourSlots).alpha64 = s.alpha64 := rfl
@[simp] theorem State.threeColourSlots_a0 : (s.threeColourSlots).a0 = s.a0 := rfl
@[simp] theorem State.threeColourSlots_a1 : (s.threeColourSlots).a1 = s.a1 := rfl
@[simp] theorem State.threeColourSlots_eightAlpha : (s.threeColourSlots).eightAlpha = s.eightAlpha := rfl
@[simp] theorem State.threeColourSlots_alphaTab : (s.threeColourSlots).alphaTab = s.alphaTab := rfl
@[simp] theorem State.threeColourSlots_aidx48 : (s.threeColourSlots).aidx48 = s.aidx48 := rfl
@[simp] theorem State.threeColourSlots_tile : (s.threeColourSlots).tile = s.tile := rfl
@[simp] theorem State.threeColourSlots_inMem : (s.threeColourSlots).inMem = s.inMem := rfl
@[simp] theorem State.threeColourSlots_outMem : (s.threeColourSlots).outMem = s.outMem := rfl
@[simp] theorem State.threeColourSlots_outBefore : (s.threeColourSlots).outBefore = s.outBefore := rfl
@[simp] theorem State.threeColourSlots_outRaced : (s.threeColourSlots).outRaced = s.outRaced := rfl
@[simp] theorem State.threeColourSlots_draws : (s.threeColourSlots).draws = s.draws := rfl
@[simp] theorem State.threeColourSlots_decodeDraws : (s.threeColourSlots).decodeDraws = s.decodeDraws := rfl
@[simp] theorem State.threeColourSlots_ret : (s.threeColourSlots).ret = s.ret := rfl
@[simp] theorem State.threeColourSlots_schedule : (s.threeColourSlots).schedule = s.schedule := rfl

/-! ### selectColour -/

@[simp] theorem State.selectColour_cfg (k : BitVec 2) (i : PixelNo) : (s.selectColour k i).cfg = s.cfg := rfl
@[simp] theorem State.selectColour_regs (k : BitVec 2) (i : PixelNo) : (s.selectColour k i).regs = s.regs := rfl
@[simp] theorem State.selectColour_phase (k : BitVec 2) (i : PixelNo) : (s.selectColour k i).phase = s.phase := rfl
@[simp] theorem State.selectColour_err (k : BitVec 2) (i : PixelNo) : (s.selectColour k i).err = s.err := rfl
@[simp] theorem State.selectColour_len (k : BitVec 2) (i : PixelNo) : (s.selectColour k i).len = s.len := rfl
@[simp] theorem State.selectColour_hdr (k : BitVec 2) (i : PixelNo) : (s.selectColour k i).hdr = s.hdr := rfl
@[simp] theorem State.selectColour_geom (k : BitVec 2) (i : PixelNo) : (s.selectColour k i).geom = s.geom := rfl
@[simp] theorem State.selectColour_iterX (k : BitVec 2) (i : PixelNo) : (s.selectColour k i).iterX = s.iterX := rfl
@[simp] theorem State.selectColour_iterY (k : BitVec 2) (i : PixelNo) : (s.selectColour k i).iterY = s.iterY := rfl
@[simp] theorem State.selectColour_c0 (k : BitVec 2) (i : PixelNo) : (s.selectColour k i).c0 = s.c0 := rfl
@[simp] theorem State.selectColour_c1 (k : BitVec 2) (i : PixelNo) : (s.selectColour k i).c1 = s.c1 := rfl
@[simp] theorem State.selectColour_idxw (k : BitVec 2) (i : PixelNo) : (s.selectColour k i).idxw = s.idxw := rfl
@[simp] theorem State.selectColour_fourColor (k : BitVec 2) (i : PixelNo) : (s.selectColour k i).fourColor = s.fourColor := rfl
@[simp] theorem State.selectColour_pal (k : BitVec 2) (i : PixelNo) : (s.selectColour k i).pal = s.pal := rfl
@[simp] theorem State.selectColour_alpha64 (k : BitVec 2) (i : PixelNo) : (s.selectColour k i).alpha64 = s.alpha64 := rfl
@[simp] theorem State.selectColour_a0 (k : BitVec 2) (i : PixelNo) : (s.selectColour k i).a0 = s.a0 := rfl
@[simp] theorem State.selectColour_a1 (k : BitVec 2) (i : PixelNo) : (s.selectColour k i).a1 = s.a1 := rfl
@[simp] theorem State.selectColour_eightAlpha (k : BitVec 2) (i : PixelNo) : (s.selectColour k i).eightAlpha = s.eightAlpha := rfl
@[simp] theorem State.selectColour_alphaTab (k : BitVec 2) (i : PixelNo) : (s.selectColour k i).alphaTab = s.alphaTab := rfl
@[simp] theorem State.selectColour_aidx48 (k : BitVec 2) (i : PixelNo) : (s.selectColour k i).aidx48 = s.aidx48 := rfl
@[simp] theorem State.selectColour_tile (k : BitVec 2) (i : PixelNo) : (s.selectColour k i).tile = putPixel s.tile i (s.slot k) := rfl
@[simp] theorem State.selectColour_inMem (k : BitVec 2) (i : PixelNo) : (s.selectColour k i).inMem = s.inMem := rfl
@[simp] theorem State.selectColour_outMem (k : BitVec 2) (i : PixelNo) : (s.selectColour k i).outMem = s.outMem := rfl
@[simp] theorem State.selectColour_outBefore (k : BitVec 2) (i : PixelNo) : (s.selectColour k i).outBefore = s.outBefore := rfl
@[simp] theorem State.selectColour_outRaced (k : BitVec 2) (i : PixelNo) : (s.selectColour k i).outRaced = s.outRaced := rfl
@[simp] theorem State.selectColour_draws (k : BitVec 2) (i : PixelNo) : (s.selectColour k i).draws = s.draws := rfl
@[simp] theorem State.selectColour_decodeDraws (k : BitVec 2) (i : PixelNo) : (s.selectColour k i).decodeDraws = s.decodeDraws := rfl
@[simp] theorem State.selectColour_ret (k : BitVec 2) (i : PixelNo) : (s.selectColour k i).ret = s.ret := rfl
@[simp] theorem State.selectColour_schedule (k : BitVec 2) (i : PixelNo) : (s.selectColour k i).schedule = s.schedule := rfl

/-! ### readAlpha64 -/

@[simp] theorem State.readAlpha64_cfg (b : Nat) : (s.readAlpha64 b).cfg = s.cfg := by simp only [State.readAlpha64]
@[simp] theorem State.readAlpha64_regs (b : Nat) : (s.readAlpha64 b).regs = s.regs := by simp only [State.readAlpha64]
@[simp] theorem State.readAlpha64_phase (b : Nat) : (s.readAlpha64 b).phase = s.phase := by simp only [State.readAlpha64]
@[simp] theorem State.readAlpha64_err (b : Nat) : (s.readAlpha64 b).err = s.err := by simp only [State.readAlpha64]
@[simp] theorem State.readAlpha64_len (b : Nat) : (s.readAlpha64 b).len = s.len := by simp only [State.readAlpha64]
@[simp] theorem State.readAlpha64_hdr (b : Nat) : (s.readAlpha64 b).hdr = s.hdr := by simp only [State.readAlpha64]
@[simp] theorem State.readAlpha64_geom (b : Nat) : (s.readAlpha64 b).geom = s.geom := by simp only [State.readAlpha64]
@[simp] theorem State.readAlpha64_iterX (b : Nat) : (s.readAlpha64 b).iterX = s.iterX := by simp only [State.readAlpha64]
@[simp] theorem State.readAlpha64_iterY (b : Nat) : (s.readAlpha64 b).iterY = s.iterY := by simp only [State.readAlpha64]
@[simp] theorem State.readAlpha64_c0 (b : Nat) : (s.readAlpha64 b).c0 = s.c0 := by simp only [State.readAlpha64]
@[simp] theorem State.readAlpha64_c1 (b : Nat) : (s.readAlpha64 b).c1 = s.c1 := by simp only [State.readAlpha64]
@[simp] theorem State.readAlpha64_idxw (b : Nat) : (s.readAlpha64 b).idxw = s.idxw := by simp only [State.readAlpha64]
@[simp] theorem State.readAlpha64_fourColor (b : Nat) : (s.readAlpha64 b).fourColor = s.fourColor := by simp only [State.readAlpha64]
@[simp] theorem State.readAlpha64_pal (b : Nat) : (s.readAlpha64 b).pal = s.pal := by simp only [State.readAlpha64]
@[simp] theorem State.readAlpha64_alpha64 (b : Nat) : (s.readAlpha64 b).alpha64 = BitVec.ofNat 64 (s.memRead b 8) := by simp only [State.readAlpha64]
@[simp] theorem State.readAlpha64_a0 (b : Nat) : (s.readAlpha64 b).a0 = s.a0 := by simp only [State.readAlpha64]
@[simp] theorem State.readAlpha64_a1 (b : Nat) : (s.readAlpha64 b).a1 = s.a1 := by simp only [State.readAlpha64]
@[simp] theorem State.readAlpha64_eightAlpha (b : Nat) : (s.readAlpha64 b).eightAlpha = s.eightAlpha := by simp only [State.readAlpha64]
@[simp] theorem State.readAlpha64_alphaTab (b : Nat) : (s.readAlpha64 b).alphaTab = s.alphaTab := by simp only [State.readAlpha64]
@[simp] theorem State.readAlpha64_aidx48 (b : Nat) : (s.readAlpha64 b).aidx48 = s.aidx48 := by simp only [State.readAlpha64]
@[simp] theorem State.readAlpha64_tile (b : Nat) : (s.readAlpha64 b).tile = s.tile := by simp only [State.readAlpha64]
@[simp] theorem State.readAlpha64_inMem (b : Nat) : (s.readAlpha64 b).inMem = s.inMem := by simp only [State.readAlpha64]
@[simp] theorem State.readAlpha64_outMem (b : Nat) : (s.readAlpha64 b).outMem = s.outMem := by simp only [State.readAlpha64]
@[simp] theorem State.readAlpha64_outBefore (b : Nat) : (s.readAlpha64 b).outBefore = s.outBefore := by simp only [State.readAlpha64]
@[simp] theorem State.readAlpha64_outRaced (b : Nat) : (s.readAlpha64 b).outRaced = s.outRaced := by simp only [State.readAlpha64]
@[simp] theorem State.readAlpha64_draws (b : Nat) : (s.readAlpha64 b).draws = s.draws + 1 := by simp only [State.readAlpha64]
@[simp] theorem State.readAlpha64_decodeDraws (b : Nat) : (s.readAlpha64 b).decodeDraws = s.decodeDraws := by simp only [State.readAlpha64]
@[simp] theorem State.readAlpha64_ret (b : Nat) : (s.readAlpha64 b).ret = s.ret := by simp only [State.readAlpha64]
@[simp] theorem State.readAlpha64_schedule (b : Nat) : (s.readAlpha64 b).schedule = s.schedule := by simp only [State.readAlpha64]

/-! ### putNibbleAlpha -/

@[simp] theorem State.putNibbleAlpha_cfg (i : PixelNo) : (s.putNibbleAlpha i).cfg = s.cfg := rfl
@[simp] theorem State.putNibbleAlpha_regs (i : PixelNo) : (s.putNibbleAlpha i).regs = s.regs := rfl
@[simp] theorem State.putNibbleAlpha_phase (i : PixelNo) : (s.putNibbleAlpha i).phase = s.phase := rfl
@[simp] theorem State.putNibbleAlpha_err (i : PixelNo) : (s.putNibbleAlpha i).err = s.err := rfl
@[simp] theorem State.putNibbleAlpha_len (i : PixelNo) : (s.putNibbleAlpha i).len = s.len := rfl
@[simp] theorem State.putNibbleAlpha_hdr (i : PixelNo) : (s.putNibbleAlpha i).hdr = s.hdr := rfl
@[simp] theorem State.putNibbleAlpha_geom (i : PixelNo) : (s.putNibbleAlpha i).geom = s.geom := rfl
@[simp] theorem State.putNibbleAlpha_iterX (i : PixelNo) : (s.putNibbleAlpha i).iterX = s.iterX := rfl
@[simp] theorem State.putNibbleAlpha_iterY (i : PixelNo) : (s.putNibbleAlpha i).iterY = s.iterY := rfl
@[simp] theorem State.putNibbleAlpha_c0 (i : PixelNo) : (s.putNibbleAlpha i).c0 = s.c0 := rfl
@[simp] theorem State.putNibbleAlpha_c1 (i : PixelNo) : (s.putNibbleAlpha i).c1 = s.c1 := rfl
@[simp] theorem State.putNibbleAlpha_idxw (i : PixelNo) : (s.putNibbleAlpha i).idxw = s.idxw := rfl
@[simp] theorem State.putNibbleAlpha_fourColor (i : PixelNo) : (s.putNibbleAlpha i).fourColor = s.fourColor := rfl
@[simp] theorem State.putNibbleAlpha_pal (i : PixelNo) : (s.putNibbleAlpha i).pal = s.pal := rfl
@[simp] theorem State.putNibbleAlpha_alpha64 (i : PixelNo) : (s.putNibbleAlpha i).alpha64 = s.alpha64 := rfl
@[simp] theorem State.putNibbleAlpha_a0 (i : PixelNo) : (s.putNibbleAlpha i).a0 = s.a0 := rfl
@[simp] theorem State.putNibbleAlpha_a1 (i : PixelNo) : (s.putNibbleAlpha i).a1 = s.a1 := rfl
@[simp] theorem State.putNibbleAlpha_eightAlpha (i : PixelNo) : (s.putNibbleAlpha i).eightAlpha = s.eightAlpha := rfl
@[simp] theorem State.putNibbleAlpha_alphaTab (i : PixelNo) : (s.putNibbleAlpha i).alphaTab = s.alphaTab := rfl
@[simp] theorem State.putNibbleAlpha_aidx48 (i : PixelNo) : (s.putNibbleAlpha i).aidx48 = s.aidx48 := rfl
@[simp] theorem State.putNibbleAlpha_tile (i : PixelNo) : (s.putNibbleAlpha i).tile = putByte s.tile i 3 (expandNibble (alphaNibble s.alpha64 i)) := rfl
@[simp] theorem State.putNibbleAlpha_inMem (i : PixelNo) : (s.putNibbleAlpha i).inMem = s.inMem := rfl
@[simp] theorem State.putNibbleAlpha_outMem (i : PixelNo) : (s.putNibbleAlpha i).outMem = s.outMem := rfl
@[simp] theorem State.putNibbleAlpha_outBefore (i : PixelNo) : (s.putNibbleAlpha i).outBefore = s.outBefore := rfl
@[simp] theorem State.putNibbleAlpha_outRaced (i : PixelNo) : (s.putNibbleAlpha i).outRaced = s.outRaced := rfl
@[simp] theorem State.putNibbleAlpha_draws (i : PixelNo) : (s.putNibbleAlpha i).draws = s.draws := rfl
@[simp] theorem State.putNibbleAlpha_decodeDraws (i : PixelNo) : (s.putNibbleAlpha i).decodeDraws = s.decodeDraws := rfl
@[simp] theorem State.putNibbleAlpha_ret (i : PixelNo) : (s.putNibbleAlpha i).ret = s.ret := rfl
@[simp] theorem State.putNibbleAlpha_schedule (i : PixelNo) : (s.putNibbleAlpha i).schedule = s.schedule := rfl

/-! ### readAlphaEnds -/

@[simp] theorem State.readAlphaEnds_cfg (b : Nat) : (s.readAlphaEnds b).cfg = s.cfg := by simp only [State.readAlphaEnds]
@[simp] theorem State.readAlphaEnds_regs (b : Nat) : (s.readAlphaEnds b).regs = s.regs := by simp only [State.readAlphaEnds]
@[simp] theorem State.readAlphaEnds_phase (b : Nat) : (s.readAlphaEnds b).phase = s.phase := by simp only [State.readAlphaEnds]
@[simp] theorem State.readAlphaEnds_err (b : Nat) : (s.readAlphaEnds b).err = s.err := by simp only [State.readAlphaEnds]
@[simp] theorem State.readAlphaEnds_len (b : Nat) : (s.readAlphaEnds b).len = s.len := by simp only [State.readAlphaEnds]
@[simp] theorem State.readAlphaEnds_hdr (b : Nat) : (s.readAlphaEnds b).hdr = s.hdr := by simp only [State.readAlphaEnds]
@[simp] theorem State.readAlphaEnds_geom (b : Nat) : (s.readAlphaEnds b).geom = s.geom := by simp only [State.readAlphaEnds]
@[simp] theorem State.readAlphaEnds_iterX (b : Nat) : (s.readAlphaEnds b).iterX = s.iterX := by simp only [State.readAlphaEnds]
@[simp] theorem State.readAlphaEnds_iterY (b : Nat) : (s.readAlphaEnds b).iterY = s.iterY := by simp only [State.readAlphaEnds]
@[simp] theorem State.readAlphaEnds_c0 (b : Nat) : (s.readAlphaEnds b).c0 = s.c0 := by simp only [State.readAlphaEnds]
@[simp] theorem State.readAlphaEnds_c1 (b : Nat) : (s.readAlphaEnds b).c1 = s.c1 := by simp only [State.readAlphaEnds]
@[simp] theorem State.readAlphaEnds_idxw (b : Nat) : (s.readAlphaEnds b).idxw = s.idxw := by simp only [State.readAlphaEnds]
@[simp] theorem State.readAlphaEnds_fourColor (b : Nat) : (s.readAlphaEnds b).fourColor = s.fourColor := by simp only [State.readAlphaEnds]
@[simp] theorem State.readAlphaEnds_pal (b : Nat) : (s.readAlphaEnds b).pal = s.pal := by simp only [State.readAlphaEnds]
@[simp] theorem State.readAlphaEnds_alpha64 (b : Nat) : (s.readAlphaEnds b).alpha64 = s.alpha64 := by simp only [State.readAlphaEnds]
@[simp] theorem State.readAlphaEnds_a0 (b : Nat) : (s.readAlphaEnds b).a0 = s.readIn b := by simp only [State.readAlphaEnds]
@[simp] theorem State.readAlphaEnds_a1 (b : Nat) : (s.readAlphaEnds b).a1 = s.readIn (b + 1) := by simp only [State.readAlphaEnds]
@[simp] theorem State.readAlphaEnds_eightAlpha (b : Nat) : (s.readAlphaEnds b).eightAlpha = s.eightAlpha := by simp only [State.readAlphaEnds]
@[simp] theorem State.readAlphaEnds_alphaTab (b : Nat) : (s.readAlphaEnds b).alphaTab = s.alphaTab := by simp only [State.readAlphaEnds]
@[simp] theorem State.readAlphaEnds_tile (b : Nat) : (s.readAlphaEnds b).tile = s.tile := by simp only [State.readAlphaEnds]
@[simp] theorem State.readAlphaEnds_inMem (b : Nat) : (s.readAlphaEnds b).inMem = s.inMem := by simp only [State.readAlphaEnds]
@[simp] theorem State.readAlphaEnds_outMem (b : Nat) : (s.readAlphaEnds b).outMem = s.outMem := by simp only [State.readAlphaEnds]
@[simp] theorem State.readAlphaEnds_outBefore (b : Nat) : (s.readAlphaEnds b).outBefore = s.outBefore := by simp only [State.readAlphaEnds]
@[simp] theorem State.readAlphaEnds_outRaced (b : Nat) : (s.readAlphaEnds b).outRaced = s.outRaced := by simp only [State.readAlphaEnds]
@[simp] theorem State.readAlphaEnds_draws (b : Nat) : (s.readAlphaEnds b).draws = s.draws + 1 := by simp only [State.readAlphaEnds]
@[simp] theorem State.readAlphaEnds_decodeDraws (b : Nat) : (s.readAlphaEnds b).decodeDraws = s.decodeDraws := by simp only [State.readAlphaEnds]
@[simp] theorem State.readAlphaEnds_ret (b : Nat) : (s.readAlphaEnds b).ret = s.ret := by simp only [State.readAlphaEnds]
@[simp] theorem State.readAlphaEnds_schedule (b : Nat) : (s.readAlphaEnds b).schedule = s.schedule := by simp only [State.readAlphaEnds]

/-! ### eightAlphaEntries -/

@[simp] theorem State.eightAlphaEntries_cfg (x y : Byte) : (s.eightAlphaEntries x y).cfg = s.cfg := rfl
@[simp] theorem State.eightAlphaEntries_regs (x y : Byte) : (s.eightAlphaEntries x y).regs = s.regs := rfl
@[simp] theorem State.eightAlphaEntries_phase (x y : Byte) : (s.eightAlphaEntries x y).phase = s.phase := rfl
@[simp] theorem State.eightAlphaEntries_err (x y : Byte) : (s.eightAlphaEntries x y).err = s.err := rfl
@[simp] theorem State.eightAlphaEntries_len (x y : Byte) : (s.eightAlphaEntries x y).len = s.len := rfl
@[simp] theorem State.eightAlphaEntries_hdr (x y : Byte) : (s.eightAlphaEntries x y).hdr = s.hdr := rfl
@[simp] theorem State.eightAlphaEntries_geom (x y : Byte) : (s.eightAlphaEntries x y).geom = s.geom := rfl
@[simp] theorem State.eightAlphaEntries_iterX (x y : Byte) : (s.eightAlphaEntries x y).iterX = s.iterX := rfl
@[simp] theorem State.eightAlphaEntries_iterY (x y : Byte) : (s.eightAlphaEntries x y).iterY = s.iterY := rfl
@[simp] theorem State.eightAlphaEntries_c0 (x y : Byte) : (s.eightAlphaEntries x y).c0 = s.c0 := rfl
@[simp] theorem State.eightAlphaEntries_c1 (x y : Byte) : (s.eightAlphaEntries x y).c1 = s.c1 := rfl
@[simp] theorem State.eightAlphaEntries_idxw (x y : Byte) : (s.eightAlphaEntries x y).idxw = s.idxw := rfl
@[simp] theorem State.eightAlphaEntries_fourColor (x y : Byte) : (s.eightAlphaEntries x y).fourColor = s.fourColor := rfl
@[simp] theorem State.eightAlphaEntries_pal (x y : Byte) : (s.eightAlphaEntries x y).pal = s.pal := rfl
@[simp] theorem State.eightAlphaEntries_alpha64 (x y : Byte) : (s.eightAlphaEntries x y).alpha64 = s.alpha64 := rfl
@[simp] theorem State.eightAlphaEntries_a0 (x y : Byte) : (s.eightAlphaEntries x y).a0 = s.a0 := rfl
@[simp] theorem State.eightAlphaEntries_a1 (x y : Byte) : (s.eightAlphaEntries x y).a1 = s.a1 := rfl
@[simp] theorem State.eightAlphaEntries_eightAlpha (x y : Byte) : (s.eightAlphaEntries x y).eightAlpha = s.eightAlpha := rfl
@[simp] theorem State.eightAlphaEntries_alphaTab (x y : Byte) : (s.eightAlphaEntries x y).alphaTab = eightAlphaTable x y := rfl
@[simp] theorem State.eightAlphaEntries_aidx48 (x y : Byte) : (s.eightAlphaEntries x y).aidx48 = s.aidx48 := rfl
@[simp] theorem State.eightAlphaEntries_tile (x y : Byte) : (s.eightAlphaEntries x y).tile = s.tile := rfl
@[simp] theorem State.eightAlphaEntries_inMem (x y : Byte) : (s.eightAlphaEntries x y).inMem = s.inMem := rfl
@[simp] theorem State.eightAlphaEntries_outMem (x y : Byte) : (s.eightAlphaEntries x y).outMem = s.outMem := rfl
@[simp] theorem State.eightAlphaEntries_outBefore (x y : Byte) : (s.eightAlphaEntries x y).outBefore = s.outBefore := rfl
@[simp] theorem State.eightAlphaEntries_outRaced (x y : Byte) : (s.eightAlphaEntries x y).outRaced = s.outRaced := rfl
@[simp] theorem State.eightAlphaEntries_draws (x y : Byte) : (s.eightAlphaEntries x y).draws = s.draws := rfl
@[simp] theorem State.eightAlphaEntries_decodeDraws (x y : Byte) : (s.eightAlphaEntries x y).decodeDraws = s.decodeDraws := rfl
@[simp] theorem State.eightAlphaEntries_ret (x y : Byte) : (s.eightAlphaEntries x y).ret = s.ret := rfl
@[simp] theorem State.eightAlphaEntries_schedule (x y : Byte) : (s.eightAlphaEntries x y).schedule = s.schedule := rfl

/-! ### sixAlphaEntries -/

@[simp] theorem State.sixAlphaEntries_cfg (x y : Byte) : (s.sixAlphaEntries x y).cfg = s.cfg := rfl
@[simp] theorem State.sixAlphaEntries_regs (x y : Byte) : (s.sixAlphaEntries x y).regs = s.regs := rfl
@[simp] theorem State.sixAlphaEntries_phase (x y : Byte) : (s.sixAlphaEntries x y).phase = s.phase := rfl
@[simp] theorem State.sixAlphaEntries_err (x y : Byte) : (s.sixAlphaEntries x y).err = s.err := rfl
@[simp] theorem State.sixAlphaEntries_len (x y : Byte) : (s.sixAlphaEntries x y).len = s.len := rfl
@[simp] theorem State.sixAlphaEntries_hdr (x y : Byte) : (s.sixAlphaEntries x y).hdr = s.hdr := rfl
@[simp] theorem State.sixAlphaEntries_geom (x y : Byte) : (s.sixAlphaEntries x y).geom = s.geom := rfl
@[simp] theorem State.sixAlphaEntries_iterX (x y : Byte) : (s.sixAlphaEntries x y).iterX = s.iterX := rfl
@[simp] theorem State.sixAlphaEntries_iterY (x y : Byte) : (s.sixAlphaEntries x y).iterY = s.iterY := rfl
@[simp] theorem State.sixAlphaEntries_c0 (x y : Byte) : (s.sixAlphaEntries x y).c0 = s.c0 := rfl
@[simp] theorem State.sixAlphaEntries_c1 (x y : Byte) : (s.sixAlphaEntries x y).c1 = s.c1 := rfl
@[simp] theorem State.sixAlphaEntries_idxw (x y : Byte) : (s.sixAlphaEntries x y).idxw = s.idxw := rfl
@[simp] theorem State.sixAlphaEntries_fourColor (x y : Byte) : (s.sixAlphaEntries x y).fourColor = s.fourColor := rfl
@[simp] theorem State.sixAlphaEntries_pal (x y : Byte) : (s.sixAlphaEntries x y).pal = s.pal := rfl
@[simp] theorem State.sixAlphaEntries_alpha64 (x y : Byte) : (s.sixAlphaEntries x y).alpha64 = s.alpha64 := rfl
@[simp] theorem State.sixAlphaEntries_a0 (x y : Byte) : (s.sixAlphaEntries x y).a0 = s.a0 := rfl
@[simp] theorem State.sixAlphaEntries_a1 (x y : Byte) : (s.sixAlphaEntries x y).a1 = s.a1 := rfl
@[simp] theorem State.sixAlphaEntries_eightAlpha (x y : Byte) : (s.sixAlphaEntries x y).eightAlpha = s.eightAlpha := rfl
@[simp] theorem State.sixAlphaEntries_alphaTab (x y : Byte) : (s.sixAlphaEntries x y).alphaTab = sixAlphaTable x y := rfl
@[simp] theorem State.sixAlphaEntries_aidx48 (x y : Byte) : (s.sixAlphaEntries x y).aidx48 = s.aidx48 := rfl
@[simp] theorem State.sixAlphaEntries_tile (x y : Byte) : (s.sixAlphaEntries x y).tile = s.tile := rfl
@[simp] theorem State.sixAlphaEntries_inMem (x y : Byte) : (s.sixAlphaEntries x y).inMem = s.inMem := rfl
@[simp] theorem State.sixAlphaEntries_outMem (x y : Byte) : (s.sixAlphaEntries x y).outMem = s.outMem := rfl
@[simp] theorem State.sixAlphaEntries_outBefore (x y : Byte) : (s.sixAlphaEntries x y).outBefore = s.outBefore := rfl
@[simp] theorem State.sixAlphaEntries_outRaced (x y : Byte) : (s.sixAlphaEntries x y).outRaced = s.outRaced := rfl
@[simp] theorem State.sixAlphaEntries_draws (x y : Byte) : (s.sixAlphaEntries x y).draws = s.draws := rfl
@[simp] theorem State.sixAlphaEntries_decodeDraws (x y : Byte) : (s.sixAlphaEntries x y).decodeDraws = s.decodeDraws := rfl
@[simp] theorem State.sixAlphaEntries_ret (x y : Byte) : (s.sixAlphaEntries x y).ret = s.ret := rfl
@[simp] theorem State.sixAlphaEntries_schedule (x y : Byte) : (s.sixAlphaEntries x y).schedule = s.schedule := rfl

/-! ### selectAlpha -/

@[simp] theorem State.selectAlpha_cfg (k : BitVec 3) (i : PixelNo) : (s.selectAlpha k i).cfg = s.cfg := rfl
@[simp] theorem State.selectAlpha_regs (k : BitVec 3) (i : PixelNo) : (s.selectAlpha k i).regs = s.regs := rfl
@[simp] theorem State.selectAlpha_phase (k : BitVec 3) (i : PixelNo) : (s.selectAlpha k i).phase = s.phase := rfl
@[simp] theorem State.selectAlpha_err (k : BitVec 3) (i : PixelNo) : (s.selectAlpha k i).err = s.err := rfl
@[simp] theorem State.selectAlpha_len (k : BitVec 3) (i : PixelNo) : (s.selectAlpha k i).len = s.len := rfl
@[simp] theorem State.selectAlpha_hdr (k : BitVec 3) (i : PixelNo) : (s.selectAlpha k i).hdr = s.hdr := rfl
@[simp] theorem State.selectAlpha_geom (k : BitVec 3) (i : PixelNo) : (s.selectAlpha k i).geom = s.geom := rfl
@[simp] theorem State.selectAlpha_iterX (k : BitVec 3) (i : PixelNo) : (s.selectAlpha k i).iterX = s.iterX := rfl
@[simp] theorem State.selectAlpha_iterY (k : BitVec 3) (i : PixelNo) : (s.selectAlpha k i).iterY = s.iterY := rfl
@[simp] theorem State.selectAlpha_c0 (k : BitVec 3) (i : PixelNo) : (s.selectAlpha k i).c0 = s.c0 := rfl
@[simp] theorem State.selectAlpha_c1 (k : BitVec 3) (i : PixelNo) : (s.selectAlpha k i).c1 = s.c1 := rfl
@[simp] theorem State.selectAlpha_idxw (k : BitVec 3) (i : PixelNo) : (s.selectAlpha k i).idxw = s.idxw := rfl
@[simp] theorem State.selectAlpha_fourColor (k : BitVec 3) (i : PixelNo) : (s.selectAlpha k i).fourColor = s.fourColor := rfl
@[simp] theorem State.selectAlpha_pal (k : BitVec 3) (i : PixelNo) : (s.selectAlpha k i).pal = s.pal := rfl
@[simp] theorem State.selectAlpha_alpha64 (k : BitVec 3) (i : PixelNo) : (s.selectAlpha k i).alpha64 = s.alpha64 := rfl
@[simp] theorem State.selectAlpha_a0 (k : BitVec 3) (i : PixelNo) : (s.selectAlpha k i).a0 = s.a0 := rfl
@[simp] theorem State.selectAlpha_a1 (k : BitVec 3) (i : PixelNo) : (s.selectAlpha k i).a1 = s.a1 := rfl
@[simp] theorem State.selectAlpha_eightAlpha (k : BitVec 3) (i : PixelNo) : (s.selectAlpha k i).eightAlpha = s.eightAlpha := rfl
@[simp] theorem State.selectAlpha_alphaTab (k : BitVec 3) (i : PixelNo) : (s.selectAlpha k i).alphaTab = s.alphaTab := rfl
@[simp] theorem State.selectAlpha_aidx48 (k : BitVec 3) (i : PixelNo) : (s.selectAlpha k i).aidx48 = s.aidx48 := rfl
@[simp] theorem State.selectAlpha_tile (k : BitVec 3) (i : PixelNo) : (s.selectAlpha k i).tile = putByte s.tile i 3 (s.alphaEntry k) := rfl
@[simp] theorem State.selectAlpha_inMem (k : BitVec 3) (i : PixelNo) : (s.selectAlpha k i).inMem = s.inMem := rfl
@[simp] theorem State.selectAlpha_outMem (k : BitVec 3) (i : PixelNo) : (s.selectAlpha k i).outMem = s.outMem := rfl
@[simp] theorem State.selectAlpha_outBefore (k : BitVec 3) (i : PixelNo) : (s.selectAlpha k i).outBefore = s.outBefore := rfl
@[simp] theorem State.selectAlpha_outRaced (k : BitVec 3) (i : PixelNo) : (s.selectAlpha k i).outRaced = s.outRaced := rfl
@[simp] theorem State.selectAlpha_draws (k : BitVec 3) (i : PixelNo) : (s.selectAlpha k i).draws = s.draws := rfl
@[simp] theorem State.selectAlpha_decodeDraws (k : BitVec 3) (i : PixelNo) : (s.selectAlpha k i).decodeDraws = s.decodeDraws := rfl
@[simp] theorem State.selectAlpha_ret (k : BitVec 3) (i : PixelNo) : (s.selectAlpha k i).ret = s.ret := rfl
@[simp] theorem State.selectAlpha_schedule (k : BitVec 3) (i : PixelNo) : (s.selectAlpha k i).schedule = s.schedule := rfl

/-! ### copyTile -/

@[simp] theorem State.copyTile_cfg (cx cy : Nat) : (s.copyTile cx cy).cfg = s.cfg := rfl
@[simp] theorem State.copyTile_regs (cx cy : Nat) : (s.copyTile cx cy).regs = s.regs := rfl
@[simp] theorem State.copyTile_phase (cx cy : Nat) : (s.copyTile cx cy).phase = s.phase := rfl
@[simp] theorem State.copyTile_err (cx cy : Nat) : (s.copyTile cx cy).err = s.err := rfl
@[simp] theorem State.copyTile_len (cx cy : Nat) : (s.copyTile cx cy).len = s.len := rfl
@[simp] theorem State.copyTile_hdr (cx cy : Nat) : (s.copyTile cx cy).hdr = s.hdr := rfl
@[simp] theorem State.copyTile_geom (cx cy : Nat) : (s.copyTile cx cy).geom = s.geom := rfl
@[simp] theorem State.copyTile_iterX (cx cy : Nat) : (s.copyTile cx cy).iterX = s.iterX := rfl
@[simp] theorem State.copyTile_iterY (cx cy : Nat) : (s.copyTile cx cy).iterY = s.iterY := rfl
@[simp] theorem State.copyTile_c0 (cx cy : Nat) : (s.copyTile cx cy).c0 = s.c0 := rfl
@[simp] theorem State.copyTile_c1 (cx cy : Nat) : (s.copyTile cx cy).c1 = s.c1 := rfl
@[simp] theorem State.copyTile_idxw (cx cy : Nat) : (s.copyTile cx cy).idxw = s.idxw := rfl
@[simp] theorem State.copyTile_fourColor (cx cy : Nat) : (s.copyTile cx cy).fourColor = s.fourColor := rfl
@[simp] theorem State.copyTile_pal (cx cy : Nat) : (s.copyTile cx cy).pal = s.pal := rfl
@[simp] theorem State.copyTile_alpha64 (cx cy : Nat) : (s.copyTile cx cy).alpha64 = s.alpha64 := rfl
@[simp] theorem State.copyTile_a0 (cx cy : Nat) : (s.copyTile cx cy).a0 = s.a0 := rfl
@[simp] theorem State.copyTile_a1 (cx cy : Nat) : (s.copyTile cx cy).a1 = s.a1 := rfl
@[simp] theorem State.copyTile_eightAlpha (cx cy : Nat) : (s.copyTile cx cy).eightAlpha = s.eightAlpha := rfl
@[simp] theorem State.copyTile_alphaTab (cx cy : Nat) : (s.copyTile cx cy).alphaTab = s.alphaTab := rfl
@[simp] theorem State.copyTile_aidx48 (cx cy : Nat) : (s.copyTile cx cy).aidx48 = s.aidx48 := rfl
@[simp] theorem State.copyTile_tile (cx cy : Nat) : (s.copyTile cx cy).tile = s.tile := rfl
@[simp] theorem State.copyTile_inMem (cx cy : Nat) : (s.copyTile cx cy).inMem = s.inMem := rfl
@[simp] theorem State.copyTile_outMem (cx cy : Nat) : (s.copyTile cx cy).outMem = s.outMem.writeAll (s.tileWrites cx cy) := rfl
@[simp] theorem State.copyTile_outBefore (cx cy : Nat) : (s.copyTile cx cy).outBefore = s.outBefore := rfl
@[simp] theorem State.copyTile_outRaced (cx cy : Nat) : (s.copyTile cx cy).outRaced = s.outRaced := rfl
@[simp] theorem State.copyTile_draws (cx cy : Nat) : (s.copyTile cx cy).draws = s.draws := rfl
@[simp] theorem State.copyTile_decodeDraws (cx cy : Nat) : (s.copyTile cx cy).decodeDraws = s.decodeDraws := rfl
@[simp] theorem State.copyTile_ret (cx cy : Nat) : (s.copyTile cx cy).ret = s.ret := rfl
@[simp] theorem State.copyTile_schedule (cx cy : Nat) : (s.copyTile cx cy).schedule = s.schedule := rfl

/-! ### finish -/

@[simp] theorem State.finish_cfg : (s.finish).cfg = s.cfg := rfl
@[simp] theorem State.finish_regs : (s.finish).regs = s.regs := rfl
@[simp] theorem State.finish_phase : (s.finish).phase = .done := rfl
@[simp] theorem State.finish_err : (s.finish).err = s.err := rfl
@[simp] theorem State.finish_len : (s.finish).len = s.len := rfl
@[simp] theorem State.finish_hdr : (s.finish).hdr = s.hdr := rfl
@[simp] theorem State.finish_geom : (s.finish).geom = s.geom := rfl
@[simp] theorem State.finish_iterX : (s.finish).iterX = s.iterX := rfl
@[simp] theorem State.finish_iterY : (s.finish).iterY = s.iterY := rfl
@[simp] theorem State.finish_c0 : (s.finish).c0 = s.c0 := rfl
@[simp] theorem State.finish_c1 : (s.finish).c1 = s.c1 := rfl
@[simp] theorem State.finish_idxw : (s.finish).idxw = s.idxw := rfl
@[simp] theorem State.finish_fourColor : (s.finish).fourColor = s.fourColor := rfl
@[simp] theorem State.finish_pal : (s.finish).pal = s.pal := rfl
@[simp] theorem State.finish_alpha64 : (s.finish).alpha64 = s.alpha64 := rfl
@[simp] theorem State.finish_a0 : (s.finish).a0 = s.a0 := rfl
@[simp] theorem State.finish_a1 : (s.finish).a1 = s.a1 := rfl
@[simp] theorem State.finish_eightAlpha : (s.finish).eightAlpha = s.eightAlpha := rfl
@[simp] theorem State.finish_alphaTab : (s.finish).alphaTab = s.alphaTab := rfl
@[simp] theorem State.finish_aidx48 : (s.finish).aidx48 = s.aidx48 := rfl
@[simp] theorem State.finish_tile : (s.finish).tile = s.tile := rfl
@[simp] theorem State.finish_inMem : (s.finish).inMem = s.inMem := rfl
@[simp] theorem State.finish_outMem : (s.finish).outMem = s.settledOut := rfl
@[simp] theorem State.finish_outBefore : (s.finish).outBefore = [] := rfl
@[simp] theorem State.finish_outRaced : (s.finish).outRaced = [] := rfl
@[simp] theorem State.finish_draws : (s.finish).draws = s.draws + 1 := rfl
@[simp] theorem State.finish_decodeDraws : (s.finish).decodeDraws = s.decodeDraws := rfl
@[simp] theorem State.finish_ret : (s.finish).ret = s.ret := rfl
@[simp] theorem State.finish_schedule : (s.finish).schedule = s.schedule := rfl

/-! ### parseHeader -/

@[simp] theorem State.parseHeader_cfg : (s.parseHeader).cfg = s.cfg := by simp only [State.parseHeader]
@[simp] theorem State.parseHeader_regs : (s.parseHeader).regs = s.regs := by simp only [State.parseHeader]
@[simp] theorem State.parseHeader_phase : (s.parseHeader).phase = s.phase := by simp only [State.parseHeader]
@[simp] theorem State.parseHeader_err : (s.parseHeader).err = s.err := by simp only [State.parseHeader]
@[simp] theorem State.parseHeader_len : (s.parseHeader).len = s.len := by simp only [State.parseHeader]
@[simp] theorem State.parseHeader_hdr : (s.parseHeader).hdr = s.parsedHeader := by simp only [State.parseHeader]
@[simp] theorem State.parseHeader_geom : (s.parseHeader).geom = s.geom := by simp only [State.parseHeader]
@[simp] theorem State.parseHeader_iterX : (s.parseHeader).iterX = s.iterX := by simp only [State.parseHeader]
@[simp] theorem State.parseHeader_iterY : (s.parseHeader).iterY = s.iterY := by simp only [State.parseHeader]
@[simp] theorem State.parseHeader_c0 : (s.parseHeader).c0 = s.c0 := by simp only [State.parseHeader]
@[simp] theorem State.parseHeader_c1 : (s.parseHeader).c1 = s.c1 := by simp only [State.parseHeader]
@[simp] theorem State.parseHeader_idxw : (s.parseHeader).idxw = s.idxw := by simp only [State.parseHeader]
@[simp] theorem State.parseHeader_fourColor : (s.parseHeader).fourColor = s.fourColor := by simp only [State.parseHeader]
@[simp] theorem State.parseHeader_pal : (s.parseHeader).pal = s.pal := by simp only [State.parseHeader]
@[simp] theorem State.parseHeader_alpha64 : (s.parseHeader).alpha64 = s.alpha64 := by simp only [State.parseHeader]
@[simp] theorem State.parseHeader_a0 : (s.parseHeader).a0 = s.a0 := by simp only [State.parseHeader]
@[simp] theorem State.parseHeader_a1 : (s.parseHeader).a1 = s.a1 := by simp only [State.parseHeader]
@[simp] theorem State.parseHeader_eightAlpha : (s.parseHeader).eightAlpha = s.eightAlpha := by simp only [State.parseHeader]
@[simp] theorem State.parseHeader_alphaTab : (s.parseHeader).alphaTab = s.alphaTab := by simp only [State.parseHeader]
@[simp] theorem State.parseHeader_aidx48 : (s.parseHeader).aidx48 = s.aidx48 := by simp only [State.parseHeader]
@[simp] theorem State.parseHeader_tile : (s.parseHeader).tile = s.tile := by simp only [State.parseHeader]
@[simp] theorem State.parseHeader_inMem : (s.parseHeader).inMem = s.inMem := by simp only [State.parseHeader]
@[simp] theorem State.parseHeader_outMem : (s.parseHeader).outMem = s.outMem := by simp only [State.parseHeader]
@[simp] theorem State.parseHeader_outBefore : (s.parseHeader).outBefore = s.outBefore := by simp only [State.parseHeader]
@[simp] theorem State.parseHeader_outRaced : (s.parseHeader).outRaced = s.outRaced := by simp only [State.parseHeader]
@[simp] theorem State.parseHeader_draws : (s.parseHeader).draws = s.draws + 1 := by simp only [State.parseHeader]
@[simp] theorem State.parseHeader_decodeDraws : (s.parseHeader).decodeDraws = s.decodeDraws := by simp only [State.parseHeader]
@[simp] theorem State.parseHeader_ret : (s.parseHeader).ret = s.ret := by simp only [State.parseHeader]
@[simp] theorem State.parseHeader_schedule : (s.parseHeader).schedule = s.schedule := by simp only [State.parseHeader]

/-! ### latchHeader -/

@[simp] theorem State.latchHeader_cfg : (s.latchHeader).cfg = s.cfg := rfl
@[simp] theorem State.latchHeader_phase : (s.latchHeader).phase = s.phase := rfl
@[simp] theorem State.latchHeader_err : (s.latchHeader).err = s.err := rfl
@[simp] theorem State.latchHeader_len : (s.latchHeader).len = s.len := rfl
@[simp] theorem State.latchHeader_hdr : (s.latchHeader).hdr = s.hdr := rfl
@[simp] theorem State.latchHeader_geom : (s.latchHeader).geom = s.geom := rfl
@[simp] theorem State.latchHeader_iterX : (s.latchHeader).iterX = s.iterX := rfl
@[simp] theorem State.latchHeader_iterY : (s.latchHeader).iterY = s.iterY := rfl
@[simp] theorem State.latchHeader_c0 : (s.latchHeader).c0 = s.c0 := rfl
@[simp] theorem State.latchHeader_c1 : (s.latchHeader).c1 = s.c1 := rfl
@[simp] theorem State.latchHeader_idxw : (s.latchHeader).idxw = s.idxw := rfl
@[simp] theorem State.latchHeader_fourColor : (s.latchHeader).fourColor = s.fourColor := rfl
@[simp] theorem State.latchHeader_pal : (s.latchHeader).pal = s.pal := rfl
@[simp] theorem State.latchHeader_alpha64 : (s.latchHeader).alpha64 = s.alpha64 := rfl
@[simp] theorem State.latchHeader_a0 : (s.latchHeader).a0 = s.a0 := rfl
@[simp] theorem State.latchHeader_a1 : (s.latchHeader).a1 = s.a1 := rfl
@[simp] theorem State.latchHeader_eightAlpha : (s.latchHeader).eightAlpha = s.eightAlpha := rfl
@[simp] theorem State.latchHeader_alphaTab : (s.latchHeader).alphaTab = s.alphaTab := rfl
@[simp] theorem State.latchHeader_aidx48 : (s.latchHeader).aidx48 = s.aidx48 := rfl
@[simp] theorem State.latchHeader_tile : (s.latchHeader).tile = s.tile := rfl
@[simp] theorem State.latchHeader_inMem : (s.latchHeader).inMem = s.inMem := rfl
@[simp] theorem State.latchHeader_outMem : (s.latchHeader).outMem = s.outMem := rfl
@[simp] theorem State.latchHeader_outBefore : (s.latchHeader).outBefore = s.outBefore := rfl
@[simp] theorem State.latchHeader_outRaced : (s.latchHeader).outRaced = s.outRaced := rfl
@[simp] theorem State.latchHeader_draws : (s.latchHeader).draws = s.draws := rfl
@[simp] theorem State.latchHeader_decodeDraws : (s.latchHeader).decodeDraws = s.decodeDraws := rfl
@[simp] theorem State.latchHeader_ret : (s.latchHeader).ret = s.ret := rfl
@[simp] theorem State.latchHeader_schedule : (s.latchHeader).schedule = s.schedule := rfl

/-! ### enterGrid -/

@[simp] theorem State.enterGrid_cfg : (s.enterGrid).cfg = s.cfg := rfl
@[simp] theorem State.enterGrid_phase : (s.enterGrid).phase = .grid := rfl
@[simp] theorem State.enterGrid_err : (s.enterGrid).err = s.err := rfl
@[simp] theorem State.enterGrid_len : (s.enterGrid).len = s.len := rfl
@[simp] theorem State.enterGrid_hdr : (s.enterGrid).hdr = s.hdr := rfl
@[simp] theorem State.enterGrid_geom : (s.enterGrid).geom = s.hdr.geometry := rfl
@[simp] theorem State.enterGrid_iterX : (s.enterGrid).iterX = 0 := rfl
@[simp] theorem State.enterGrid_iterY : (s.enterGrid).iterY = 0 := rfl
@[simp] theorem State.enterGrid_c0 : (s.enterGrid).c0 = s.c0 := rfl
@[simp] theorem State.enterGrid_c1 : (s.enterGrid).c1 = s.c1 := rfl
@[simp] theorem State.enterGrid_idxw : (s.enterGrid).idxw = s.idxw := rfl
@[simp] theorem State.enterGrid_fourColor : (s.enterGrid).fourColor = s.fourColor := rfl
@[simp] theorem State.enterGrid_pal : (s.enterGrid).pal = s.pal := rfl
@[simp] theorem State.enterGrid_alpha64 : (s.enterGrid).alpha64 = s.alpha64 := rfl
@[simp] theorem State.enterGrid_a0 : (s.enterGrid).a0 = s.a0 := rfl
@[simp] theorem State.enterGrid_a1 : (s.enterGrid).a1 = s.a1 := rfl
@[simp] theorem State.enterGrid_eightAlpha : (s.enterGrid).eightAlpha = s.eightAlpha := rfl
@[simp] theorem State.enterGrid_alphaTab : (s.enterGrid).alphaTab = s.alphaTab := rfl
@[simp] theorem State.enterGrid_aidx48 : (s.enterGrid).aidx48 = s.aidx48 := rfl
@[simp] theorem State.enterGrid_tile : (s.enterGrid).tile = s.tile := rfl
@[simp] theorem State.enterGrid_inMem : (s.enterGrid).inMem = s.inMem := rfl
@[simp] theorem State.enterGrid_outMem : (s.enterGrid).outMem = s.outMem := rfl
@[simp] theorem State.enterGrid_outBefore : (s.enterGrid).outBefore = s.outBefore := rfl
@[simp] theorem State.enterGrid_outRaced : (s.enterGrid).outRaced = s.outRaced := rfl
@[simp] theorem State.enterGrid_draws : (s.enterGrid).draws = s.draws := rfl
@[simp] theorem State.enterGrid_decodeDraws : (s.enterGrid).decodeDraws = s.decodeDraws := rfl
@[simp] theorem State.enterGrid_ret : (s.enterGrid).ret = s.ret := rfl
@[simp] theorem State.enterGrid_schedule : (s.enterGrid).schedule = s.schedule := rfl

end Sys2Proof.Machine
end

