-- ==== Sys2Proof/Laws/Memory.lean ====
section
/-! SUPPORT. The laws of the byte memories and of the readers over them. -/

namespace Sys2Proof.Machine

namespace Memory

theorem lookup_write (m : Memory) (a : Nat) (v : Byte) (b : Nat) :
    (Memory.write m a v).lookup b = if b = a then some v else m.lookup b := by
  induction m with
  | nil =>
    by_cases h : b = a
    · simp [Memory.write, Memory.lookup, h]
    · simp [Memory.write, Memory.lookup, h, Ne.symm h]
  | cons c rest ih =>
    obtain ⟨d, w⟩ := c
    simp only [Memory.write]
    by_cases h : b = a
    · subst h
      split
      · simp [Memory.lookup]
      · split
        · simp [Memory.lookup]
        · rename_i hn
          simp [Memory.lookup, ih, Ne.symm hn]
    · split
      · simp [Memory.lookup, Ne.symm h]
      · split
        · subst_vars
          simp [Memory.lookup, Ne.symm h]
        · simp [Memory.lookup, ih, h]

theorem lookup_write_same (m : Memory) (a : Nat) (v : Byte) : (m.write a v).lookup a = some v := by
  simp [lookup_write]

theorem lookup_write_other (m : Memory) {a b : Nat} (v : Byte) (h : b ≠ a) :
    (m.write a v).lookup b = m.lookup b := by
  simp [lookup_write, h]

/-- A written memory lists what it listed, and the written byte. -/
theorem mem_write {m : Memory} {a : Nat} {v : Byte} {c : Host.Cell} (h : c ∈ m.write a v) :
    c = (a, v) ∨ c ∈ m := by
  induction m with
  | nil => simpa [Memory.write] using h
  | cons d rest ih =>
    obtain ⟨b, w⟩ := d
    simp only [Memory.write] at h
    split at h
    · simpa using h
    · split at h
      · simp only [List.mem_cons] at h ⊢; tauto
      · simp only [List.mem_cons] at h ⊢
        rcases h with h | h
        · tauto
        · rcases ih h with h | h <;> tauto

theorem write_wf {m : Memory} (h : m.wf) (a : Nat) (v : Byte) : (m.write a v).wf := by
  induction m with
  | nil => simp [Memory.write, Memory.wf]
  | cons d rest ih =>
    obtain ⟨b, w⟩ := d
    have hp := List.pairwise_cons.mp h
    simp only [Memory.write]
    split
    · rename_i hab
      refine List.pairwise_cons.mpr ⟨?_, h⟩
      intro c hc
      rcases List.mem_cons.mp hc with rfl | hc
      · exact hab
      · exact lt_trans hab (hp.1 c hc)
    · split
      · subst_vars
        exact List.pairwise_cons.mpr ⟨hp.1, hp.2⟩
      · refine List.pairwise_cons.mpr ⟨?_, ih hp.2⟩
        intro c hc
        rcases mem_write hc with rfl | hc
        · show b < a
          omega
        · exact hp.1 c hc

theorem write_below {m : Memory} {cap : Nat} (h : m.below cap) {a : Nat} (ha : a < cap) (v : Byte) :
    (m.write a v).below cap := by
  intro c hc
  rcases mem_write hc with rfl | hc
  · exact ha
  · exact h c hc

@[simp] theorem writeAll_nil (m : Memory) : m.writeAll [] = m := rfl

@[simp] theorem writeAll_cons (m : Memory) (c : Host.Cell) (cs : List Host.Cell) :
    m.writeAll (c :: cs) = (m.write c.1 c.2).writeAll cs := rfl

theorem writeAll_wf {m : Memory} (h : m.wf) (cells : List Host.Cell) : (m.writeAll cells).wf := by
  induction cells generalizing m with
  | nil => exact h
  | cons c cs ih => exact ih (write_wf h c.1 c.2)

theorem writeAll_below {m : Memory} {cap : Nat} (h : m.below cap) {cells : List Host.Cell}
    (hc : ∀ c ∈ cells, c.1 < cap) : (m.writeAll cells).below cap := by
  induction cells generalizing m with
  | nil => exact h
  | cons c cs ih =>
    exact ih (write_below h (hc c (by simp)) c.2) fun d hd => hc d (by simp [hd])

/-- A byte no cell names is as before. -/
theorem lookup_writeAll_other (m : Memory) {cells : List Host.Cell} {a : Nat} (h : ∀ c ∈ cells, c.1 ≠ a) :
    (m.writeAll cells).lookup a = m.lookup a := by
  induction cells generalizing m with
  | nil => rfl
  | cons c cs ih =>
    rw [writeAll_cons, ih _ fun d hd => h d (by simp [hd]), lookup_write_other]
    exact (h c (by simp)).symm

/-- A byte some cell names, all of them with one value, holds that value. -/
theorem lookup_writeAll_same (m : Memory) {cells : List Host.Cell} {a : Nat} {v : Byte}
    (hm : (a, v) ∈ cells) (hv : ∀ c ∈ cells, c.1 = a → c.2 = v) : (m.writeAll cells).lookup a = some v := by
  induction cells generalizing m with
  | nil => simp at hm
  | cons c cs ih =>
    rw [writeAll_cons]
    by_cases h : (a, v) ∈ cs
    · exact ih _ h fun d hd => hv d (by simp [hd])
    · by_cases h2 : ∃ d ∈ cs, d.1 = a
      · obtain ⟨d, hd, rfl⟩ := h2
        have := hv d (by simp [hd]) rfl
        exact absurd (by rw [← this]; exact hd) h
      · have hc : c = (a, v) := by
          rcases List.mem_cons.mp hm with h' | h'
          · exact h'.symm
          · exact absurd h' h
        subst hc
        rw [lookup_writeAll_other _ (by intro d hd he; exact h2 ⟨d, hd, he⟩), lookup_write_same]

end Memory

/-! ### OUT as HOST reads it -/

theorem readOutOf_write (m : Memory) (a : Nat) (v : Byte) (b : Nat) :
    readOutOf (m.write a v) b = if b = a then v else readOutOf m b := by
  simp only [readOutOf, Memory.lookup_write]
  split <;> rfl

theorem readOutOf_writeAll_other (m : Memory) {cells : List Host.Cell} {a : Nat} (h : ∀ c ∈ cells, c.1 ≠ a) :
    readOutOf (m.writeAll cells) a = readOutOf m a := by
  simp only [readOutOf, Memory.lookup_writeAll_other m h]

theorem readOutOf_writeAll_same (m : Memory) {cells : List Host.Cell} {a : Nat} {v : Byte}
    (hm : (a, v) ∈ cells) (hv : ∀ c ∈ cells, c.1 = a → c.2 = v) : readOutOf (m.writeAll cells) a = v := by
  simp only [readOutOf, Memory.lookup_writeAll_same m hm hv, Option.getD_some]

/-! ### The readers of IN -/

theorem leValue_lt (l : List Byte) : leValue l < 256 ^ l.length := by
  induction l with
  | nil => simp [leValue]
  | cons b bs ih =>
    have := b.isLt
    simp only [leValue, List.length_cons, pow_succ]
    omega

/-- R130: the value is the sum of the bytes at their weights. -/
theorem leValue_eq_sum (l : List Byte) :
    leValue l = ∑ j ∈ Finset.range l.length, (l.getD j 0).toNat * 2 ^ (8 * j) := by
  induction l with
  | nil => rfl
  | cons b bs ih =>
    rw [leValue, ih, List.length_cons, Finset.sum_range_succ']
    simp only [List.getD_cons_succ, List.getD_cons_zero, Nat.mul_zero, pow_zero, Nat.mul_one]
    rw [Finset.mul_sum, Nat.add_comm]
    congr 1
    refine Finset.sum_congr rfl fun j _ => ?_
    rw [show 8 * (j + 1) = 8 * j + 8 by ring, pow_add]
    ring

@[simp] theorem State.readInBytes_length (s : State) (a n : Nat) : (s.readInBytes a n).length = n := by
  simp [State.readInBytes]

theorem State.memRead_lt (s : State) (a n : Nat) : s.memRead a n < 256 ^ n := by
  simpa [State.memRead] using leValue_lt (s.readInBytes a n)

/-- R130 for a reading of IN. -/
theorem State.memRead_eq_sum (s : State) (a n : Nat) :
    s.memRead a n = ∑ j ∈ Finset.range n, (s.readIn (a + j)).toNat * 2 ^ (8 * j) := by
  rw [State.memRead, leValue_eq_sum, State.readInBytes_length]
  refine Finset.sum_congr rfl fun j hj => ?_
  have : j < n := Finset.mem_range.mp hj
  simp [State.readInBytes, this]

/-- A reading of at most w bits is not cut by a w-bit register. -/
theorem State.memRead_toNat (s : State) (a n w : Nat) (h : 8 * n ≤ w) :
    (BitVec.ofNat w (s.memRead a n)).toNat = s.memRead a n := by
  rw [BitVec.toNat_ofNat, Nat.mod_eq_of_lt]
  calc s.memRead a n < 256 ^ n := s.memRead_lt a n
    _ = 2 ^ (8 * n) := by rw [pow_mul]; norm_num
    _ ≤ 2 ^ w := Nat.pow_le_pow_right (by norm_num) h

/-- A reading depends on the bytes it reads. -/
theorem State.memRead_congr {s t : State} {a n : Nat} (h : ∀ j, j < n → s.readIn (a + j) = t.readIn (a + j)) :
    s.memRead a n = t.memRead a n := by
  have : s.readInBytes a n = t.readInBytes a n := by
    simp only [State.readInBytes]
    exact List.map_congr_left fun j hj => h j (List.mem_range.mp hj)
  simp [State.memRead, this]

/-- A byte that is listed is read as listed, whatever the draw. -/
theorem State.readIn_listed {s : State} {a : Nat} {v : Byte} (h : s.inMem.lookup a = some v) : s.readIn a = v := by
  simp [State.readIn, h]

theorem State.readIn_congr {s t : State} (hm : s.inMem = t.inMem) {a : Nat}
    (h : (s.inMem.lookup a).isSome = true) : s.readIn a = t.readIn a := by
  obtain ⟨v, hv⟩ := Option.isSome_iff_exists.mp h
  rw [State.readIn_listed hv, State.readIn_listed (hm ▸ hv)]

theorem State.whenInExists_next {s t u : State} {a n : Nat} :
    s.whenInExists a n t = .next u ↔ a + n ≤ s.cfg.inCap ∧ t = u := by
  simp only [State.whenInExists, State.inExists, decide_eq_true_eq]
  split <;> simp_all

theorem State.whenInExists_of_le {s t : State} {a n : Nat} (h : a + n ≤ s.cfg.inCap) :
    s.whenInExists a n t = .next t := State.whenInExists_next.mpr ⟨h, rfl⟩

end Sys2Proof.Machine
end

