-- ==== Sys2Proof/Laws/Datapath.lean ====
section
/-! SUPPORT. What the block decoders do to the tile, and that they leave everything else alone. -/

namespace Sys2Proof.Machine

/-! ### Tiles -/

theorem tileByte_putByte (t : Vector Byte 64) (i : PixelNo) (c : Fin 4) (v : Byte) (j : PixelNo) (d : Fin 4) :
    tileByte (putByte t i c v) j d = if i = j ∧ c = d then v else tileByte t j d := by
  simp only [tileByte, putByte, Vector.getElem_set]
  by_cases h : i = j ∧ c = d
  · obtain ⟨rfl, rfl⟩ := h
    simp
  · rw [if_neg h, if_neg]
    intro he
    apply h
    constructor
    · exact Fin.ext (by omega)
    · exact Fin.ext (by omega)

theorem tileByte_putPixel (t : Vector Byte 64) (i : PixelNo) (p : Pixel) (j : PixelNo) (d : Fin 4) :
    tileByte (putPixel t i p) j d = if i = j then p.channel d else tileByte t j d := by
  simp only [putPixel, tileByte_putByte]
  by_cases h : i = j
  · subst h
    fin_cases d <;> simp [Pixel.channel]
  · simp [h]

/-- A tile is its bytes by pixel and channel. -/
theorem tile_getElem (t : Vector Byte 64) (j : Nat) (h : j < 64) :
    t[j] = tileByte t ⟨j / 4, by omega⟩ ⟨j % 4, by omega⟩ := by
  simp only [tileByte]
  congr 1
  omega

theorem tile_ext {t u : Vector Byte 64} (h : ∀ i c, tileByte t i c = tileByte u i c) : t = u := by
  ext j hj
  rw [tile_getElem t j hj, tile_getElem u j hj, h]

/-! ### The fold over the pixels of a tile -/

/-- R158: the selection over a list of pixels writes each of them from its index, and only the tile. -/
theorem State.selectColours_list (l : List PixelNo) (s : State) :
    ∃ t, l.foldl (fun t i => State.selectColour t (colourIndex t.idxw i) i) s = { s with tile := t } ∧
      ∀ j c, tileByte t j c =
        if j ∈ l then (s.slot (colourIndex s.idxw j)).channel c else tileByte s.tile j c := by
  induction l generalizing s with
  | nil => exact ⟨s.tile, rfl, by simp⟩
  | cons i l ih =>
    obtain ⟨t, ht, hb⟩ := ih (s.selectColour (colourIndex s.idxw i) i)
    refine ⟨t, ht, fun j c => ?_⟩
    rw [hb]
    show (if j ∈ l then (s.slot (colourIndex s.idxw j)).channel c
      else tileByte (putPixel s.tile i (s.slot (colourIndex s.idxw i))) j c) = _
    rw [tileByte_putPixel]
    by_cases hj : j ∈ l
    · simp [hj]
    · by_cases he : i = j
      · subst he; simp
      · simp [hj, he, Ne.symm he]

theorem State.selectColours_tile (s : State) (j : PixelNo) (c : Fin 4) :
    tileByte s.selectColours.tile j c = (s.slot (colourIndex s.idxw j)).channel c := by
  obtain ⟨t, ht, hb⟩ := s.selectColours_list (List.finRange 16)
  have : s.selectColours = { s with tile := t } := ht
  rw [this]
  simpa using hb j c

theorem State.selectColours_eq (s : State) : s.selectColours = { s with tile := s.selectColours.tile } := by
  obtain ⟨t, ht, -⟩ := s.selectColours_list (List.finRange 16)
  have : s.selectColours = { s with tile := t } := ht
  rw [this]

theorem State.putNibbleAlphas_list (l : List PixelNo) (s : State) :
    ∃ t, l.foldl State.putNibbleAlpha s = { s with tile := t } ∧
      ∀ j c, tileByte t j c =
        if j ∈ l ∧ c = 3 then expandNibble (alphaNibble s.alpha64 j) else tileByte s.tile j c := by
  induction l generalizing s with
  | nil => exact ⟨s.tile, rfl, by simp⟩
  | cons i l ih =>
    obtain ⟨t, ht, hb⟩ := ih (s.putNibbleAlpha i)
    refine ⟨t, ht, fun j c => ?_⟩
    rw [hb]
    show (if j ∈ l ∧ c = 3 then expandNibble (alphaNibble s.alpha64 j)
      else tileByte (putByte s.tile i 3 (expandNibble (alphaNibble s.alpha64 i))) j c) = _
    rw [tileByte_putByte]
    by_cases hj : j ∈ l ∧ c = 3
    · simp [hj.1, hj.2]
    · by_cases he : i = j ∧ 3 = c
      · obtain ⟨rfl, rfl⟩ := he; simp
      · rw [if_neg hj, if_neg he, if_neg]
        rintro ⟨hm, rfl⟩
        rcases List.mem_cons.mp hm with rfl | hm
        · exact he ⟨rfl, rfl⟩
        · exact hj ⟨hm, rfl⟩

theorem State.decodeAlpha3_tile (s : State) (b : Nat) (j : PixelNo) (c : Fin 4) :
    tileByte (s.decodeAlpha3 b).tile j c =
      if c = 3 then expandNibble (alphaNibble (BitVec.ofNat 64 (s.memRead b 8)) j) else tileByte s.tile j c := by
  obtain ⟨t, ht, hb⟩ := (s.readAlpha64 b).putNibbleAlphas_list (List.finRange 16)
  have : s.decodeAlpha3 b = { s.readAlpha64 b with tile := t } := ht
  rw [this]
  have := hb j c
  simpa only [List.mem_finRange, true_and, State.readAlpha64_alpha64, State.readAlpha64_tile] using this

theorem State.decodeAlpha3_eq (s : State) (b : Nat) :
    s.decodeAlpha3 b = { s.readAlpha64 b with tile := (s.decodeAlpha3 b).tile } := by
  obtain ⟨t, ht, -⟩ := (s.readAlpha64 b).putNibbleAlphas_list (List.finRange 16)
  have : s.decodeAlpha3 b = { s.readAlpha64 b with tile := t } := ht
  rw [this]

theorem State.selectAlphas_list (l : List PixelNo) (s : State) :
    ∃ t, l.foldl (fun t i => State.selectAlpha t (alphaIndex t.aidx48 i) i) s = { s with tile := t } ∧
      ∀ j c, tileByte t j c =
        if j ∈ l ∧ c = 3 then s.alphaEntry (alphaIndex s.aidx48 j) else tileByte s.tile j c := by
  induction l generalizing s with
  | nil => exact ⟨s.tile, rfl, by simp⟩
  | cons i l ih =>
    obtain ⟨t, ht, hb⟩ := ih (s.selectAlpha (alphaIndex s.aidx48 i) i)
    refine ⟨t, ht, fun j c => ?_⟩
    rw [hb]
    show (if j ∈ l ∧ c = 3 then s.alphaEntry (alphaIndex s.aidx48 j)
      else tileByte (putByte s.tile i 3 (s.alphaEntry (alphaIndex s.aidx48 i))) j c) = _
    rw [tileByte_putByte]
    by_cases hj : j ∈ l ∧ c = 3
    · simp [hj.1, hj.2]
    · by_cases he : i = j ∧ 3 = c
      · obtain ⟨rfl, rfl⟩ := he; simp
      · rw [if_neg hj, if_neg he, if_neg]
        rintro ⟨hm, rfl⟩
        rcases List.mem_cons.mp hm with rfl | hm
        · exact he ⟨rfl, rfl⟩
        · exact hj ⟨hm, rfl⟩

theorem State.selectAlphas_tile (s : State) (j : PixelNo) (c : Fin 4) :
    tileByte s.selectAlphas.tile j c =
      if c = 3 then s.alphaEntry (alphaIndex s.aidx48 j) else tileByte s.tile j c := by
  obtain ⟨t, ht, hb⟩ := s.selectAlphas_list (List.finRange 16)
  have : s.selectAlphas = { s with tile := t } := ht
  rw [this]
  simpa using hb j c

theorem State.selectAlphas_eq (s : State) : s.selectAlphas = { s with tile := s.selectAlphas.tile } := by
  obtain ⟨t, ht, -⟩ := s.selectAlphas_list (List.finRange 16)
  have : s.selectAlphas = { s with tile := t } := ht
  rw [this]

/-! ### The arithmetic of the channels -/

theorem twoThirds_toNat (x y : Byte) : (twoThirds x y).toNat = (2 * x.toNat + y.toNat) / 3 := by
  have := x.isLt
  have := y.isLt
  simp [twoThirds]
  omega

theorem average_toNat (x y : Byte) : (average x y).toNat = (x.toNat + y.toNat) / 2 := by
  have := x.isLt
  have := y.isLt
  simp [average]
  omega

theorem expandRed_toNat (c : Endpoint) : (expandRed c).toNat = c.toNat / 2 ^ 11 % 2 ^ 5 * 8 := by
  simp [expandRed, Nat.shiftRight_eq_div_pow, Nat.shiftLeft_eq]
  omega

theorem expandGreen_toNat (c : Endpoint) : (expandGreen c).toNat = c.toNat / 2 ^ 5 % 2 ^ 6 * 4 := by
  simp [expandGreen, Nat.shiftRight_eq_div_pow, Nat.shiftLeft_eq]
  omega

theorem expandBlue_toNat (c : Endpoint) : (expandBlue c).toNat = c.toNat % 2 ^ 5 * 8 := by
  simp [expandBlue, Nat.shiftLeft_eq]
  omega

theorem expandNibble_toNat (n : BitVec 4) : (expandNibble n).toNat = 17 * n.toNat := by
  revert n
  decide

theorem eightAlphaTable_entry (a0 a1 : Byte) {k : Nat} (h : 2 ≤ k) (hk : k < 8) :
    (eightAlphaTable a0 a1)[k].toNat = ((8 - k) * a0.toNat + (k - 1) * a1.toNat) / 7 := by
  have := a0.isLt
  have := a1.isLt
  simp only [eightAlphaTable, Vector.getElem_ofFn, show ¬ k = 0 by omega, show ¬ k = 1 by omega, if_false,
    BitVec.toNat_ofNat]
  apply Nat.mod_eq_of_lt
  interval_cases k <;> omega

theorem sixAlphaTable_entry (a0 a1 : Byte) {k : Nat} (h : 2 ≤ k) (hk : k < 6) :
    (sixAlphaTable a0 a1)[k].toNat = ((6 - k) * a0.toNat + (k - 1) * a1.toNat) / 5 := by
  have := a0.isLt
  have := a1.isLt
  simp only [sixAlphaTable, Vector.getElem_ofFn, show ¬ k = 0 by omega, show ¬ k = 1 by omega,
    show ¬ k = 6 by omega, show ¬ k = 7 by omega, if_false, BitVec.toNat_ofNat]
  apply Nat.mod_eq_of_lt
  interval_cases k <;> omega

theorem eightAlphaTable_ends (a0 a1 : Byte) : (eightAlphaTable a0 a1)[0] = a0 ∧ (eightAlphaTable a0 a1)[1] = a1 := by
  simp [eightAlphaTable]

theorem sixAlphaTable_ends (a0 a1 : Byte) :
    (sixAlphaTable a0 a1)[0] = a0 ∧ (sixAlphaTable a0 a1)[1] = a1 ∧
      (sixAlphaTable a0 a1)[6] = 0 ∧ (sixAlphaTable a0 a1)[7] = 255 := by
  simp [sixAlphaTable]

/-! ### Palettes and alpha tables as functions of the endpoints -/

/-- The whole palette of a colour block (R153 to R155). -/
def blockPalette (c0 c1 : Endpoint) : Vector Pixel 4 :=
  let p := endpointPixel c0
  let q := endpointPixel c1
  if isFourColour c0 c1 then #v[p, q, mixPixels twoThirds p q, mixPixels twoThirds q p]
  else #v[p, q, mixPixels average p q, transparentBlack]

theorem blockPalette_four {c0 c1 : Endpoint} (h : isFourColour c0 c1 = true) :
    blockPalette c0 c1 = #v[endpointPixel c0, endpointPixel c1,
      mixPixels twoThirds (endpointPixel c0) (endpointPixel c1),
      mixPixels twoThirds (endpointPixel c1) (endpointPixel c0)] := by
  simp [blockPalette, h]

theorem blockPalette_three {c0 c1 : Endpoint} (h : isFourColour c0 c1 = false) :
    blockPalette c0 c1 = #v[endpointPixel c0, endpointPixel c1,
      mixPixels average (endpointPixel c0) (endpointPixel c1), transparentBlack] := by
  simp [blockPalette, h]

/-- The whole alpha table of a DXT5 block (R185, R186). -/
def blockAlphaTable (a0 a1 : Byte) : Vector Byte 8 :=
  if isEightAlpha a0 a1 then eightAlphaTable a0 a1 else sixAlphaTable a0 a1

theorem State.loadPalette_eq (s : State) (b : Nat) :
    s.loadPalette b =
      { s.readEndpoints b with
        fourColor := isFourColour (s.readEndpoints b).c0 (s.readEndpoints b).c1
        pal := blockPalette (s.readEndpoints b).c0 (s.readEndpoints b).c1 } := by
  generalize hr : s.readEndpoints b = r
  simp only [State.loadPalette, hr, State.modeSlots, State.setFourColour, State.setSlots01, blockPalette,
    State.fourColourSlots, State.threeColourSlots]
  have hv : ∀ (v : Vector Pixel 4) (p q x y : Pixel),
      (((v.set 0 p).set 1 q).set 2 x).set 3 y = #v[p, q, x, y] := by
    intro v p q x y
    ext k hk
    all_goals
      have : k = 0 ∨ k = 1 ∨ k = 2 ∨ k = 3 := by omega
      rcases this with rfl | rfl | rfl | rfl <;> simp
  split <;> rename_i h <;> simp [h, hv]

theorem State.loadAlphaTable_eq (s : State) (b : Nat) :
    s.loadAlphaTable b =
      { s.readAlphaEnds b with
        eightAlpha := isEightAlpha (s.readIn b) (s.readIn (b + 1))
        alphaTab := blockAlphaTable (s.readIn b) (s.readIn (b + 1)) } := by
  simp only [State.loadAlphaTable, State.alphaEntries, State.setEightAlpha, State.eightAlphaEntries,
    State.sixAlphaEntries, blockAlphaTable, State.readAlphaEnds_a0, State.readAlphaEnds_a1]
  split <;> rename_i h <;> simp [h]

end Sys2Proof.Machine
end

