-- ==== Sys2Proof/Laws/Grid.lean ====
section
/-! SUPPORT. The frames of the block decoders, the addresses of blocks and pixels, and what TILE.COPY writes. -/

namespace Sys2Proof.Machine

/-! ### Frames -/

namespace SameOutside

theorem refl (s : State) : SameOutside s s := by constructor <;> rfl

theorem trans {s t u : State} (h : SameOutside s t) (k : SameOutside t u) : SameOutside s u where
  cfg := k.cfg.trans h.cfg
  regs := k.regs.trans h.regs
  phase := k.phase.trans h.phase
  err := k.err.trans h.err
  len := k.len.trans h.len
  hdr := k.hdr.trans h.hdr
  geom := k.geom.trans h.geom
  iterX := k.iterX.trans h.iterX
  iterY := k.iterY.trans h.iterY
  inMem := k.inMem.trans h.inMem
  outMem := k.outMem.trans h.outMem
  outBefore := k.outBefore.trans h.outBefore
  outRaced := k.outRaced.trans h.outRaced
  decodeDraws := k.decodeDraws.trans h.decodeDraws
  ret := k.ret.trans h.ret
  schedule := k.schedule.trans h.schedule

end SameOutside

theorem State.loadPalette_same (s : State) (b : Nat) : SameOutside s (s.loadPalette b) := by
  rw [s.loadPalette_eq b]
  constructor <;> simp

theorem State.selectColours_same (s : State) : SameOutside s s.selectColours := by
  rw [s.selectColours_eq]
  constructor <;> rfl

theorem State.decodeColour_same (s : State) (b : Nat) : SameOutside s (s.decodeColour b) :=
  (s.loadPalette_same b).trans (s.loadPalette b).selectColours_same

theorem State.decodeAlpha3_same (s : State) (b : Nat) : SameOutside s (s.decodeAlpha3 b) := by
  rw [s.decodeAlpha3_eq b]
  constructor <;> simp

theorem State.loadAlphaTable_same (s : State) (b : Nat) : SameOutside s (s.loadAlphaTable b) := by
  rw [s.loadAlphaTable_eq b]
  constructor <;> simp

theorem State.selectAlphas_same (s : State) : SameOutside s s.selectAlphas := by
  rw [s.selectAlphas_eq]
  constructor <;> rfl

theorem State.decodeAlpha5_same (s : State) (b : Nat) : SameOutside s (s.decodeAlpha5 b) :=
  (s.loadAlphaTable_same b).trans (s.loadAlphaTable b).selectAlphas_same

theorem State.decodeDxt1_same (s : State) (a : Nat) : SameOutside s (s.decodeDxt1 a) := s.decodeColour_same a

theorem State.decodeDxt3_same (s : State) (a : Nat) : SameOutside s (s.decodeDxt3 a) :=
  (s.decodeColour_same (a + 8)).trans ((s.decodeColour (a + 8)).decodeAlpha3_same a)

theorem State.decodeDxt5_same (s : State) (a : Nat) : SameOutside s (s.decodeDxt5 a) :=
  (s.decodeColour_same (a + 8)).trans ((s.decodeColour (a + 8)).decodeAlpha5_same a)

theorem State.decodeBlock_same (s : State) (a : Nat) : SameOutside s (s.decodeBlock a) := by
  unfold State.decodeBlock
  split
  · exact SameOutside.refl s
  · exact s.decodeDxt1_same a
  · exact s.decodeDxt3_same a
  · exact s.decodeDxt5_same a

theorem State.atReading_same (s : State) (k : Nat) : SameOutside s (s.atReading k) := by constructor <;> rfl

/-- A block of the running decode leaves everything but the datapath alone, the draws too. -/
theorem State.gridBlock_same (s : State) (cx cy : Nat) : SameOutside s (s.gridBlock cx cy) := by
  have h := (s.atReading_same (2 + 2 * (cy * s.geom.blocksX + cx))).trans
    (((s.blockReading cx cy)).decodeBlock_same (s.blockAddr cx cy))
  exact ⟨h.cfg, h.regs, h.phase, h.err, h.len, h.hdr, h.geom, h.iterX, h.iterY, h.inMem, h.outMem, h.outBefore,
    h.outRaced, h.decodeDraws, h.ret, h.schedule⟩

@[simp] theorem State.gridBlock_draws (s : State) (cx cy : Nat) : (s.gridBlock cx cy).draws = s.draws := rfl

@[simp] theorem State.decodeColour_draws (s : State) (b : Nat) : (s.decodeColour b).draws = s.draws + 1 := by
  unfold State.decodeColour
  rw [State.selectColours_eq, s.loadPalette_eq b]
  exact s.readEndpoints_draws b

/-! ### A block's tile depends only on the variant and the block's bytes -/

theorem State.decodeColour_tile (s : State) (b : Nat) (i : PixelNo) (c : Fin 4) :
    tileByte (s.decodeColour b).tile i c =
      ((blockPalette (BitVec.ofNat 16 (s.memRead b 2)) (BitVec.ofNat 16 (s.memRead (b + 2) 2)))[
        (colourIndex (BitVec.ofNat 32 (s.memRead (b + 4) 4)) i).toNat]'(BitVec.isLt _)).channel c := by
  unfold State.decodeColour
  rw [State.selectColours_tile]
  simp only [s.loadPalette_eq b, State.slot, State.readEndpoints]

theorem State.decodeColour_tile_congr {s t : State} {b : Nat}
    (h : ∀ a, b ≤ a → a < b + 8 → s.readIn a = t.readIn a) :
    (s.decodeColour b).tile = (t.decodeColour b).tile := by
  apply tile_ext
  intro i c
  rw [s.decodeColour_tile, t.decodeColour_tile]
  rw [State.memRead_congr (s := s) (t := t) (a := b) (n := 2) fun j hj => h _ (by omega) (by omega)]
  rw [State.memRead_congr (s := s) (t := t) (a := b + 2) (n := 2) fun j hj => h _ (by omega) (by omega)]
  rw [State.memRead_congr (s := s) (t := t) (a := b + 4) (n := 4) fun j hj => h _ (by omega) (by omega)]

theorem State.decodeAlpha3_tile_congr {s t : State} {b : Nat}
    (h : ∀ a, b ≤ a → a < b + 8 → s.readIn a = t.readIn a) (ht : s.tile = t.tile) :
    (s.decodeAlpha3 b).tile = (t.decodeAlpha3 b).tile := by
  apply tile_ext
  intro i c
  rw [s.decodeAlpha3_tile, t.decodeAlpha3_tile, ht]
  rw [State.memRead_congr (s := s) (t := t) (a := b) (n := 8) fun j hj => h _ (by omega) (by omega)]

theorem State.decodeAlpha5_tile (s : State) (b : Nat) (i : PixelNo) (c : Fin 4) :
    tileByte (s.decodeAlpha5 b).tile i c =
      if c = 3 then
        (blockAlphaTable (s.readIn b) (s.readIn (b + 1)))[
          (alphaIndex (BitVec.ofNat 48 (s.memRead (b + 2) 6)) i).toNat]'(BitVec.isLt _)
      else tileByte s.tile i c := by
  unfold State.decodeAlpha5
  rw [State.selectAlphas_tile]
  simp only [s.loadAlphaTable_eq b, State.alphaEntry, State.readAlphaEnds]

theorem State.decodeAlpha5_tile_congr {s t : State} {b : Nat}
    (h : ∀ a, b ≤ a → a < b + 8 → s.readIn a = t.readIn a) (ht : s.tile = t.tile) :
    (s.decodeAlpha5 b).tile = (t.decodeAlpha5 b).tile := by
  apply tile_ext
  intro i c
  rw [s.decodeAlpha5_tile, t.decodeAlpha5_tile, ht]
  rw [State.memRead_congr (s := s) (t := t) (a := b + 2) (n := 6) fun j hj => h _ (by omega) (by omega)]
  rw [h b (by omega) (by omega), h (b + 1) (by omega) (by omega)]

/-- A byte that is listed reads alike before and after a block decode. -/
theorem SameOutside.readIn {s t : State} (h : SameOutside s t) {a : Nat}
    (hl : (s.inMem.lookup a).isSome = true) : t.readIn a = s.readIn a :=
  (State.readIn_congr h.inMem.symm hl).symm

/-- The tile of a block depends only on the variant and on what the block's bytes read as, in the first reading
and, for an alpha half, in the second. -/
theorem State.decodeBlock_tile_congr {s t : State} (hv : s.geom.variant = t.geom.variant)
    (hn : s.geom.variant ≠ .none) {b : Nat}
    (hr : ∀ a, b ≤ a → a < b + blockBytesOf s.geom.variant → s.readIn a = t.readIn a)
    (hr' : ∀ a, b ≤ a → a < b + blockBytesOf s.geom.variant →
      (s.decodeColour (b + 8)).readIn a = (t.decodeColour (b + 8)).readIn a) :
    (s.decodeBlock b).tile = (t.decodeBlock b).tile := by
  unfold State.decodeBlock
  rw [← hv]
  cases hk : s.geom.variant with
  | none => exact absurd hk hn
  | dxt1 =>
    simp only [hk, blockBytesOf] at hr
    exact State.decodeColour_tile_congr hr
  | dxt3 =>
    simp only [hk, blockBytesOf] at hr hr'
    exact State.decodeAlpha3_tile_congr (fun a h1 h2 => hr' a h1 (by omega))
      (State.decodeColour_tile_congr fun a h1 h2 => hr a (by omega) (by omega))
  | dxt5 =>
    simp only [hk, blockBytesOf] at hr hr'
    exact State.decodeAlpha5_tile_congr (fun a h1 h2 => hr' a h1 (by omega))
      (State.decodeColour_tile_congr fun a h1 h2 => hr a (by omega) (by omega))

/-- Two states with the same IN decode a block whose bytes are listed to the same tile, whatever their draws. -/
theorem State.decodeBlock_tile_listed {s t : State} (hm : s.inMem = t.inMem)
    (hv : s.geom.variant = t.geom.variant) (hn : s.geom.variant ≠ .none) {b : Nat}
    (hl : ∀ a, b ≤ a → a < b + blockBytesOf s.geom.variant → (s.inMem.lookup a).isSome = true) :
    (s.decodeBlock b).tile = (t.decodeBlock b).tile := by
  have hr : ∀ a, b ≤ a → a < b + blockBytesOf s.geom.variant → s.readIn a = t.readIn a :=
    fun a h1 h2 => State.readIn_congr hm (hl a h1 h2)
  refine State.decodeBlock_tile_congr hv hn hr fun a h1 h2 => ?_
  rw [(s.decodeColour_same (b + 8)).readIn (hl a h1 h2),
    (t.decodeColour_same (b + 8)).readIn (hm ▸ hl a h1 h2), hr a h1 h2]

/-- A decode has one tile for each of its blocks: it depends only on the decode's own readings, the geometry and
the block's bytes, not on the draws or on HOST's accesses (20_memory.md R74 (d)). -/
theorem State.gridBlock_tile_congr {s t : State} (hd : s.decodeDraws = t.decodeDraws) (hg : s.geom = t.geom)
    (hn : s.geom.variant ≠ .none) {cx cy : Nat}
    (hm : ∀ a, s.blockAddr cx cy ≤ a → a < s.blockAddr cx cy + blockBytesOf s.geom.variant →
      s.inMem.lookup a = t.inMem.lookup a) :
    (s.gridBlock cx cy).tile = (t.gridBlock cx cy).tile := by
  have hb : t.blockAddr cx cy = s.blockAddr cx cy := by unfold State.blockAddr; rw [hg]
  have hk : (t.blockReading cx cy).draws = (s.blockReading cx cy).draws := by
    unfold State.blockReading
    rw [State.atReading_draws, State.atReading_draws, hg, hd]
  show ((s.blockReading cx cy).decodeBlock (s.blockAddr cx cy)).tile =
    ((t.blockReading cx cy).decodeBlock (t.blockAddr cx cy)).tile
  rw [hb]
  have hv : (s.blockReading cx cy).geom.variant = (t.blockReading cx cy).geom.variant :=
    congrArg Geometry.variant hg
  have hn : (s.blockReading cx cy).geom.variant ≠ .none := hn
  refine State.decodeBlock_tile_congr hv hn (fun a h1 h2 => ?_) fun a h1 h2 => ?_
  · show ((s.inMem.lookup a)).getD (Config.freeInByte (s.blockReading cx cy).draws a) =
      (t.inMem.lookup a).getD (Config.freeInByte (t.blockReading cx cy).draws a)
    rw [hm a h1 h2, hk]
  · unfold State.readIn
    rw [((s.blockReading cx cy).decodeColour_same _).inMem, ((t.blockReading cx cy).decodeColour_same _).inMem,
      State.decodeColour_draws, State.decodeColour_draws, hk]
    show (s.inMem.lookup a).getD _ = (t.inMem.lookup a).getD _
    rw [hm a h1 h2]

/-! ### Addresses -/

/-- Block (cx, cy) of a grid ends within the stream. -/
theorem block_in_stream {cx cy bx bY n : Nat} (hx : cx < bx) (hy : cy < bY) :
    (cy * bx + cx) * n + n ≤ bx * bY * n := by
  have h1 : cy * bx + cx + 1 ≤ bx * bY := by nlinarith
  calc (cy * bx + cx) * n + n = (cy * bx + cx + 1) * n := by ring
    _ ≤ bx * bY * n := Nat.mul_le_mul_right n h1

/-- An OUT address inside an image belongs to the image. -/
theorem outAddress_lt {w h x y c : Nat} (hx : x < w) (hy : y < h) (hc : c < 4) : outAddress w x y c < w * h * 4 := by
  unfold outAddress
  have : y * w + x + 1 ≤ w * h := by nlinarith
  omega

/-- Distinct image bytes have distinct OUT addresses. -/
theorem outAddress_inj {w x y c x' y' c' : Nat} (hx : x < w) (hc : c < 4) (hx' : x' < w) (hc' : c' < 4)
    (h : outAddress w x y c = outAddress w x' y' c') : x = x' ∧ y = y' ∧ c = c' := by
  unfold outAddress at h
  have hcc : c = c' := by omega
  have hp : y * w + x = y' * w + x' := by omega
  have hw : 0 < w := by omega
  have hxx : x = x' := by
    have := congrArg (· % w) hp
    simpa [Nat.add_mod, Nat.mul_mod_left, Nat.mod_eq_of_lt hx, Nat.mod_eq_of_lt hx'] using this
  have hyy : y * w = y' * w := by omega
  exact ⟨hxx, Nat.eq_of_mul_eq_mul_right hw hyy, hcc⟩

theorem blocksOf_le_iff {n k : Nat} : k < blocksOf n ↔ 4 * k < n := by
  unfold blocksOf
  omega

/-! ### What TILE.COPY writes -/

theorem State.mem_pixelWrites {s : State} {cx cy : Nat} {i : PixelNo} {d : Host.Cell} :
    d ∈ s.pixelWrites cx cy i ↔
      (imageX cx i < s.geom.w.toNat ∧ imageY cy i < s.geom.h.toNat) ∧
        ∃ c : Fin 4, d = (outAddress s.geom.w.toNat (imageX cx i) (imageY cy i) c.val, tileByte s.tile i c) := by
  unfold State.pixelWrites
  split
  · rename_i h
    simp only [List.mem_map, List.mem_finRange, true_and, h, and_self]
    constructor
    · rintro ⟨c, rfl⟩; exact ⟨c, rfl⟩
    · rintro ⟨c, rfl⟩; exact ⟨c, rfl⟩
  · rename_i h
    simp [h]

theorem State.mem_tileWrites {s : State} {cx cy : Nat} {d : Host.Cell} :
    d ∈ s.tileWrites cx cy ↔
      ∃ (i : PixelNo) (c : Fin 4), (imageX cx i < s.geom.w.toNat ∧ imageY cy i < s.geom.h.toNat) ∧
        d = (outAddress s.geom.w.toNat (imageX cx i) (imageY cy i) c.val, tileByte s.tile i c) := by
  simp only [State.tileWrites, List.mem_flatMap, List.mem_finRange, true_and, State.mem_pixelWrites]
  constructor
  · rintro ⟨i, h, c, rfl⟩; exact ⟨i, c, h, rfl⟩
  · rintro ⟨i, c, h, rfl⟩; exact ⟨i, h, c, rfl⟩

theorem image_coordinates_inj {cx cy : Nat} {i j : PixelNo} (hx : imageX cx i = imageX cx j)
    (hy : imageY cy i = imageY cy j) : i = j := by
  unfold imageX at hx
  unfold imageY at hy
  exact Fin.ext (by omega)

/-- TILE.COPY writes each unclipped tile pixel at its image position. -/
theorem State.copyTile_readOut_inside (s : State) {cx cy : Nat} (i : PixelNo) (c : Fin 4)
    (h : imageX cx i < s.geom.w.toNat ∧ imageY cy i < s.geom.h.toNat) :
    (s.copyTile cx cy).readOut (outAddress s.geom.w.toNat (imageX cx i) (imageY cy i) c.val) =
      tileByte s.tile i c := by
  show readOutOf (s.outMem.writeAll (s.tileWrites cx cy)) _ = _
  refine readOutOf_writeAll_same _ (State.mem_tileWrites.mpr ⟨i, c, h, rfl⟩) ?_
  rintro d hd he
  obtain ⟨j, e, hj, rfl⟩ := State.mem_tileWrites.mp hd
  obtain ⟨h1, h2, h3⟩ := outAddress_inj hj.1 e.isLt h.1 c.isLt he
  rw [image_coordinates_inj h1 h2, Fin.ext h3]

/-- TILE.COPY writes nothing else. -/
theorem State.copyTile_readOut_outside (s : State) {cx cy a : Nat}
    (h : ∀ (i : PixelNo) (c : Fin 4), imageX cx i < s.geom.w.toNat → imageY cy i < s.geom.h.toNat →
      a ≠ outAddress s.geom.w.toNat (imageX cx i) (imageY cy i) c.val) :
    (s.copyTile cx cy).readOut a = s.readOut a := by
  show readOutOf (s.outMem.writeAll (s.tileWrites cx cy)) _ = _
  refine readOutOf_writeAll_other _ ?_
  rintro d hd rfl
  obtain ⟨i, c, hi, rfl⟩ := State.mem_tileWrites.mp hd
  exact h i c hi.1 hi.2 rfl

theorem State.outExists_iff {s : State} {cx cy : Nat} :
    s.outExists cx cy = true ↔ ∀ d ∈ s.tileWrites cx cy, d.1 < s.cfg.outCap := by
  simp [State.outExists, List.all_eq_true]

/-- An image that fits OUT holds every tile. -/
theorem State.outExists_of_fits {s : State} (h : s.geom.outLen ≤ s.cfg.outCap) (cx cy : Nat) :
    s.outExists cx cy = true := by
  rw [State.outExists_iff]
  intro d hd
  obtain ⟨i, c, hi, rfl⟩ := State.mem_tileWrites.mp hd
  exact lt_of_lt_of_le (outAddress_lt hi.1 hi.2 c.isLt) h

end Sys2Proof.Machine
end

