-- ==== Sys2Proof/Laws/Container.lean ====
section
/-! SUPPORT. What VALIDATE can do, said once, and what an accepted header satisfies. -/

namespace Sys2Proof.Machine

@[simp] theorem State.parsedState_cfg (s : State) : s.parsedState.cfg = s.cfg := rfl
@[simp] theorem State.parsedState_len (s : State) : s.parsedState.len = s.len := rfl
@[simp] theorem State.parsedState_phase (s : State) : s.parsedState.phase = s.phase := rfl
@[simp] theorem State.parsedState_err (s : State) : s.parsedState.err = s.err := rfl
@[simp] theorem State.parsedState_geom (s : State) : s.parsedState.geom = s.geom := rfl
@[simp] theorem State.parsedState_inMem (s : State) : s.parsedState.inMem = s.inMem := rfl
@[simp] theorem State.parsedState_outMem (s : State) : s.parsedState.outMem = s.outMem := rfl
@[simp] theorem State.parsedState_outBefore (s : State) : s.parsedState.outBefore = s.outBefore := rfl
@[simp] theorem State.parsedState_outRaced (s : State) : s.parsedState.outRaced = s.outRaced := rfl
@[simp] theorem State.parsedState_schedule (s : State) : s.parsedState.schedule = s.schedule := rfl

@[simp] theorem State.parsedState_draws (s : State) : s.parsedState.draws = s.draws := rfl
@[simp] theorem State.parsedState_decodeDraws (s : State) : s.parsedState.decodeDraws = s.decodeDraws := rfl

theorem State.parsedState_hdr (s : State) : s.parsedState.hdr = (s.atReading 1).parsedHeader := by
  simp only [State.parsedState, State.latchHeader]

/-- VALIDATE raises an error before or after the header was parsed, or enters the grid (R241). -/
theorem State.validateStep_cases (s : State) :
    (s.cfg.inCap < s.len.toNat ∧ s.validateStep = s.raise .capacityExceeded) ∨
    (s.len.toNat ≤ s.cfg.inCap ∧ (s.len.toNat < 4 ∨ (s.atReading 0).magicMatches = false) ∧
      s.validateStep = s.raise .badMagic) ∨
    (s.len.toNat ≤ s.cfg.inCap ∧ 4 ≤ s.len.toNat ∧ (s.atReading 0).magicMatches = true ∧ s.len.toNat < 1172 ∧
      s.validateStep = s.raise .truncated) ∨
    (s.len.toNat ≤ s.cfg.inCap ∧ (s.atReading 0).magicMatches = true ∧ 1172 ≤ s.len.toNat ∧
      ((∃ e, s.parsedState.headerError = some e ∧ s.validateStep = s.parsedState.raise e) ∨
        s.parsedState.headerError = none ∧ s.validateStep = s.parsedState.enterGrid)) := by
  unfold State.validateStep
  by_cases h1 : s.cfg.inCap < s.len.toNat
  · left; exact ⟨h1, if_pos h1⟩
  · rw [if_neg h1]
    by_cases h2 : s.len.toNat < 4 ∨ (s.atReading 0).magicMatches = false
    · right; left; exact ⟨by omega, h2, if_pos h2⟩
    · rw [if_neg h2]
      have hm : 4 ≤ s.len.toNat ∧ (s.atReading 0).magicMatches = true := by
        constructor
        · by_contra hc; exact h2 (.inl (by omega))
        · cases h : (s.atReading 0).magicMatches
          · exact absurd (.inr h) h2
          · rfl
      by_cases h3 : s.len.toNat < hdrSize
      · right; right; left
        exact ⟨by omega, hm.1, hm.2, h3, if_pos h3⟩
      · rw [if_neg h3]
        right; right; right
        refine ⟨by omega, hm.2, Nat.not_lt.mp h3, ?_⟩
        unfold State.checkHeader
        cases he : s.parsedState.headerError with
        | none => exact .inr ⟨rfl, rfl⟩
        | some e => exact .inl ⟨e, rfl, rfl⟩

/-- Every code CORE raises is one of R24. -/
theorem errorCode_core {e : ErrorKind} (h1 : e ≠ .ioError) (h2 : e ≠ .writeFailed) :
    errorCode e ∈ ([1, 2, 3, 4, 5, 6, 9] : List (BitVec 4)) := by
  cases e <;> first | exact absurd rfl h1 | exact absurd rfl h2 | decide

/-- The errors of R246 to R252. -/
theorem State.headerError_kinds {s : State} {e : ErrorKind} (h : s.headerError = some e) :
    e = .unsupportedContentType ∨ e = .unsupportedCompression ∨ e = .unsupportedAlphaKind ∨ e = .noMipLevel ∨
      e = .truncated ∨ e = .capacityExceeded := by
  simp only [State.headerError] at h
  split at h
  · cases h; simp
  · split at h
    · cases h; simp
    · split at h
      · cases h; simp
      · split at h
        · cases h; simp
        · split at h
          · cases h; simp
          · split at h
            · cases h; simp
            · split at h
              · cases h; simp
              · cases h

/-- What a header that passes every check satisfies (R246 to R252). -/
structure Accepted (s : State) : Prop where
  contentType : s.hdr.contentType = 1
  compression : s.hdr.compression = 2
  variant     : variantOf s.hdr.alphaKind ≠ .none
  offset      : s.hdr.mipOffsets[0].toNat ≠ 0
  length      : s.hdr.mipLengths[0].toNat ≠ 0
  range       : s.hdr.mipOffsets[0].toNat + s.hdr.mipLengths[0].toNat ≤ s.len.toNat
  count       : s.hdr.mipLengths[0].toNat =
    blocksOf s.hdr.width.toNat * blocksOf s.hdr.height.toNat * blockBytesOf (variantOf s.hdr.alphaKind)
  output      : s.hdr.width.toNat * s.hdr.height.toNat * 4 ≤ s.cfg.outCap

theorem State.headerError_none {s : State} : s.headerError = none ↔ Accepted s := by
  simp only [State.headerError]
  constructor
  · intro h
    split at h
    · cases h
    · rename_i h1
      split at h
      · cases h
      · rename_i h2
        split at h
        · cases h
        · rename_i h3
          split at h
          · cases h
          · rename_i h4
            split at h
            · cases h
            · rename_i h5
              split at h
              · cases h
              · rename_i h6
                split at h
                · cases h
                · rename_i h7
                  exact ⟨not_not.mp h1, not_not.mp h2, h3, fun h => h4 (.inl h), fun h => h4 (.inr h),
                    Nat.not_lt.mp h5, not_not.mp h6, Nat.not_lt.mp h7⟩
  · rintro ⟨h1, h2, h3, h4, h5, h6, h7, h8⟩
    rw [if_neg (not_not.mpr h1), if_neg (not_not.mpr h2), if_neg h3, if_neg (by simp [h4, h5]),
      if_neg (Nat.not_lt.mpr h6), if_neg (not_not.mpr h7), if_neg (Nat.not_lt.mpr h8)]

theorem blockBytesOf_ge {v : Variant} (h : v ≠ .none) : 8 ≤ blockBytesOf v ∧ blockBytesOf v ≤ 16 := by
  cases v <;> simp_all [blockBytesOf]

/-- The block counts of an accepted header are positive and bounded (00_scope.md R6). -/
theorem Accepted.bounds {s : State} (h : Accepted s) :
    0 < blocksOf s.hdr.width.toNat ∧ 0 < blocksOf s.hdr.height.toNat ∧
      blocksOf s.hdr.width.toNat * blocksOf s.hdr.height.toNat < 2 ^ 29 := by
  obtain ⟨hb, -⟩ := blockBytesOf_ge h.variant
  have hl := h.length
  have hc := h.count
  have hlt := s.hdr.mipLengths[0].isLt
  generalize blockBytesOf (variantOf s.hdr.alphaKind) = n at *
  generalize blocksOf s.hdr.width.toNat = x at *
  generalize blocksOf s.hdr.height.toNat = y at *
  generalize s.hdr.mipLengths[0].toNat = l at *
  have hxy : x * y * 8 ≤ x * y * n := Nat.mul_le_mul_left _ hb
  refine ⟨?_, ?_, by omega⟩
  · rcases Nat.eq_zero_or_pos x with rfl | h
    · simp at hc; omega
    · exact h
  · rcases Nat.eq_zero_or_pos y with rfl | h
    · simp at hc; omega
    · exact h

/-- An accepted header enters the grid with a legal geometry. -/
theorem Accepted.gridInv {s : State} (h : Accepted s) (hl : s.len.toNat ≤ s.cfg.inCap) : GridInv s.enterGrid where
  variant := h.variant
  blockBytes := rfl
  blocksX := rfl
  blocksY := rfl
  lenFits := hl
  blocksFit := by
    have h1 := h.range
    rw [h.count] at h1
    exact h1
  length := h.count
  outFits := h.output
  column := h.bounds.1
  row := h.bounds.2.1
  showsX := rfl
  showsY := rfl
  showsKind := rfl

end Sys2Proof.Machine
end

