-- ==== Sys2Proof/Laws/Decode.lean ====
section
/-! SUPPORT. The fields of packed words, and the operand checks on the operands an encoder writes. -/

namespace Sys2Proof

theorem packHaw_toNat (write : Bool) (rsv : BitVec 7) (offset : Byte) (data : Word) :
    (packHaw write rsv offset data).toNat =
      write.toNat * 2 ^ 47 + rsv.toNat * 2 ^ 40 + offset.toNat * 2 ^ 32 + data.toNat := by
  have h1 := Bool.toNat_le write
  have h2 := rsv.isLt
  have h3 := offset.isLt
  have h4 := data.isLt
  unfold packHaw
  rw [BitVec.toNat_ofNat, Nat.mod_eq_of_lt]
  omega

@[simp] theorem hawWrite_packHaw (write : Bool) (rsv : BitVec 7) (offset : Byte) (data : Word) :
    hawWrite (packHaw write rsv offset data) = write := by
  have h2 := rsv.isLt
  have h3 := offset.isLt
  have h4 := data.isLt
  unfold hawWrite
  rw [← BitVec.testBit_toNat, packHaw_toNat, Nat.testBit_eq_decide_div_mod_eq]
  cases write <;> simp <;> omega

@[simp] theorem hawRsvBits_packHaw (write : Bool) (rsv : BitVec 7) (offset : Byte) (data : Word) :
    hawRsvBits (packHaw write rsv offset data) = rsv := by
  have h2 := rsv.isLt
  have h3 := offset.isLt
  have h4 := data.isLt
  apply BitVec.eq_of_toNat_eq
  unfold hawRsvBits
  rw [BitVec.extractLsb'_toNat, packHaw_toNat, Nat.shiftRight_eq_div_pow]
  cases write <;> simp <;> omega

@[simp] theorem hawOffset_packHaw (write : Bool) (rsv : BitVec 7) (offset : Byte) (data : Word) :
    hawOffset (packHaw write rsv offset data) = offset := by
  have h3 := offset.isLt
  have h4 := data.isLt
  apply BitVec.eq_of_toNat_eq
  unfold hawOffset
  rw [BitVec.extractLsb'_toNat, packHaw_toNat, Nat.shiftRight_eq_div_pow]
  cases write <;> simp <;> omega

@[simp] theorem hawData_packHaw (write : Bool) (rsv : BitVec 7) (offset : Byte) (data : Word) :
    hawData (packHaw write rsv offset data) = data := by
  have h4 := data.isLt
  apply BitVec.eq_of_toNat_eq
  unfold hawData
  rw [BitVec.extractLsb'_toNat, packHaw_toNat]
  cases write <;> simp <;> omega

/-- A host access word is the packing of its fields. -/
theorem packHaw_fields (w : Word48) : packHaw (hawWrite w) (hawRsvBits w) (hawOffset w) (hawData w) = w := by
  apply BitVec.eq_of_toNat_eq
  have hw := w.isLt
  have hb : (hawWrite w).toNat = w.toNat / 2 ^ 47 := by
    unfold hawWrite
    rw [← BitVec.testBit_toNat, Nat.testBit_eq_decide_div_mod_eq]
    have h : w.toNat / 2 ^ 47 = 0 ∨ w.toNat / 2 ^ 47 = 1 := by omega
    rcases h with h | h <;> rw [h] <;> rfl
  rw [packHaw_toNat, hb]
  simp only [hawRsvBits, hawOffset, hawData, BitVec.extractLsb'_toNat, Nat.shiftRight_eq_div_pow]
  omega

/-- The concatenation of 30_encoding.md R91 is the packing. -/
theorem append_eq_packHaw (write : Bool) (rsv : BitVec 7) (offset : Byte) (data : Word) :
    (BitVec.ofBool write ++ rsv ++ offset ++ data : Word48) = packHaw write rsv offset data := by
  apply BitVec.eq_of_toNat_eq
  rw [packHaw_toNat]
  have h2 := rsv.isLt
  have h3 := offset.isLt
  have h4 := data.isLt
  have e : (BitVec.ofBool write ++ rsv ++ offset ++ data : BitVec (1 + 7 + 8 + 32)).toNat =
      ((write.toNat * 2 ^ 7 + rsv.toNat) * 2 ^ 8 + offset.toNat) * 2 ^ 32 + data.toNat := by
    rw [BitVec.toNat_append, BitVec.toNat_append, BitVec.toNat_append, BitVec.toNat_ofBool,
      ← Nat.shiftLeft_add_eq_or_of_lt h2, ← Nat.shiftLeft_add_eq_or_of_lt h3,
      ← Nat.shiftLeft_add_eq_or_of_lt h4]
    simp only [Nat.shiftLeft_eq]
  refine e.trans ?_
  ring

@[simp] theorem bitsOperand_toNat (w : Nat) (v : BitVec w) : bitsOperand w v.toNat = .ok v := by
  simp [bitsOperand, v.isLt]

@[simp] theorem pixelOperand_val (i : PixelNo) : pixelOperand i.val = .ok i := by
  simp [pixelOperand, i.isLt]

@[simp] theorem bytesOperand_map_toNat (bs : List Byte) : bytesOperand (bs.map BitVec.toNat) = .ok bs := by
  induction bs with
  | nil => rfl
  | cons b bs ih => simp [bytesOperand, ih]

theorem bitsOperand_ok {w n : Nat} {v : BitVec w} (h : bitsOperand w n = .ok v) : v.toNat = n := by
  unfold bitsOperand at h
  split at h
  · rename_i hn
    cases h
    simp [Nat.mod_eq_of_lt hn]
  · cases h

theorem pixelOperand_ok {n : Nat} {i : PixelNo} (h : pixelOperand n = .ok i) : i.val = n := by
  unfold pixelOperand at h
  split at h
  · cases h; rfl
  · cases h

theorem bytesOperand_ok {ns : List Nat} {bs : List Byte} (h : bytesOperand ns = .ok bs) :
    bs.map BitVec.toNat = ns := by
  induction ns generalizing bs with
  | nil => cases h; rfl
  | cons n ns ih =>
    simp only [bytesOperand] at h
    split at h
    · rename_i b cs hb hc
      cases h
      simp [bitsOperand_ok hb, ih hc]
    · cases h

/-- The two 16-bit fields of a colour predicate word. -/
theorem predColour_fields (c0 c1 : Endpoint) :
    (BitVec.ofNat 48 (c1.toNat * 2 ^ 16 + c0.toNat)).extractLsb' 0 16 = c0 ∧
    (BitVec.ofNat 48 (c1.toNat * 2 ^ 16 + c0.toNat)).extractLsb' 16 16 = c1 ∧
    (BitVec.ofNat 48 (c1.toNat * 2 ^ 16 + c0.toNat)).toNat < 2 ^ 32 := by
  have h0 := c0.isLt
  have h1 := c1.isLt
  refine ⟨BitVec.eq_of_toNat_eq ?_, BitVec.eq_of_toNat_eq ?_, ?_⟩
  all_goals simp [BitVec.extractLsb'_toNat, Nat.shiftRight_eq_div_pow]
  all_goals omega

/-- The two bytes of an alpha predicate word. -/
theorem predAlpha_fields (a0 a1 : Byte) :
    (BitVec.ofNat 48 (a1.toNat * 2 ^ 8 + a0.toNat)).extractLsb' 0 8 = a0 ∧
    (BitVec.ofNat 48 (a1.toNat * 2 ^ 8 + a0.toNat)).extractLsb' 8 8 = a1 ∧
    (BitVec.ofNat 48 (a1.toNat * 2 ^ 8 + a0.toNat)).toNat < 2 ^ 16 := by
  have h0 := a0.isLt
  have h1 := a1.isLt
  refine ⟨BitVec.eq_of_toNat_eq ?_, BitVec.eq_of_toNat_eq ?_, ?_⟩
  all_goals simp [BitVec.extractLsb'_toNat, Nat.shiftRight_eq_div_pow]
  all_goals omega

/-- The concatenation of a colour predicate's endpoints. -/
theorem append_eq_predColour (c0 c1 : Endpoint) :
    ((0 : BitVec 16) ++ c1 ++ c0 : Word48) = BitVec.ofNat 48 (c1.toNat * 2 ^ 16 + c0.toNat) := by
  apply BitVec.eq_of_toNat_eq
  have h0 := c0.isLt
  have h1 := c1.isLt
  refine (?_ : ((0 : BitVec 16) ++ c1 ++ c0 : BitVec (16 + 16 + 16)).toNat = _)
  rw [BitVec.toNat_append, BitVec.toNat_append, ← Nat.shiftLeft_add_eq_or_of_lt h0]
  simp [Nat.shiftLeft_eq]
  omega

/-- The concatenation of an alpha predicate's endpoints. -/
theorem append_eq_predAlpha (a0 a1 : Byte) :
    ((0 : BitVec 32) ++ a1 ++ a0 : Word48) = BitVec.ofNat 48 (a1.toNat * 2 ^ 8 + a0.toNat) := by
  apply BitVec.eq_of_toNat_eq
  have h0 := a0.isLt
  have h1 := a1.isLt
  refine (?_ : ((0 : BitVec 32) ++ a1 ++ a0 : BitVec (32 + 8 + 8)).toNat = _)
  rw [BitVec.toNat_append, BitVec.toNat_append, ← Nat.shiftLeft_add_eq_or_of_lt h0]
  simp [Nat.shiftLeft_eq]
  omega

/-- The number of a header selector word. -/
theorem append_hdrsel_toNat (ct : Word) (comp kind : Byte) :
    (ct ++ comp ++ kind : Word48).toNat = ct.toNat * 2 ^ 16 + comp.toNat * 2 ^ 8 + kind.toNat := by
  have h0 := comp.isLt
  have h1 := kind.isLt
  refine (?_ : (ct ++ comp ++ kind : BitVec (32 + 8 + 8)).toNat = _)
  rw [BitVec.toNat_append, BitVec.toNat_append, ← Nat.shiftLeft_add_eq_or_of_lt h1,
    ← Nat.shiftLeft_add_eq_or_of_lt h0]
  simp only [Nat.shiftLeft_eq]
  omega

/-! ### What a decoded operand list was -/

theorem withNone_ok {i j : Instr} {l : List Nat} (h : withNone i l = .ok j) : l = [] ∧ i = j := by
  cases l <;> simp_all [withNone]

theorem withPixel_ok {mk} {l : List Nat} {j : Instr} (h : withPixel mk l = .ok j) :
    ∃ i, l = [i.val] ∧ j = mk i := by
  unfold withPixel at h
  split at h
  · split at h
    · rename_i hp; cases h; exact ⟨_, by rw [pixelOperand_ok hp], rfl⟩
    · cases h
  · cases h

theorem withAddress_ok {mk} {l : List Nat} {j : Instr} (h : withAddress mk l = .ok j) :
    ∃ i, l = [i] ∧ j = mk i := by
  unfold withAddress at h
  split at h <;> cases h
  exact ⟨_, rfl, rfl⟩

theorem withCoordinate_ok {mk} {l : List Nat} {j : Instr} (h : withCoordinate mk l = .ok j) :
    ∃ x y, l = [x, y] ∧ j = mk x y := by
  unfold withCoordinate at h
  split at h <;> cases h
  exact ⟨_, _, rfl, rfl⟩

theorem withPair_ok {w mk} {l : List Nat} {j : Instr} (h : withPair w mk l = .ok j) :
    ∃ x y : BitVec w, l = [x.toNat, y.toNat] ∧ j = mk x y := by
  unfold withPair at h
  split at h
  · split at h
    · rename_i h1 h2; cases h; exact ⟨_, _, by rw [bitsOperand_ok h1, bitsOperand_ok h2], rfl⟩
    · cases h
  · cases h

theorem word48_of_toNat (w : Word48) (k : Nat) (h : w.toNat = k) : BitVec.ofNat 48 k = w := by
  subst h
  simp

end Sys2Proof
end

