-- ==== Sys2Proof/Laws/GridStep.lean ====
section
/-! SUPPORT. What GRID.STEP can do, said once: in a legal geometry it never stops, and it keeps the geometry legal. -/

namespace Sys2Proof.Machine

/-- The state after the decode and the copy of one block, before the iterator advances (43_block_grid.md R218). -/
def State.drawBlock (s : State) : State :=
  (s.gridBlock s.iterX s.iterY).copyTile s.iterX s.iterY

/-- A copy changes only OUT. -/
theorem State.copyTile_eq (s : State) (cx cy : Nat) :
    s.copyTile cx cy = { s with outMem := (s.copyTile cx cy).outMem } := rfl

theorem State.drawBlock_cfg (s : State) : s.drawBlock.cfg = s.cfg := (s.gridBlock_same _ _).cfg
theorem State.drawBlock_regs (s : State) : s.drawBlock.regs = s.regs := (s.gridBlock_same _ _).regs
theorem State.drawBlock_phase (s : State) : s.drawBlock.phase = s.phase := (s.gridBlock_same _ _).phase
theorem State.drawBlock_err (s : State) : s.drawBlock.err = s.err := (s.gridBlock_same _ _).err
theorem State.drawBlock_len (s : State) : s.drawBlock.len = s.len := (s.gridBlock_same _ _).len
theorem State.drawBlock_hdr (s : State) : s.drawBlock.hdr = s.hdr := (s.gridBlock_same _ _).hdr
theorem State.drawBlock_geom (s : State) : s.drawBlock.geom = s.geom := (s.gridBlock_same _ _).geom
theorem State.drawBlock_iterX (s : State) : s.drawBlock.iterX = s.iterX := (s.gridBlock_same _ _).iterX
theorem State.drawBlock_iterY (s : State) : s.drawBlock.iterY = s.iterY := (s.gridBlock_same _ _).iterY
theorem State.drawBlock_inMem (s : State) : s.drawBlock.inMem = s.inMem := (s.gridBlock_same _ _).inMem
theorem State.drawBlock_outBefore (s : State) : s.drawBlock.outBefore = s.outBefore :=
  (s.gridBlock_same _ _).outBefore
theorem State.drawBlock_outRaced (s : State) : s.drawBlock.outRaced = s.outRaced := (s.gridBlock_same _ _).outRaced
theorem State.drawBlock_schedule (s : State) : s.drawBlock.schedule = s.schedule := (s.gridBlock_same _ _).schedule
@[simp] theorem State.drawBlock_draws (s : State) : s.drawBlock.draws = s.draws := rfl
theorem State.drawBlock_decodeDraws (s : State) : s.drawBlock.decodeDraws = s.decodeDraws :=
  (s.gridBlock_same _ _).decodeDraws
theorem State.drawBlock_outMem (s : State) :
    s.drawBlock.outMem =
      s.outMem.writeAll ((s.gridBlock s.iterX s.iterY).tileWrites s.iterX s.iterY) := by
  show (s.gridBlock _ _).outMem.writeAll _ = _
  rw [(s.gridBlock_same _ _).outMem]

/-- The registers that show a running decode's geometry (10_state.md R30, R31). -/
def SameGridRegisters (s t : State) : Prop :=
  s.regs.blocksX = t.regs.blocksX ∧ s.regs.blocksY = t.regs.blocksY ∧ s.regs.variant = t.regs.variant

/-- The step draws its block, then advances. -/
theorem State.stepBlock_next {s t : State} (h : s.stepBlock = .next t) :
    s.geom.variant ≠ .none ∧
      s.inExists (s.blockAddr s.iterX s.iterY) (blockBytesOf s.geom.variant) = true ∧
      (s.gridBlock s.iterX s.iterY).outExists s.iterX s.iterY = true ∧
      t = s.drawBlock.advance := by
  simp only [State.stepBlock] at h
  split at h
  · cases h
  · rename_i h1
    split at h
    · cases h
    · rename_i h2
      split at h
      · cases h
      · rename_i h3
        cases h
        exact ⟨h1, by simpa using h2, by simpa using h3, rfl⟩

/-- In a legal geometry the block lies in IN and the tile in OUT: the step completes. -/
theorem GridInv.stepBlock {s : State} (h : GridInv s) : s.stepBlock = .next s.drawBlock.advance := by
  have hin : s.inExists (s.blockAddr s.iterX s.iterY) (blockBytesOf s.geom.variant) = true := by
    have h1 := block_in_stream (n := s.geom.blockBytes) h.column h.row
    have h2 := h.blocksFit
    have h3 := h.lenFits
    have h4 := h.blockBytes
    rw [← h4]
    exact decide_eq_true (show s.blockAddr s.iterX s.iterY + s.geom.blockBytes ≤ s.cfg.inCap by
      unfold State.blockAddr; omega)
  have hout : (s.gridBlock s.iterX s.iterY).outExists s.iterX s.iterY = true := by
    apply State.outExists_of_fits
    rw [(s.gridBlock_same _ _).geom, (s.gridBlock_same _ _).cfg]
    exact h.outFits
  simp only [State.stepBlock]
  rw [if_neg h.variant, if_neg (by simp [hin]), if_neg (by simp [hout])]
  rfl

/-- The three ways R40 advances. -/
theorem State.advance_cases (s : State) :
    (s.iterX + 1 < s.geom.blocksX ∧ s.advance = { s with iterX := s.iterX + 1 }) ∨
    (s.geom.blocksX ≤ s.iterX + 1 ∧ s.iterY + 1 < s.geom.blocksY ∧
      s.advance = { s with iterX := 0, iterY := s.iterY + 1 }) ∨
    (s.geom.blocksX ≤ s.iterX + 1 ∧ s.geom.blocksY ≤ s.iterY + 1 ∧ s.advance = s.finish) := by
  unfold State.advance
  by_cases h1 : s.iterX + 1 < s.geom.blocksX
  · left; exact ⟨h1, if_pos h1⟩
  · rw [if_neg h1]
    right
    by_cases h2 : s.iterY + 1 < s.geom.blocksY
    · left; exact ⟨by omega, h2, if_pos h2⟩
    · right; exact ⟨by omega, by omega, if_neg h2⟩

/-- A legal geometry depends only on these fields. -/
theorem GridInv.congr {s t : State} (h : GridInv s) (hg : t.geom = s.geom) (hh : t.hdr = s.hdr) (hl : t.len = s.len)
    (hc : t.cfg = s.cfg) (hr : SameGridRegisters t s) (hx : t.iterX < s.geom.blocksX)
    (hy : t.iterY < s.geom.blocksY) : GridInv t where
  variant := by rw [hg]; exact h.variant
  blockBytes := by rw [hg]; exact h.blockBytes
  blocksX := by rw [hg]; exact h.blocksX
  blocksY := by rw [hg]; exact h.blocksY
  lenFits := by rw [hl, hc]; exact h.lenFits
  blocksFit := by rw [hg, hl]; exact h.blocksFit
  length := by rw [hg, hh]; exact h.length
  outFits := by rw [hg, hc]; exact h.outFits
  column := by rw [hg]; exact hx
  row := by rw [hg]; exact hy
  showsX := by rw [hg]; exact hr.1.trans h.showsX
  showsY := by rw [hg]; exact hr.2.1.trans h.showsY
  showsKind := by rw [hg]; exact hr.2.2.trans h.showsKind

/-- The step keeps a legal geometry legal, or the decode is done. -/
theorem GridInv.advance {s : State} (h : GridInv s) (hp : s.phase = .grid) :
    GridInv s.drawBlock.advance ∧ s.drawBlock.advance.phase = .grid ∨ s.drawBlock.advance.phase = .done := by
  have hg := s.drawBlock_geom
  have hh := s.drawBlock_hdr
  have hr : SameGridRegisters s.drawBlock s := by rw [SameGridRegisters, s.drawBlock_regs]; exact ⟨rfl, rfl, rfl⟩
  have hc := s.drawBlock_cfg
  have hl := s.drawBlock_len
  have hx := h.column
  have hph := s.drawBlock_phase.trans hp
  rcases s.drawBlock.advance_cases with ⟨h1, he⟩ | ⟨h1, h2, he⟩ | ⟨h1, h2, he⟩
  · rw [he]
    rw [hg] at h1
    exact .inl ⟨h.congr hg hh hl hc hr h1 (by rw [State.drawBlock_iterY]; exact h.row), hph⟩
  · rw [he]
    rw [hg] at h2
    exact .inl ⟨h.congr hg hh hl hc hr (show 0 < _ by omega) h2, hph⟩
  · rw [he]
    exact .inr rfl

/-- A block's stream index is below the number of blocks. -/
theorem streamIndex_lt {cx cy bx bY : Nat} (hx : cx < bx) (hy : cy < bY) : cy * bx + cx < bx * bY := by nlinarith

/-- The stream index of the iterator (10_state.md R40). -/
def State.streamIndex (s : State) : Nat := s.iterY * s.geom.blocksX + s.iterX

/-- One step of the grid: the last block ends the decode, any other moves to the next stream index. -/
theorem GridInv.progress {s : State} (h : GridInv s) (hp : s.phase = .grid) :
    (s.streamIndex + 1 = s.geom.blocksX * s.geom.blocksY ∧ s.drawBlock.advance = s.drawBlock.finish) ∨
    (s.streamIndex + 1 < s.geom.blocksX * s.geom.blocksY ∧
      GridInv s.drawBlock.advance ∧ s.drawBlock.advance.phase = .grid ∧
      s.drawBlock.advance.streamIndex = s.streamIndex + 1 ∧
      s.drawBlock.advance.outMem = s.drawBlock.outMem ∧ s.drawBlock.advance.outRaced = s.outRaced) := by
  have hx := h.column
  have hy := h.row
  have hg := s.drawBlock_geom
  have e1 := s.drawBlock_iterX
  have e2 := s.drawBlock_iterY
  have e3 := s.drawBlock_outRaced
  have hgrid : s.drawBlock.phase = .grid := s.drawBlock_phase.trans hp
  rcases h.advance hp with ⟨ha, hq⟩ | hq
  · right
    rcases s.drawBlock.advance_cases with ⟨h1, he⟩ | ⟨h1, h2, he⟩ | ⟨-, -, he⟩
    · rw [hg, e1] at h1
      have := streamIndex_lt h1 hy
      refine ⟨by simp only [State.streamIndex]; omega, ha, hq, ?_⟩
      rw [he]
      simp only [State.streamIndex, hg, e1, e2, e3]
      exact ⟨by omega, trivial, trivial⟩
    · rw [hg, e1] at h1
      rw [hg, e2] at h2
      have := streamIndex_lt (bx := s.geom.blocksX) (cx := 0) (by omega) h2
      have : (s.iterY + 1) * s.geom.blocksX = s.iterY * s.geom.blocksX + s.geom.blocksX := by ring
      refine ⟨by simp only [State.streamIndex]; omega, ha, hq, ?_⟩
      rw [he]
      simp only [State.streamIndex, hg, e2, e3]
      exact ⟨by omega, trivial, trivial⟩
    · rw [he] at hq
      cases hq
  · left
    rcases s.drawBlock.advance_cases with ⟨-, he⟩ | ⟨-, -, he⟩ | ⟨h1, h2, he⟩
    · rw [he] at hq
      exact absurd (hgrid.symm.trans hq) (by decide)
    · rw [he] at hq
      exact absurd (hgrid.symm.trans hq) (by decide)
    · refine ⟨?_, he⟩
      rw [hg, e1] at h1
      rw [hg, e2] at h2
      simp only [State.streamIndex]
      have h5 : s.geom.blocksX = s.iterX + 1 := by omega
      have h6 : s.geom.blocksY = s.iterY + 1 := by omega
      rw [h5, h6]
      ring

/-! ### Settling OUT at DONE -/

/-- What settling does to a byte of OUT (70_reset_and_hazards.md R347). -/
theorem settle_readOutOf (l : List Nat) (keep : Nat → Bool) (image : Nat) (before : Nat → Byte) (m : Memory)
    (a : Nat) :
    let r := readOutOf (l.foldl
      (fun m a => if a < image then if keep a then m else m.write a (before a) else m) m) a
    r = readOutOf m a ∨ a ∈ l ∧ a < image ∧ r = before a := by
  induction l generalizing m with
  | nil => exact .inl rfl
  | cons b l ih =>
    simp only [List.foldl_cons]
    rcases ih (if b < image then if keep b then m else m.write b (before b) else m) with h | ⟨h1, h2, h3⟩
    · rw [h]
      by_cases hb : b < image
      · cases hk : keep b
        · simp only [hb, if_true, Bool.false_eq_true, if_false, readOutOf_write]
          by_cases he : a = b
          · right; subst he; simp [hb]
          · left; simp [he]
        · simp [hb]
      · simp [hb]
    · exact .inr ⟨List.mem_cons_of_mem _ h1, h2, h3⟩

theorem settle_wf (l : List Nat) (keep : Nat → Bool) (image : Nat) (before : Nat → Byte) {m : Memory} (h : m.wf) :
    (l.foldl (fun m a => if a < image then if keep a then m else m.write a (before a) else m) m).wf := by
  induction l generalizing m with
  | nil => exact h
  | cons b l ih =>
    apply ih
    dsimp only
    split
    · split
      · exact h
      · exact Memory.write_wf h _ _
    · exact h

theorem settle_below (l : List Nat) (keep : Nat → Bool) (image cap : Nat) (before : Nat → Byte) {m : Memory}
    (hl : ∀ a ∈ l, a < cap) (h : m.below cap) :
    (l.foldl (fun m a => if a < image then if keep a then m else m.write a (before a) else m) m).below cap := by
  induction l generalizing m with
  | nil => exact h
  | cons b l ih =>
    apply ih (fun a ha => hl a (List.mem_cons_of_mem _ ha))
    dsimp only
    split
    · split
      · exact h
      · exact Memory.write_below h (hl b (by simp)) _
    · exact h

/-- At DONE a byte of OUT is the decode's or, where HOST raced it, HOST's (R347). -/
theorem State.settledOut_readOut (s : State) (a : Nat) :
    readOutOf s.settledOut a = s.readOut a ∨
      a ∈ s.outRaced ∧ a < s.geom.outLen ∧ readOutOf s.settledOut a = s.readBefore a :=
  settle_readOutOf s.outRaced (Config.takesDecoded s.draws) s.geom.outLen s.readBefore s.outMem a

theorem State.settledOut_nil {s : State} (h : s.outRaced = []) : s.settledOut = s.outMem := by
  simp [State.settledOut, h]

theorem State.settledOut_wf {s : State} (h : s.outMem.wf) : s.settledOut.wf := settle_wf _ _ _ _ h

theorem State.settledOut_below {s : State} {cap : Nat} (h : s.outMem.below cap)
    (hr : ∀ a ∈ s.outRaced, a < cap) : s.settledOut.below cap := settle_below _ _ _ _ _ hr h

/-! ### OUT after a reset that abandons a decode -/

theorem abandon_readOutOf (l : List Nat) (keep : Nat → Bool) (image : Nat → Byte) (m : Memory) (a : Nat) :
    let r := readOutOf (l.foldl (fun m a => if keep a then m.write a (image a) else m) m) a
    r = readOutOf m a ∨ a ∈ l ∧ r = image a := by
  induction l generalizing m with
  | nil => exact .inl rfl
  | cons b l ih =>
    simp only [List.foldl_cons]
    rcases ih (if keep b then m.write b (image b) else m) with h | ⟨h1, h2⟩
    · rw [h]
      cases hk : keep b
      · simp
      · simp only [if_true, readOutOf_write]
        by_cases he : a = b
        · right; subst he; simp
        · left; simp [he]
    · exact .inr ⟨List.mem_cons_of_mem _ h1, h2⟩

theorem abandon_wf (l : List Nat) (keep : Nat → Bool) (image : Nat → Byte) {m : Memory} (h : m.wf) :
    (l.foldl (fun m a => if keep a then m.write a (image a) else m) m).wf := by
  induction l generalizing m with
  | nil => exact h
  | cons b l ih =>
    apply ih
    dsimp only
    split
    · exact Memory.write_wf h _ _
    · exact h

theorem abandon_below (l : List Nat) (keep : Nat → Bool) (cap : Nat) (image : Nat → Byte) {m : Memory}
    (hl : ∀ a ∈ l, a < cap) (h : m.below cap) :
    (l.foldl (fun m a => if keep a then m.write a (image a) else m) m).below cap := by
  induction l generalizing m with
  | nil => exact h
  | cons b l ih =>
    apply ih (fun a ha => hl a (List.mem_cons_of_mem _ ha))
    dsimp only
    split
    · exact Memory.write_below h (hl b (by simp)) _
    · exact h

/-- A reset leaves each byte of OUT at its value without the decode or at the decode's (R342). -/
theorem State.abandonedOut_running {s g : State} (h : s.runningDecode = some g) (a : Nat) :
    readOutOf s.abandonedOut a = s.readBefore a ∨
      a < g.geom.outLen ∧ readOutOf s.abandonedOut a = g.imageByte a := by
  have he : s.abandonedOut = (List.range (min g.geom.outLen s.cfg.outCap)).foldl
      (fun m a => if Config.takesDecoded s.draws a then m.write a (g.imageByte a) else m) s.outBefore := by
    simp only [State.abandonedOut, h]
  rw [he]
  rcases abandon_readOutOf (List.range (min g.geom.outLen s.cfg.outCap)) (Config.takesDecoded s.draws)
    g.imageByte s.outBefore a with h | ⟨h1, h2⟩
  · exact .inl h
  · rw [List.mem_range] at h1
    exact .inr ⟨by omega, h2⟩

theorem State.abandonedOut_none {s : State} (h : s.runningDecode = none) : s.abandonedOut = s.outMem := by
  simp only [State.abandonedOut, h]

theorem State.runningDecode_idle {s : State} (h : s.busy = false) : s.runningDecode = none := by
  simp only [State.busy] at h
  unfold State.runningDecode
  cases hp : s.phase <;> simp_all

theorem State.abandonedOut_wf {s : State} (h : s.outMem.wf) (hb : s.outBefore.wf) : s.abandonedOut.wf := by
  unfold State.abandonedOut
  split
  · exact h
  · exact abandon_wf _ _ _ hb

theorem State.abandonedOut_below {s : State} (h : s.outMem.below s.cfg.outCap)
    (hb : s.outBefore.below s.cfg.outCap) : s.abandonedOut.below s.cfg.outCap := by
  unfold State.abandonedOut
  split
  · exact h
  · refine abandon_below _ _ _ _ (fun a ha => ?_) hb
    rw [List.mem_range] at ha
    omega

end Sys2Proof.Machine
end

