-- ==== Sys2Proof/Laws/PerInstr.lean ====
section
/-! SUPPORT. Per operation: decoding the code of a well-formed operation gives it back. -/

namespace Sys2Proof.Laws.RoundTrip

-- The lemmas unfold the same two long definitions: one at a time, they need no thread each.
set_option Elab.async false

/-- The round trip of one operation (30_encoding.md R92, R110). -/
def Statement (i : Instr) : Prop := i.wf = true → decode (encode i) = .ok i

theorem hawRsv (x : Bool) (y : BitVec 7) (z : Byte) (w : Word) : Statement (.hawRsv x y z w) := by
  intro h
  simp_all [Instr.wf, encode, decode, decodeHaw, withNone]

theorem rd (x : Byte) (y : Word) : Statement (.rd x y) := by
  intro _
  simp [encode, decode, decodeHaw, withNone]

theorem wrCtrl (x : Word) : Statement (.wrCtrl x) := by
  intro _
  simp [encode, decode, decodeHaw, withNone]

theorem wrFlenLo (x : Word) : Statement (.wrFlenLo x) := by
  intro _
  simp [encode, decode, decodeHaw, withNone]

theorem wrFlenHi (x : Word) : Statement (.wrFlenHi x) := by
  intro _
  simp [encode, decode, decodeHaw, withNone]

theorem wrIgn (x : Byte) (y : Word) : Statement (.wrIgn x y) := by
  intro h
  simp_all [Instr.wf, encode, decode, decodeHaw, withNone]

theorem decDxt1 (x : Nat) : Statement (.decDxt1 x) := by
  intro _
  simp [encode, decode, decodeHdrsel, hdrselWord, withAddress]

theorem decDxt3 (x : Nat) : Statement (.decDxt3 x) := by
  intro _
  simp [encode, decode, decodeHdrsel, hdrselWord, withAddress]

theorem decDxt5 (x : Nat) : Statement (.decDxt5 x) := by
  intro _
  simp [encode, decode, decodeHdrsel, hdrselWord, withAddress]

theorem cmode4 (x y : Endpoint) : Statement (.cmode4 x y) := by
  intro h
  obtain ⟨h0, h1, h2⟩ := predColour_fields x y
  simp only [Instr.wf, decide_eq_true_eq] at h
  simp only [encode, decode, decodePredColour, h0, h1, withNone]
  rw [if_neg (by omega)]
  rw [if_pos h]

theorem cmode3 (x y : Endpoint) : Statement (.cmode3 x y) := by
  intro h
  obtain ⟨h0, h1, h2⟩ := predColour_fields x y
  simp only [Instr.wf, decide_eq_true_eq] at h
  simp only [encode, decode, decodePredColour, h0, h1, withNone]
  rw [if_neg (by omega)]
  rw [if_neg (by omega)]

theorem csel0 (x : PixelNo) : Statement (.csel0 x) := by
  intro _
  simp [encode, decode, decodeCidx, withPixel]

theorem csel1 (x : PixelNo) : Statement (.csel1 x) := by
  intro _
  simp [encode, decode, decodeCidx, withPixel]

theorem csel2 (x : PixelNo) : Statement (.csel2 x) := by
  intro _
  simp [encode, decode, decodeCidx, withPixel]

theorem csel3 (x : PixelNo) : Statement (.csel3 x) := by
  intro _
  simp [encode, decode, decodeCidx, withPixel]

theorem aexp4 (x : BitVec 4) : Statement (.aexp4 x) := by
  intro _
  revert x
  decide

theorem amode8 (x y : Byte) : Statement (.amode8 x y) := by
  intro h
  obtain ⟨h0, h1, h2⟩ := predAlpha_fields x y
  simp only [Instr.wf, decide_eq_true_eq] at h
  simp only [encode, decode, decodePredAlpha, h0, h1, withNone]
  rw [if_neg (by omega)]
  rw [if_pos h]

theorem amode6 (x y : Byte) : Statement (.amode6 x y) := by
  intro h
  obtain ⟨h0, h1, h2⟩ := predAlpha_fields x y
  simp only [Instr.wf, decide_eq_true_eq] at h
  simp only [encode, decode, decodePredAlpha, h0, h1, withNone]
  rw [if_neg (by omega)]
  rw [if_neg (by omega)]

theorem asel0 (x : PixelNo) : Statement (.asel0 x) := by
  intro _
  simp [encode, decode, decodeAidx, withPixel]

theorem asel1 (x : PixelNo) : Statement (.asel1 x) := by
  intro _
  simp [encode, decode, decodeAidx, withPixel]

theorem asel2 (x : PixelNo) : Statement (.asel2 x) := by
  intro _
  simp [encode, decode, decodeAidx, withPixel]

theorem asel3 (x : PixelNo) : Statement (.asel3 x) := by
  intro _
  simp [encode, decode, decodeAidx, withPixel]

theorem asel4 (x : PixelNo) : Statement (.asel4 x) := by
  intro _
  simp [encode, decode, decodeAidx, withPixel]

theorem asel5 (x : PixelNo) : Statement (.asel5 x) := by
  intro _
  simp [encode, decode, decodeAidx, withPixel]

theorem asel6 (x : PixelNo) : Statement (.asel6 x) := by
  intro _
  simp [encode, decode, decodeAidx, withPixel]

theorem asel7 (x : PixelNo) : Statement (.asel7 x) := by
  intro _
  simp [encode, decode, decodeAidx, withPixel]

theorem leRead (x y : Nat) : Statement (.leRead x y) := by
  intro h
  simp only [Instr.wf] at h
  simp only [encode, seqCode, decode, decodeSeq, decodeLeRead, h, if_true]

theorem bitwin (x : List Byte) (y z : Nat) : Statement (.bitwin x y z) := by
  intro h
  simp only [Instr.wf, Bool.and_eq_true, decide_eq_true_eq] at h
  simp [encode, seqCode, decode, decodeSeq, decodeBitwin, h.1.1, h.1.2, h.2]

theorem exp565 (x : Endpoint) : Statement (.exp565 x) := by
  intro _
  simp [encode, seqCode, decode, decodeSeq, decodeExp565]

theorem cendRead (x : Nat) : Statement (.cendRead x) := by
  intro _
  simp [encode, seqCode, decode, decodeSeq, withAddress]

theorem cpal01 (x y : Endpoint) : Statement (.cpal01 x y) := by
  intro _
  simp [encode, seqCode, decode, decodeSeq, withPair]

theorem cidxUnpack (x : Word) (y : PixelNo) : Statement (.cidxUnpack x y) := by
  intro _
  simp [encode, seqCode, decode, decodeSeq, decodeCidxUnpack]

theorem decColor (x : Nat) : Statement (.decColor x) := by
  intro _
  simp [encode, seqCode, decode, decodeSeq, withAddress]

theorem anibUnpack (x : Nat) (y : PixelNo) : Statement (.anibUnpack x y) := by
  intro _
  simp [encode, seqCode, decode, decodeSeq, decodeAnibUnpack]

theorem decAlpha3 (x : Nat) : Statement (.decAlpha3 x) := by
  intro _
  simp [encode, seqCode, decode, decodeSeq, withAddress]

theorem aendRead (x : Nat) : Statement (.aendRead x) := by
  intro _
  simp [encode, seqCode, decode, decodeSeq, withAddress]

theorem aidxUnpack (x : List Byte) (y : PixelNo) : Statement (.aidxUnpack x y) := by
  intro h
  simp only [Instr.wf, decide_eq_true_eq] at h
  simp [encode, seqCode, decode, decodeSeq, decodeAidxUnpack, h]

theorem decAlpha5 (x : Nat) : Statement (.decAlpha5 x) := by
  intro _
  simp [encode, seqCode, decode, decodeSeq, withAddress]

theorem gridGeom (x y : Word) : Statement (.gridGeom x y) := by
  intro _
  simp [encode, seqCode, decode, decodeSeq, withPair]

theorem gridAddr (x y : Nat) : Statement (.gridAddr x y) := by
  intro _
  simp [encode, seqCode, decode, decodeSeq, withCoordinate]

theorem tileCopy (x y : Nat) : Statement (.tileCopy x y) := by
  intro _
  simp [encode, seqCode, decode, decodeSeq, withCoordinate]

theorem gridStep : Statement (.gridStep) := by
  intro _
  simp [encode, seqCode, decode, decodeSeq, withNone]

theorem hdrParse : Statement (.hdrParse) := by
  intro _
  simp [encode, seqCode, decode, decodeSeq, withNone]

theorem validate : Statement (.validate) := by
  intro _
  simp [encode, seqCode, decode, decodeSeq, withNone]

theorem decode : Statement (.decode) := by
  intro _
  simp [encode, seqCode, Sys2Proof.decode, decodeSeq, withNone]

end Sys2Proof.Laws.RoundTrip
end

