-- ==== Sys2Proof/Laws/Step.lean ====
section
/-! SUPPORT. What each kind of step keeps: the frame of the operations that neither run CORE nor start it, and the
invariant through each update. -/

namespace Sys2Proof.Machine

/-! ### STATUS -/

/-- STATUS in numbers (10_state.md R24). -/
theorem State.status_toNat (s : State) : s.status.toNat = s.err.toNat * 2 ^ 4 + (stateField s.phase).toNat := by
  unfold State.status
  generalize s.err = e
  generalize stateField s.phase = p
  revert e p
  decide

theorem State.busy_iff {s : State} : s.busy = true ↔ s.phase = .validate ∨ s.phase = .grid := by
  simp [State.busy]

theorem State.not_busy_iff {s : State} : s.busy = false ↔ s.phase ≠ .validate ∧ s.phase ≠ .grid := by
  simp [State.busy]

/-! ### The frame of the operations that do not move CORE -/

/-- Two states with the same memories, control state, parameters and schedule. -/
structure SameControl (s t : State) : Prop where
  cfg       : t.cfg = s.cfg
  phase     : t.phase = s.phase
  err       : t.err = s.err
  len       : t.len = s.len
  inMem     : t.inMem = s.inMem
  outMem    : t.outMem = s.outMem
  outBefore : t.outBefore = s.outBefore
  outRaced  : t.outRaced = s.outRaced
  schedule  : t.schedule = s.schedule

theorem SameControl.refl (s : State) : SameControl s s := by constructor <;> rfl

theorem SameOutside.control {s t : State} (h : SameOutside s t) : SameControl s t :=
  ⟨h.cfg, h.phase, h.err, h.len, h.inMem, h.outMem, h.outBefore, h.outRaced, h.schedule⟩

/-- The operations that run CORE, start it or write OUT. -/
def Instr.movesCore : Instr → Prop
  | .wrCtrl _ => True
  | .tileCopy _ _ => True
  | .gridStep => True
  | .validate => True
  | .decode => True
  | _ => False

theorem State.whenInExists_control {s t u : State} {a n : Nat} (h : s.whenInExists a n t = .next u)
    (ht : SameControl s t) : SameControl s u := by
  obtain ⟨-, rfl⟩ := State.whenInExists_next.mp h
  exact ht

theorem State.readEndpoints_same (s : State) (b : Nat) : SameOutside s (s.readEndpoints b) := by
  constructor <;> simp

theorem State.readAlphaEnds_same (s : State) (b : Nat) : SameOutside s (s.readAlphaEnds b) := by
  constructor <;> simp

/-- Every other operation leaves memories, control state, parameters and schedule alone. -/
theorem exec_control {i : Instr} {s t : State} (hi : ¬ Instr.movesCore i) (h : exec i s = .next t) :
    SameControl s t := by
  cases i with
  | wrCtrl => exact absurd trivial hi
  | tileCopy => exact absurd trivial hi
  | gridStep => exact absurd trivial hi
  | validate => exact absurd trivial hi
  | decode => exact absurd trivial hi
  | hawRsv write rsv offset data =>
    cases write <;> cases h <;> constructor <;> rfl
  | decDxt1 a => exact State.whenInExists_control h (s.decodeDxt1_same a).control
  | decDxt3 a => exact State.whenInExists_control h (s.decodeDxt3_same a).control
  | decDxt5 a => exact State.whenInExists_control h (s.decodeDxt5_same a).control
  | decColor b => exact State.whenInExists_control h (s.decodeColour_same b).control
  | decAlpha3 b => exact State.whenInExists_control h (s.decodeAlpha3_same b).control
  | decAlpha5 b => exact State.whenInExists_control h (s.decodeAlpha5_same b).control
  | cendRead b => exact State.whenInExists_control h (s.readEndpoints_same b).control
  | aendRead b => exact State.whenInExists_control h (s.readAlphaEnds_same b).control
  | leRead a n => exact State.whenInExists_control h (by constructor <;> rfl)
  | anibUnpack b i => exact State.whenInExists_control h (by constructor <;> rfl)
  | hdrParse => exact State.whenInExists_control h (by constructor <;> rfl)
  | _ => cases h; constructor <;> rfl

/-! ### The invariant through each update -/

/-- The invariant depends only on these fields. -/
theorem Inv.control {s t : State} (h : Inv s) (k : SameControl s t) : Inv t where
  params := by rw [k.cfg]; exact h.params
  inWf := by rw [k.inMem]; exact h.inWf
  outWf := by rw [k.outMem]; exact h.outWf
  beforeWf := by rw [k.outBefore]; exact h.beforeWf
  inBelow := by rw [k.inMem, k.cfg]; exact h.inBelow
  outBelow := by rw [k.outMem, k.cfg]; exact h.outBelow
  beforeBelow := by rw [k.outBefore, k.cfg]; exact h.beforeBelow
  err := by
    unfold State.errLegal
    rw [k.phase, k.err]
    exact h.err
  quiet := by
    unfold State.busy
    rw [k.phase, k.outBefore, k.outRaced]
    exact h.quiet
  raced := by rw [k.outRaced, k.outBefore, k.cfg]; exact h.raced

/-- The invariant does not look at the schedule. -/
theorem Inv.scheduled {s : State} (h : Inv s) (r : List Action) : Inv { s with schedule := r } :=
  ⟨h.params, h.inWf, h.outWf, h.beforeWf, h.inBelow, h.outBelow, h.beforeBelow, h.err, h.quiet, h.raced⟩

theorem Inv.raise {s : State} (h : Inv s) {e : ErrorKind} (h1 : e ≠ .ioError) (h2 : e ≠ .writeFailed) :
    Inv (s.raise e) where
  params := h.params
  inWf := h.inWf
  outWf := h.outWf
  beforeWf := List.Pairwise.nil
  inBelow := h.inBelow
  outBelow := h.outBelow
  beforeBelow := by simp [Memory.below]
  err := by
    unfold State.errLegal
    rw [State.raise_phase, if_pos rfl]
    exact errorCode_core h1 h2
  quiet := fun _ => ⟨rfl, rfl⟩
  raced := by simp

theorem Inv.acceptStart {s : State} (h : Inv s) : Inv s.acceptStart where
  params := h.params
  inWf := h.inWf
  outWf := h.outWf
  beforeWf := h.outWf
  inBelow := h.inBelow
  outBelow := h.outBelow
  beforeBelow := h.outBelow
  err := by simp [State.errLegal]
  quiet := fun hq => by simp [State.busy] at hq
  raced := fun a ha => by simp [State.acceptStart] at ha

theorem Inv.enterGrid {s : State} (h : Inv s) (hp : s.phase = .validate) : Inv s.enterGrid where
  params := h.params
  inWf := h.inWf
  outWf := h.outWf
  beforeWf := h.beforeWf
  inBelow := h.inBelow
  outBelow := h.outBelow
  beforeBelow := h.beforeBelow
  err := by
    have := h.err
    simp only [State.errLegal, hp] at this
    simpa [State.errLegal, State.enterGrid] using this
  quiet := fun hq => by simp [State.busy, State.enterGrid] at hq
  raced := h.raced

theorem State.tick_control (s : State) : SameControl s s.tick := by constructor <;> rfl

theorem State.parsedState_control (s : State) : SameControl s s.parsedState := by constructor <;> rfl

/-- VALIDATE leaves memories, parameters and schedule alone; it drops the record of a decode it ends. -/
theorem State.validateStep_frame (s : State) :
    s.validateStep.cfg = s.cfg ∧ s.validateStep.inMem = s.inMem ∧ s.validateStep.outMem = s.outMem ∧
      s.validateStep.len = s.len ∧ s.validateStep.schedule = s.schedule ∧
      (s.validateStep.phase = .error ∨ s.validateStep.phase = .grid ∧
        s.validateStep.outBefore = s.outBefore ∧ s.validateStep.outRaced = s.outRaced) := by
  rcases s.validateStep_cases with ⟨-, he⟩ | ⟨-, -, he⟩ | ⟨-, -, -, -, he⟩ | ⟨-, -, -, ⟨e, -, he⟩ | ⟨-, he⟩⟩ <;>
    rw [he]
  · exact ⟨rfl, rfl, rfl, rfl, rfl, .inl rfl⟩
  · exact ⟨rfl, rfl, rfl, rfl, rfl, .inl rfl⟩
  · exact ⟨rfl, rfl, rfl, rfl, rfl, .inl rfl⟩
  · exact ⟨rfl, rfl, rfl, rfl, rfl, .inl rfl⟩
  · exact ⟨rfl, rfl, rfl, rfl, rfl, .inr ⟨rfl, rfl, rfl⟩⟩

theorem Inv.validateStep {s : State} (h : Inv s) (hp : s.phase = .validate) : Inv s.validateStep := by
  have hq := h.control s.parsedState_control
  rcases s.validateStep_cases with ⟨-, he⟩ | ⟨-, -, he⟩ | ⟨-, -, -, -, he⟩ | ⟨-, -, -, ⟨e, hk, he⟩ | ⟨-, he⟩⟩ <;>
    rw [he]
  · exact h.raise (by decide) (by decide)
  · exact h.raise (by decide) (by decide)
  · exact h.raise (by decide) (by decide)
  · rcases State.headerError_kinds hk with rfl | rfl | rfl | rfl | rfl | rfl <;>
      exact hq.raise (by decide) (by decide)
  · exact hq.enterGrid hp

/-- A validation that passes has a legal geometry. -/
theorem State.validateStep_grid {s : State} (h : s.validateStep.phase = .grid) : GridInv s.validateStep := by
  rcases s.validateStep_cases with ⟨-, he⟩ | ⟨-, -, he⟩ | ⟨-, -, -, -, he⟩ | ⟨hl, -, -, ⟨e, -, he⟩ | ⟨hn, he⟩⟩
  · rw [he] at h; cases h
  · rw [he] at h; cases h
  · rw [he] at h; cases h
  · rw [he] at h; cases h
  · rw [he]
    exact (State.headerError_none.mp hn).gridInv hl

theorem Inv.copyTile {s : State} (h : Inv s) {cx cy : Nat} (ho : s.outExists cx cy = true) :
    Inv (s.copyTile cx cy) where
  params := h.params
  inWf := h.inWf
  outWf := Memory.writeAll_wf h.outWf _
  beforeWf := h.beforeWf
  inBelow := h.inBelow
  outBelow := Memory.writeAll_below h.outBelow (State.outExists_iff.mp ho)
  beforeBelow := h.beforeBelow
  err := h.err
  quiet := h.quiet
  raced := h.raced

theorem Inv.finish {s : State} (h : Inv s) (hp : s.phase = .grid) : Inv s.finish where
  params := h.params
  inWf := h.inWf
  outWf := State.settledOut_wf h.outWf
  beforeWf := List.Pairwise.nil
  inBelow := h.inBelow
  outBelow := State.settledOut_below h.outBelow fun a ha => (h.raced a ha).1
  beforeBelow := by simp [State.finish, Memory.below]
  err := by
    have := h.err
    simp only [State.errLegal, hp] at this
    simpa [State.errLegal, State.finish] using this
  quiet := fun _ => ⟨rfl, rfl⟩
  raced := fun a ha => by simp [State.finish] at ha

theorem Inv.advance {s : State} (h : Inv s) (hp : s.phase = .grid) : Inv s.advance := by
  rcases s.advance_cases with ⟨-, he⟩ | ⟨-, -, he⟩ | ⟨-, -, he⟩ <;> rw [he]
  · exact h.control (by constructor <;> rfl)
  · exact h.control (by constructor <;> rfl)
  · exact h.finish hp

theorem Inv.gridStep {s t : State} (h : Inv s) (he : execGridStep s = .next t) : Inv t := by
  unfold execGridStep at he
  split at he
  · rename_i hp
    obtain ⟨-, -, ho, rfl⟩ := State.stepBlock_next he
    exact ((h.control (s.gridBlock_same _ _).control).copyTile ho).advance (s.drawBlock_phase.trans hp)
  · cases he; exact h

/-- GRID.STEP leaves IN, the parameters, the length and the schedule alone. -/
theorem gridStep_frame {s t : State} (he : execGridStep s = .next t) :
    t.cfg = s.cfg ∧ t.inMem = s.inMem ∧ t.len = s.len ∧ t.regs = s.regs ∧ t.hdr = s.hdr ∧ t.geom = s.geom ∧
      t.err = s.err ∧ t.schedule = s.schedule ∧
      (t.phase = s.phase ∨ s.phase = .grid ∧ t.phase = .done) := by
  unfold execGridStep at he
  split at he
  · rename_i hp
    obtain ⟨-, -, -, rfl⟩ := State.stepBlock_next he
    rw [← s.drawBlock_cfg, ← s.drawBlock_inMem, ← s.drawBlock_len, ← s.drawBlock_regs, ← s.drawBlock_hdr,
      ← s.drawBlock_geom, ← s.drawBlock_err, ← s.drawBlock_schedule]
    have hd := s.drawBlock_phase
    rcases s.drawBlock.advance_cases with ⟨-, he⟩ | ⟨-, -, he⟩ | ⟨-, -, he⟩ <;> rw [he]
    · exact ⟨rfl, rfl, rfl, rfl, rfl, rfl, rfl, rfl, .inl hd⟩
    · exact ⟨rfl, rfl, rfl, rfl, rfl, rfl, rfl, rfl, .inl hd⟩
    · exact ⟨rfl, rfl, rfl, rfl, rfl, rfl, rfl, rfl, .inr ⟨hp, rfl⟩⟩
  · cases he
    exact ⟨rfl, rfl, rfl, rfl, rfl, rfl, rfl, rfl, .inl rfl⟩

/-- What one GRID.STEP keeps, any number of them keeps. -/
theorem gridSteps_induction {P : State → Prop} (hs : ∀ s t, P s → execGridStep s = .next t → P t) {n : Nat}
    {s t : State} (h : P s) (he : gridSteps n s = .next t) : P t := by
  induction n generalizing s with
  | zero => cases he; exact h
  | succ n ih =>
    simp only [gridSteps] at he
    split at he
    · rename_i u hu
      exact ih (hs s u h hu) he
    · cases he
    · cases he

/-- DECODE does nothing, ends in an error of VALIDATE, or takes the steps of the grid (44_container.md R255). -/
theorem execDecode_cases {s t : State} (he : execDecode s = .next t) :
    (s.busy = true ∧ t = s) ∨
    (s.busy = false ∧ s.acceptStart.validateStep.phase ≠ .grid ∧ t = s.acceptStart.validateStep) ∨
    (s.busy = false ∧ s.acceptStart.validateStep.phase = .grid ∧
      gridSteps (s.acceptStart.validateStep.geom.blocksX * s.acceptStart.validateStep.geom.blocksY)
        s.acceptStart.validateStep = .next t) := by
  simp only [execDecode] at he
  split at he
  · rename_i hb
    cases he
    exact .inl ⟨hb, rfl⟩
  · rename_i hb
    have hb : s.busy = false := by simpa using hb
    split at he
    · rename_i hg
      exact .inr (.inr ⟨hb, hg, he⟩)
    · rename_i hg
      cases he
      exact .inr (.inl ⟨hb, hg, rfl⟩)

/-- No operation touches the parameters, IN or the schedule. -/
theorem exec_frame {i : Instr} {s t : State} (he : exec i s = .next t) :
    t.cfg = s.cfg ∧ t.inMem = s.inMem ∧ t.schedule = s.schedule := by
  by_cases hi : Instr.movesCore i
  · cases i <;> first | exact absurd hi id | skip
    · rename_i data
      change execWrCtrl data s = _ at he
      unfold execWrCtrl at he
      split at he <;> cases he <;> exact ⟨rfl, rfl, rfl⟩
    · rename_i cx cy
      change execTileCopy cx cy s = _ at he
      unfold execTileCopy at he
      split at he <;> cases he
      exact ⟨rfl, rfl, rfl⟩
    · have := gridStep_frame he
      exact ⟨this.1, this.2.1, this.2.2.2.2.2.2.2.1⟩
    · change execValidate s = _ at he
      unfold execValidate at he
      split at he <;> cases he
      · have := s.validateStep_frame
        exact ⟨this.1, this.2.1, this.2.2.2.2.1⟩
      · exact ⟨rfl, rfl, rfl⟩
    · have hv := s.acceptStart.validateStep_frame
      have h0 : s.acceptStart.validateStep.cfg = s.cfg ∧ s.acceptStart.validateStep.inMem = s.inMem ∧
          s.acceptStart.validateStep.schedule = s.schedule := ⟨hv.1, hv.2.1, hv.2.2.2.2.1⟩
      rcases execDecode_cases he with ⟨-, rfl⟩ | ⟨-, -, rfl⟩ | ⟨-, -, hg⟩
      · exact ⟨rfl, rfl, rfl⟩
      · exact h0
      · refine gridSteps_induction (P := fun t => t.cfg = s.cfg ∧ t.inMem = s.inMem ∧ t.schedule = s.schedule)
          (fun a b h hh => ?_) h0 hg
        have := gridStep_frame hh
        exact ⟨this.1.trans h.1, this.2.1.trans h.2.1, this.2.2.2.2.2.2.2.1.trans h.2.2⟩
  · have := exec_control hi he
    exact ⟨this.cfg, this.inMem, this.schedule⟩

theorem Inv.decode {s t : State} (h : Inv s) (he : execDecode s = .next t) : Inv t := by
  have hv := h.acceptStart.validateStep s.acceptStart_phase
  rcases execDecode_cases he with ⟨-, rfl⟩ | ⟨-, -, rfl⟩ | ⟨-, -, hg⟩
  · exact h
  · exact hv
  · exact gridSteps_induction (P := Inv) (fun s t h he => h.gridStep he) hv hg

/-- Every operation keeps the invariant. -/
theorem Inv.exec {i : Instr} {s t : State} (h : Inv s) (he : exec i s = .next t) : Inv t := by
  by_cases hi : Instr.movesCore i
  · cases i <;> first | exact absurd hi id | skip
    · rename_i data
      change execWrCtrl data s = _ at he
      unfold execWrCtrl at he
      split at he
      · cases he; exact h.acceptStart
      · cases he; exact h
    · rename_i cx cy
      change execTileCopy cx cy s = _ at he
      unfold execTileCopy at he
      split at he
      · rename_i ho
        cases he
        exact h.copyTile ho
      · cases he
    · exact h.gridStep he
    · change execValidate s = _ at he
      unfold execValidate at he
      split at he
      · rename_i hp
        cases he
        exact h.validateStep hp
      · cases he; exact h
    · exact h.decode he
  · exact h.control (exec_control hi he)

theorem Inv.inWrite {s : State} (h : Inv s) {a : Nat} (ha : a < s.cfg.inCap) (v : Byte) :
    Inv { s with inMem := s.inMem.write a v } where
  params := h.params
  inWf := Memory.write_wf h.inWf a v
  outWf := h.outWf
  beforeWf := h.beforeWf
  inBelow := Memory.write_below h.inBelow ha v
  outBelow := h.outBelow
  beforeBelow := h.beforeBelow
  err := h.err
  quiet := h.quiet
  raced := h.raced

theorem Inv.outWrite {s : State} (h : Inv s) {a : Nat} (ha : a < s.cfg.outCap) (v : Byte) :
    Inv { s with outMem := s.outMem.write a v } where
  params := h.params
  inWf := h.inWf
  outWf := Memory.write_wf h.outWf a v
  beforeWf := h.beforeWf
  inBelow := h.inBelow
  outBelow := Memory.write_below h.outBelow ha v
  beforeBelow := h.beforeBelow
  err := h.err
  quiet := h.quiet
  raced := h.raced

theorem Inv.race {s : State} (h : Inv s) {a : Nat} (ha : a < s.cfg.outCap) (v : Byte) (hb : s.busy = true) :
    Inv { s with outBefore := s.outBefore.write a v, outRaced := a :: s.outRaced } where
  params := h.params
  inWf := h.inWf
  outWf := h.outWf
  beforeWf := Memory.write_wf h.beforeWf a v
  inBelow := h.inBelow
  outBelow := h.outBelow
  beforeBelow := Memory.write_below h.beforeBelow ha v
  err := h.err
  quiet := fun hq => absurd (hb.symm.trans hq) (by decide)
  raced := fun b hm => by
    rcases List.mem_cons.mp hm with rfl | hm
    · exact ⟨ha, by simp [Memory.lookup_write_same]⟩
    · refine ⟨(h.raced b hm).1, ?_⟩
      show ((s.outBefore.write a v).lookup b).isSome = true
      rw [Memory.lookup_write]
      split
      · rfl
      · exact (h.raced b hm).2

theorem Inv.hostOutWrite {s t : State} (h : Inv s) {a : Nat} {v : Byte} (he : hostOutWrite a v s = .next t) :
    Inv t := by
  unfold Machine.hostOutWrite at he
  split at he
  · cases he
  · rename_i ha
    have ha : a < s.cfg.outCap := by omega
    split at he
    · rename_i hb
      cases he
      split
      · exact h.race ha v hb
      · exact (h.outWrite ha v).race ha v hb
    · cases he; exact h.outWrite ha v

theorem Inv.rst {s : State} (h : Inv s) : Inv s.rst where
  params := h.params
  inWf := h.inWf
  outWf := State.abandonedOut_wf h.outWf h.beforeWf
  beforeWf := List.Pairwise.nil
  inBelow := h.inBelow
  outBelow := State.abandonedOut_below h.outBelow h.beforeBelow
  beforeBelow := by simp [State.rst, State.reset, Memory.below]
  err := by simp [State.errLegal, State.rst, State.reset]
  quiet := fun _ => ⟨rfl, rfl⟩
  raced := fun a ha => by simp [State.rst, State.reset] at ha

end Sys2Proof.Machine
end

