-- ==== Sys2Proof/Laws/Port.lean ====
section
/-! SUPPORT. What WAIT and the running decode's bytes can do, said once: the loop's turn, and that a decode has one
value for each OUT byte it writes, which is the value GRID.STEP writes. -/

namespace Sys2Proof.Machine

/-! ### WAIT -/

/-- STATE = 1 is BUSY (10_state.md R24). -/
theorem waitAgain_status (s : State) : waitAgain (s.readReg 0x04) = s.busy := by
  show waitAgain s.status = s.busy
  unfold waitAgain State.status State.busy
  generalize s.err = e
  cases s.phase <;> revert e <;> decide

/-- One turn of WAIT (30_encoding.md R114). -/
theorem hostWait_eq (s : State) :
    hostWait s = .next { s with
      ret := .word (s.readReg 0x04)
      schedule := if s.busy then loopWait s.schedule else s.schedule } := by
  simp only [hostWait, waitAgain_status]
  split <;> rfl

theorem loopWait_other {l : List Action} (h1 : l.head? ≠ some .core) (h2 : l.head? ≠ some .rst) :
    loopWait l = .core :: .wait :: l := by
  cases l with
  | nil => rfl
  | cons a l => cases a <;> simp_all [loopWait]

/-- The loop adds only itself and a turn of CORE. -/
theorem mem_loopWait {l : List Action} {a : Action} (h : a ∈ loopWait l) : a ∈ l ∨ a = .core ∨ a = .wait := by
  unfold loopWait at h
  split at h <;> simp only [List.mem_cons] at h ⊢ <;> tauto

/-! ### The bytes of a running decode -/

/-- In a legal geometry every block of the grid lies below len (20_memory.md R72). -/
theorem GridInv.block_below {s : State} (h : GridInv s) {cx cy : Nat} (hx : cx < s.geom.blocksX)
    (hy : cy < s.geom.blocksY) : s.blockAddr cx cy + blockBytesOf s.geom.variant ≤ s.len.toNat := by
  have h1 := block_in_stream (n := s.geom.blockBytes) hx hy
  have h2 := h.blocksFit
  have h4 := h.blockBytes
  rw [← h4]
  unfold State.blockAddr
  omega

/-- An OUT address of the image is a channel of an image pixel (20_memory.md R66). -/
theorem image_coordinates {w h a : Nat} (ha : a < w * h * 4) :
    a / 4 % w < w ∧ a / 4 / w < h ∧ a = outAddress w (a / 4 % w) (a / 4 / w) (a % 4) := by
  have hp : a / 4 < w * h := by omega
  have hw : 0 < w := by
    rcases Nat.eq_zero_or_pos w with rfl | hw
    · simp at hp
    · exact hw
  refine ⟨Nat.mod_lt _ hw, Nat.div_lt_of_lt_mul hp, ?_⟩
  have := Nat.div_add_mod' (a / 4) w
  unfold outAddress
  omega

/-- The pixel and channel of an OUT address of the image. -/
theorem outAddress_parts {w x y c : Nat} (hx : x < w) (hc : c < 4) :
    outAddress w x y c / 4 % w = x ∧ outAddress w x y c / 4 / w = y ∧ outAddress w x y c % 4 = c := by
  have hp : outAddress w x y c / 4 = y * w + x := by unfold outAddress; omega
  have hw : 0 < w := by omega
  rw [hp]
  refine ⟨?_, ?_, by unfold outAddress; omega⟩
  · rw [Nat.add_comm, Nat.add_mul_mod_self_right, Nat.mod_eq_of_lt hx]
  · rw [Nat.add_comm, Nat.add_mul_div_right _ _ hw, Nat.div_eq_of_lt hx, Nat.zero_add]

/-- The byte the decode writes to a channel of an image pixel (43_block_grid.md R221). -/
theorem State.imageByte_outAddress (s : State) {x y : Nat} (hx : x < s.geom.w.toNat) (c : Fin 4) :
    s.imageByte (outAddress s.geom.w.toNat x y c.val) =
      tileByte (s.gridBlock (x / 4) (y / 4)).tile (tilePixel x y) c := by
  obtain ⟨h1, h2, h3⟩ := outAddress_parts (y := y) hx c.isLt
  unfold State.imageByte
  simp only [h1, h2, h3]

theorem State.decodedByte_grid {s : State} (hp : s.phase = .grid) (a : Nat) :
    s.decodedByte a = if a < s.geom.outLen then some (s.imageByte a) else none := by
  simp only [State.decodedByte, State.runningDecode, hp]

/-- A copy puts the decode's bytes where it writes, and leaves every other byte of OUT alone (20_memory.md R74 (d)). -/
theorem State.drawBlock_readOut (s : State) (a : Nat) :
    s.drawBlock.readOut a = s.readOut a ∨ a < s.geom.outLen ∧ s.drawBlock.readOut a = s.imageByte a := by
  have hk := s.gridBlock_same s.iterX s.iterY
  have hg := hk.geom
  by_cases he : ∃ (i : PixelNo) (c : Fin 4), imageX s.iterX i < s.geom.w.toNat ∧ imageY s.iterY i < s.geom.h.toNat ∧
      a = outAddress s.geom.w.toNat (imageX s.iterX i) (imageY s.iterY i) c.val
  · obtain ⟨i, c, hx, hy, rfl⟩ := he
    refine .inr ⟨outAddress_lt hx hy c.isLt, ?_⟩
    have h := (s.gridBlock s.iterX s.iterY).copyTile_readOut_inside (cx := s.iterX) (cy := s.iterY) i c
      (by rw [hg]; exact ⟨hx, hy⟩)
    rw [hg] at h
    have hi := i.isLt
    have e1 : imageX s.iterX i / 4 = s.iterX := by unfold imageX; omega
    have e2 : imageY s.iterY i / 4 = s.iterY := by unfold imageY; omega
    have e3 : tilePixel (imageX s.iterX i) (imageY s.iterY i) = i :=
      Fin.ext (by simp only [tilePixel, imageX, imageY]; omega)
    rw [s.imageByte_outAddress hx c, e1, e2, e3]
    exact h
  · left
    have h := (s.gridBlock s.iterX s.iterY).copyTile_readOut_outside (cx := s.iterX) (cy := s.iterY) (a := a)
      (by
        rw [hg]
        intro i c hx hy ha
        exact he ⟨i, c, hx, hy, ha⟩)
    have ho : (s.gridBlock s.iterX s.iterY).readOut a = s.readOut a := by
      unfold State.readOut
      rw [hk.outMem]
    exact h.trans ho

/-- The byte a decode writes depends only on its own readings, its geometry and the bytes of IN below len, not on
the draws or on HOST's accesses (20_memory.md R74 (d)). -/
theorem GridInv.imageByte_congr {s t : State} (h : GridInv s) (hd : s.decodeDraws = t.decodeDraws)
    (hg : s.geom = t.geom) (hm : ∀ a, a < s.len.toNat → s.inMem.lookup a = t.inMem.lookup a) {a : Nat}
    (ha : a < s.geom.outLen) : s.imageByte a = t.imageByte a := by
  obtain ⟨hx, hy, -⟩ := image_coordinates ha
  have hb : ∀ {n k : Nat}, k < n → k / 4 < blocksOf n := fun h => blocksOf_le_iff.mpr (by omega)
  have hin := h.block_below (cx := a / 4 % s.geom.w.toNat / 4) (cy := a / 4 / s.geom.w.toNat / 4)
    (h.blocksX ▸ hb hx) (h.blocksY ▸ hb hy)
  unfold State.imageByte
  simp only
  rw [State.gridBlock_tile_congr hd hg h.variant fun b _ h2 => hm b (by omega), hg]

/-! ### What a pending validation depends on -/

/-- Two states whose validation and decode read the same: the same parameters, length and readings, and the same IN
below len. -/
structure SameInput (s t : State) : Prop where
  phase       : t.phase = s.phase
  cfg         : t.cfg = s.cfg
  len         : t.len = s.len
  decodeDraws : t.decodeDraws = s.decodeDraws
  inMem       : ∀ a, a < s.len.toNat → t.inMem.lookup a = s.inMem.lookup a

namespace SameInput

variable {s t : State}

theorem readIn (h : SameInput s t) {k a : Nat} (ha : a < s.len.toNat) :
    (t.atReading k).readIn a = (s.atReading k).readIn a := by
  unfold State.readIn
  rw [State.atReading_inMem, State.atReading_inMem, State.atReading_draws, State.atReading_draws, h.inMem a ha,
    h.decodeDraws]

theorem parsedHeader (h : SameInput s t) (hl : 1172 ≤ s.len.toNat) :
    (t.atReading 1).parsedHeader = (s.atReading 1).parsedHeader := by
  have hr : ∀ a, a < 1172 → (t.atReading 1).readIn a = (s.atReading 1).readIn a := fun a ha => h.readIn (by omega)
  have hf : ∀ w a n, a + n ≤ 1172 → (t.atReading 1).headerField w a n = (s.atReading 1).headerField w a n := by
    intro w a n hn
    unfold State.headerField
    rw [State.memRead_congr (s := t.atReading 1) (t := s.atReading 1) fun j hj => hr _ (by omega)]
  have hm : (fun j : Fin 4 => (t.atReading 1).readIn j.val) = fun j => (s.atReading 1).readIn j.val :=
    funext fun j => hr _ (by omega)
  have ht : ∀ {n : Nat} (base : Nat), base + 4 * n ≤ 1172 →
      (fun j : Fin n => (t.atReading 1).headerField 32 (base + 4 * j.val) 4) =
        fun j => (s.atReading 1).headerField 32 (base + 4 * j.val) 4 :=
    fun base hb => funext fun j => hf _ _ _ (by omega)
  unfold State.parsedHeader
  rw [hm, ht (n := 16) 20 (by omega), ht (n := 16) 84 (by omega), ht (n := 256) 148 (by omega),
    hf 32 4 4 (by omega), hf 32 12 4 (by omega), hf 32 16 4 (by omega), hr 8 (by omega), hr 9 (by omega),
    hr 10 (by omega), hr 11 (by omega)]

theorem headerError (h : SameInput s t) (hl : 1172 ≤ s.len.toNat) :
    t.parsedState.headerError = s.parsedState.headerError := by
  unfold State.headerError
  simp only [State.parsedState_hdr, State.parsedState_len, State.parsedState_cfg, h.parsedHeader hl, h.len, h.cfg]

/-- The validation ends alike and latches the same geometry. -/
theorem validateStep (h : SameInput s t) :
    t.validateStep.phase = s.validateStep.phase ∧
      (s.validateStep.phase = .grid → t.validateStep.geom = s.validateStep.geom) := by
  have hm : 4 ≤ s.len.toNat → (t.atReading 0).magicMatches = (s.atReading 0).magicMatches := by
    intro h4
    unfold State.magicMatches
    rw [h.readIn (by omega), h.readIn (by omega), h.readIn (by omega), h.readIn (by omega)]
  unfold State.validateStep
  rw [h.cfg, h.len]
  by_cases h1 : s.cfg.inCap < s.len.toNat
  · simp [h1]
  · simp only [h1, if_false]
    by_cases h4 : s.len.toNat < 4
    · simp [h4]
    · rw [hm (by omega)]
      by_cases h2 : s.len.toNat < 4 ∨ (s.atReading 0).magicMatches = false
      · simp [h2]
      · simp only [h2, if_false]
        by_cases h3 : s.len.toNat < hdrSize
        · simp [h3]
        · simp only [h3, if_false]
          have h3 : 1172 ≤ s.len.toNat := Nat.not_lt.mp h3
          unfold State.checkHeader
          rw [h.headerError h3]
          cases s.parsedState.headerError with
          | some e => simp
          | none =>
            refine ⟨rfl, fun _ => ?_⟩
            show t.parsedState.hdr.geometry = s.parsedState.hdr.geometry
            rw [State.parsedState_hdr, State.parsedState_hdr, h.parsedHeader h3]

end SameInput

end Sys2Proof.Machine
end

