-- ==== Sys2Proof/Laws/Reframe.lean ====
section
/-! SUPPORT. The operations do not look at the schedule or at the number of block lanes: they commute with changing
both. -/

namespace Sys2Proof.Machine

/-- The machine with another number of block lanes and another schedule. -/
def State.reframe (s : State) (n : Nat) (r : List Action) : State :=
  { s with cfg := { s.cfg with nLanes := n }, schedule := r }

theorem State.withLanes_eq_reframe (s : State) (n : Nat) : s.withLanes n = s.reframe n s.schedule := rfl

theorem State.reframe_lanes (s : State) (r : List Action) :
    s.reframe s.cfg.nLanes r = { s with schedule := r } := rfl

variable (s : State) (n : Nat) (r : List Action)

@[simp] theorem State.reframe_reframe (m : Nat) (q : List Action) :
    (s.reframe m q).reframe n r = s.reframe n r := rfl

@[simp] theorem State.reframe_phase : (s.reframe n r).phase = s.phase := rfl
@[simp] theorem State.reframe_busy : (s.reframe n r).busy = s.busy := rfl
@[simp] theorem State.reframe_geom : (s.reframe n r).geom = s.geom := rfl
@[simp] theorem State.reframe_tile : (s.reframe n r).tile = s.tile := rfl
@[simp] theorem State.reframe_schedule : (s.reframe n r).schedule = r := rfl
@[simp] theorem State.reframe_readReg (o : Byte) : (s.reframe n r).readReg o = s.readReg o := rfl
@[simp] theorem State.reframe_readIn (a : Nat) : (s.reframe n r).readIn a = s.readIn a := rfl
@[simp] theorem State.reframe_readOut (a : Nat) : (s.reframe n r).readOut a = s.readOut a := rfl
@[simp] theorem State.reframe_readBefore (a : Nat) : (s.reframe n r).readBefore a = s.readBefore a := rfl
@[simp] theorem State.reframe_inExists (a k : Nat) : (s.reframe n r).inExists a k = s.inExists a k := rfl

@[simp] theorem State.reframe_memRead (a k : Nat) : (s.reframe n r).memRead a k = s.memRead a k :=
  State.memRead_congr fun _ _ => rfl

theorem State.reframe_whenInExists {t u : State} (a k : Nat) (h : u = t.reframe n r) :
    (s.reframe n r).whenInExists a k u = mapNext (fun t => t.reframe n r) (s.whenInExists a k t) := by
  subst h
  unfold State.whenInExists
  rw [State.reframe_inExists]
  split <;> rfl

theorem State.reframe_tick : (s.reframe n r).tick = s.tick.reframe n r := rfl

theorem State.reframe_raise (e : ErrorKind) : (s.reframe n r).raise e = (s.raise e).reframe n r := rfl

theorem State.reframe_acceptStart : (s.reframe n r).acceptStart = s.acceptStart.reframe n r := rfl

theorem State.reframe_readEndpoints (b : Nat) :
    (s.reframe n r).readEndpoints b = (s.readEndpoints b).reframe n r := by
  simp only [State.readEndpoints, State.reframe_memRead]
  rfl

theorem State.reframe_readAlpha64 (b : Nat) : (s.reframe n r).readAlpha64 b = (s.readAlpha64 b).reframe n r := by
  simp only [State.readAlpha64, State.reframe_memRead]
  rfl

theorem State.reframe_readAlphaEnds (b : Nat) :
    (s.reframe n r).readAlphaEnds b = (s.readAlphaEnds b).reframe n r := by
  simp only [State.readAlphaEnds, State.reframe_memRead, State.reframe_readIn]
  rfl

/-- A fold of updates that commute commutes. -/
theorem State.reframe_foldl {α : Type} {f : State → α → State}
    (hf : ∀ s a, f (s.reframe n r) a = (f s a).reframe n r) (l : List α) :
    l.foldl f (s.reframe n r) = (l.foldl f s).reframe n r := by
  induction l generalizing s with
  | nil => rfl
  | cons a l ih => rw [List.foldl_cons, List.foldl_cons, hf, ih]

theorem State.reframe_loadPalette (b : Nat) :
    (s.reframe n r).loadPalette b = (s.loadPalette b).reframe n r := by
  rw [State.loadPalette_eq, State.loadPalette_eq, State.reframe_readEndpoints]
  rfl

theorem State.reframe_decodeColour (b : Nat) :
    (s.reframe n r).decodeColour b = (s.decodeColour b).reframe n r := by
  unfold State.decodeColour State.selectColours
  rw [State.reframe_loadPalette]
  exact State.reframe_foldl _ n r (fun _ _ => rfl) _

theorem State.reframe_decodeAlpha3 (b : Nat) :
    (s.reframe n r).decodeAlpha3 b = (s.decodeAlpha3 b).reframe n r := by
  unfold State.decodeAlpha3
  rw [State.reframe_readAlpha64]
  exact State.reframe_foldl _ n r (fun _ _ => rfl) _

theorem State.reframe_loadAlphaTable (b : Nat) :
    (s.reframe n r).loadAlphaTable b = (s.loadAlphaTable b).reframe n r := by
  rw [State.loadAlphaTable_eq, State.loadAlphaTable_eq, State.reframe_readAlphaEnds, State.reframe_readIn,
    State.reframe_readIn]
  rfl

theorem State.reframe_decodeAlpha5 (b : Nat) :
    (s.reframe n r).decodeAlpha5 b = (s.decodeAlpha5 b).reframe n r := by
  unfold State.decodeAlpha5 State.selectAlphas
  rw [State.reframe_loadAlphaTable]
  exact State.reframe_foldl _ n r (fun _ _ => rfl) _

theorem State.reframe_decodeDxt3 (a : Nat) : (s.reframe n r).decodeDxt3 a = (s.decodeDxt3 a).reframe n r := by
  unfold State.decodeDxt3
  rw [State.reframe_decodeColour, State.reframe_decodeAlpha3]

theorem State.reframe_decodeDxt5 (a : Nat) : (s.reframe n r).decodeDxt5 a = (s.decodeDxt5 a).reframe n r := by
  unfold State.decodeDxt5
  rw [State.reframe_decodeColour, State.reframe_decodeAlpha5]

theorem State.reframe_decodeBlock (a : Nat) : (s.reframe n r).decodeBlock a = (s.decodeBlock a).reframe n r := by
  unfold State.decodeBlock
  rw [State.reframe_geom]
  split
  · rfl
  · exact s.reframe_decodeColour n r a
  · exact s.reframe_decodeDxt3 n r a
  · exact s.reframe_decodeDxt5 n r a

theorem State.reframe_gridBlock (cx cy : Nat) : (s.reframe n r).gridBlock cx cy = (s.gridBlock cx cy).reframe n r := by
  have h := (s.blockReading cx cy).reframe_decodeBlock n r (s.blockAddr cx cy)
  exact congrArg (fun t : State => { t with draws := s.draws }) h

theorem State.reframe_copyTile (cx cy : Nat) : (s.reframe n r).copyTile cx cy = (s.copyTile cx cy).reframe n r := rfl

@[simp] theorem State.reframe_outExists (cx cy : Nat) : (s.reframe n r).outExists cx cy = s.outExists cx cy := rfl

theorem State.reframe_advance : (s.reframe n r).advance = s.advance.reframe n r := by
  unfold State.advance
  split
  · rename_i h
    rw [if_pos (show s.iterX + 1 < s.geom.blocksX from h)]
    rfl
  · rename_i h
    rw [if_neg (show ¬ s.iterX + 1 < s.geom.blocksX from h)]
    split
    · rename_i h
      rw [if_pos (show s.iterY + 1 < s.geom.blocksY from h)]
      rfl
    · rename_i h
      rw [if_neg (show ¬ s.iterY + 1 < s.geom.blocksY from h)]
      rfl

theorem State.reframe_drawBlock : (s.reframe n r).drawBlock = s.drawBlock.reframe n r := by
  show ((s.reframe n r).gridBlock s.iterX s.iterY).copyTile s.iterX s.iterY = _
  rw [State.reframe_gridBlock, State.reframe_copyTile]
  rfl

theorem State.reframe_stepBlock :
    (s.reframe n r).stepBlock = mapNext (fun t => t.reframe n r) s.stepBlock := by
  have he : (s.reframe n r).drawBlock.advance = s.drawBlock.advance.reframe n r := by
    rw [State.reframe_drawBlock, State.reframe_advance]
  have ho : ((s.reframe n r).gridBlock s.iterX s.iterY).outExists s.iterX s.iterY =
      (s.gridBlock s.iterX s.iterY).outExists s.iterX s.iterY := by
    rw [State.reframe_gridBlock, State.reframe_outExists]
  unfold State.stepBlock
  show (if s.geom.variant = .none then _ else
    if s.inExists (s.blockAddr s.iterX s.iterY) (blockBytesOf s.geom.variant) = false then _ else
    if ((s.reframe n r).gridBlock s.iterX s.iterY).outExists s.iterX s.iterY = false then _ else
      Host.Outcome.next (s.reframe n r).drawBlock.advance) = _
  rw [he, ho]
  dsimp only
  split
  · rfl
  · split
    · rfl
    · split
      · rfl
      · rfl

theorem State.reframe_gridStep :
    execGridStep (s.reframe n r) = mapNext (fun t => t.reframe n r) (execGridStep s) := by
  unfold execGridStep
  rw [State.reframe_phase]
  split
  · exact s.reframe_stepBlock n r
  · rfl

theorem gridSteps_reframe (k : Nat) :
    gridSteps k (s.reframe n r) = mapNext (fun t => t.reframe n r) (gridSteps k s) := by
  induction k generalizing s with
  | zero => rfl
  | succ k ih =>
    unfold gridSteps
    rw [State.reframe_gridStep]
    cases execGridStep s with
    | next t => exact ih t
    | fault f => rfl
    | refused f => rfl

theorem State.reframe_parsedHeader : (s.reframe n r).parsedHeader = s.parsedHeader := by
  simp only [State.parsedHeader, State.headerField, State.reframe_memRead, State.reframe_readIn]

theorem State.reframe_parseHeader : (s.reframe n r).parseHeader = s.parseHeader.reframe n r := by
  unfold State.parseHeader
  rw [State.reframe_parsedHeader]
  rfl

theorem State.reframe_parsedState : (s.reframe n r).parsedState = s.parsedState.reframe n r := by
  have h := (s.atReading 1).reframe_parsedHeader n r
  exact congrArg (fun d : Header => State.latchHeader { s.reframe n r with hdr := d }) h

theorem State.reframe_checkHeader : (s.reframe n r).checkHeader = s.checkHeader.reframe n r := by
  unfold State.checkHeader
  rw [show (s.reframe n r).headerError = s.headerError from rfl]
  split <;> rfl

theorem State.reframe_validateStep : (s.reframe n r).validateStep = s.validateStep.reframe n r := by
  unfold State.validateStep
  have hp : (s.reframe n r).parsedState.checkHeader = s.parsedState.checkHeader.reframe n r := by
    rw [State.reframe_parsedState, State.reframe_checkHeader]
  rw [hp]
  show (if s.cfg.inCap < s.len.toNat then _ else if s.len.toNat < 4 ∨ (s.atReading 0).magicMatches = false then _ else
    if s.len.toNat < hdrSize then _ else _) = _
  split
  · rfl
  · split
    · rfl
    · split
      · rfl
      · rfl

theorem State.reframe_decode : execDecode (s.reframe n r) = mapNext (fun t => t.reframe n r) (execDecode s) := by
  unfold execDecode
  rw [State.reframe_busy, State.reframe_acceptStart, State.reframe_validateStep]
  dsimp only
  split
  · rfl
  · rw [State.reframe_phase]
    split
    · exact gridSteps_reframe _ n r _
    · rfl

theorem State.reframe_runningDecode :
    (s.reframe n r).runningDecode = s.runningDecode.map fun g => g.reframe n r := by
  unfold State.runningDecode
  rw [State.reframe_phase, State.reframe_validateStep]
  split
  · rfl
  · rw [State.reframe_phase]
    split <;> rfl
  · rfl
  · rfl
  · rfl

theorem State.reframe_imageByte (a : Nat) : (s.reframe n r).imageByte a = s.imageByte a := by
  have h : ∀ cx cy, ((s.reframe n r).gridBlock cx cy).tile = (s.gridBlock cx cy).tile := fun cx cy => by
    rw [State.reframe_gridBlock, State.reframe_tile]
  exact congrArg (fun t => tileByte t _ _) (h _ _)

theorem State.reframe_decodedByte (a : Nat) : (s.reframe n r).decodedByte a = s.decodedByte a := by
  unfold State.decodedByte
  rw [State.reframe_runningDecode]
  cases s.runningDecode with
  | none => rfl
  | some g =>
    dsimp only [Option.map_some]
    rw [State.reframe_geom, State.reframe_imageByte]

theorem State.reframe_abandonedOut : (s.reframe n r).abandonedOut = s.abandonedOut := by
  unfold State.abandonedOut
  rw [State.reframe_runningDecode]
  cases s.runningDecode with
  | none => rfl
  | some g =>
    dsimp only [Option.map_some]
    simp only [State.reframe_geom, State.reframe_imageByte]
    rfl

/-- No operation looks at the schedule or at the number of lanes. -/
theorem exec_reframe (i : Instr) :
    exec i (s.reframe n r) = mapNext (fun t => t.reframe n r) (exec i s) := by
  cases i with
  | hawRsv write rsv offset data => cases write <;> rfl
  | wrCtrl data =>
    show execWrCtrl data (s.reframe n r) = mapNext _ (execWrCtrl data s)
    unfold execWrCtrl
    rw [State.reframe_busy]
    split <;> rfl
  | decDxt1 a => exact s.reframe_whenInExists n r a 8 (s.reframe_decodeColour n r a)
  | decDxt3 a => exact s.reframe_whenInExists n r a 16 (s.reframe_decodeDxt3 n r a)
  | decDxt5 a => exact s.reframe_whenInExists n r a 16 (s.reframe_decodeDxt5 n r a)
  | decColor b => exact s.reframe_whenInExists n r b 8 (s.reframe_decodeColour n r b)
  | decAlpha3 b => exact s.reframe_whenInExists n r b 8 (s.reframe_decodeAlpha3 n r b)
  | decAlpha5 b => exact s.reframe_whenInExists n r b 8 (s.reframe_decodeAlpha5 n r b)
  | cendRead b => exact s.reframe_whenInExists n r b 8 (s.reframe_readEndpoints n r b)
  | aendRead b => exact s.reframe_whenInExists n r b 8 (s.reframe_readAlphaEnds n r b)
  | leRead a k =>
    refine s.reframe_whenInExists n r a k ?_
    rw [State.reframe_memRead]
    rfl
  | anibUnpack b i =>
    refine s.reframe_whenInExists n r b 8 ?_
    rw [State.reframe_memRead]
    rfl
  | hdrParse => exact s.reframe_whenInExists n r 0 hdrSize (s.reframe_parseHeader n r)
  | tileCopy cx cy =>
    show execTileCopy cx cy (s.reframe n r) = mapNext _ (execTileCopy cx cy s)
    unfold execTileCopy
    rw [State.reframe_outExists]
    split <;> rfl
  | gridStep => exact s.reframe_gridStep n r
  | validate =>
    show execValidate (s.reframe n r) = mapNext _ (execValidate s)
    unfold execValidate
    rw [State.reframe_phase, State.reframe_validateStep]
    split <;> rfl
  | decode => exact s.reframe_decode n r
  | _ => rfl

end Sys2Proof.Machine
end

