-- ==== Sys2Proof/Tests/Slice0.lean ====
section
/-! SUPPORT. The model's own tests. Expected results are the spec's: the words of 30_encoding.md and of the opcode
table, the vectors of 95_test_vectors.md (its section is named), or a hand calculation from the rule named. -/

namespace Sys2Proof.Tests

open Sys2Proof.Machine

set_option Elab.async false

/-! ## WellFormed: one ill-formed term for each check -/

theorem test_wf_hawRsv_refuses_clear_reserved_bits : (Instr.hawRsv true 0 0 1).wf = false := by decide
theorem test_wf_wrIgn_refuses_ctrl : (Instr.wrIgn 0x00 1).wf = false := by decide
theorem test_wf_wrIgn_refuses_file_len_lo : (Instr.wrIgn 0x08 1).wf = false := by decide
theorem test_wf_wrIgn_refuses_file_len_hi : (Instr.wrIgn 0x0C 1).wf = false := by decide
theorem test_wf_cmode4_refuses_equal_endpoints : (Instr.cmode4 0xF800 0xF800).wf = false := by decide
theorem test_wf_cmode3_refuses_descending_endpoints : (Instr.cmode3 0xF800 0x001F).wf = false := by decide
theorem test_wf_amode8_refuses_equal_endpoints : (Instr.amode8 100 100).wf = false := by decide
theorem test_wf_amode6_refuses_descending_endpoints : (Instr.amode6 255 254).wf = false := by decide
theorem test_wf_leRead_refuses_three_bytes : (Instr.leRead 0 3).wf = false := by decide
theorem test_wf_bitwin_refuses_no_bits : (Instr.bitwin [0xD0] 0 0).wf = false := by decide
theorem test_wf_bitwin_refuses_nine_bits : (Instr.bitwin [0xD0, 0x58] 0 9).wf = false := by decide
theorem test_wf_bitwin_refuses_the_end : (Instr.bitwin [0xD0] 6 3).wf = false := by decide
theorem test_wf_aidxUnpack_refuses_five_bytes : (Instr.aidxUnpack [0, 0, 0, 0, 0] 0).wf = false := by decide

/-! ## Decoding: words written out from the encodings -/

theorem test_decode_hawRsv : decode ⟨.haw, 0x810000000001, []⟩ = .ok (.hawRsv true 1 0 1) := by decide
theorem test_decode_rd : decode ⟨.haw, 0x000400000000, []⟩ = .ok (.rd 0x04 0) := by decide
theorem test_decode_wrCtrl : decode ⟨.haw, 0x800000000001, []⟩ = .ok (.wrCtrl 1) := by decide
theorem test_decode_wrFlenLo : decode ⟨.haw, 0x80080000049C, []⟩ = .ok (.wrFlenLo 1180) := by decide
theorem test_decode_wrFlenHi : decode ⟨.haw, 0x800C00000000, []⟩ = .ok (.wrFlenHi 0) := by decide
theorem test_decode_wrIgn : decode ⟨.haw, 0x800400000000, []⟩ = .ok (.wrIgn 0x04 0) := by decide
theorem test_decode_decDxt1 : decode ⟨.hdrsel, 0x000000010200, [1172]⟩ = .ok (.decDxt1 1172) := by decide
theorem test_decode_decDxt3 : decode ⟨.hdrsel, 0x000000010201, [1172]⟩ = .ok (.decDxt3 1172) := by decide
theorem test_decode_decDxt5 : decode ⟨.hdrsel, 0x000000010207, [1172]⟩ = .ok (.decDxt5 1172) := by decide
theorem test_decode_cmode4 : decode ⟨.predColour, 0x001FF800, []⟩ = .ok (.cmode4 0xF800 0x001F) := by decide
theorem test_decode_cmode3 : decode ⟨.predColour, 0xF800001F, []⟩ = .ok (.cmode3 0x001F 0xF800) := by decide
theorem test_decode_csel0 : decode ⟨.cidx2, 0, [15]⟩ = .ok (.csel0 15) := by decide
theorem test_decode_csel1 : decode ⟨.cidx2, 1, [14]⟩ = .ok (.csel1 14) := by decide
theorem test_decode_csel2 : decode ⟨.cidx2, 2, [13]⟩ = .ok (.csel2 13) := by decide
theorem test_decode_csel3 : decode ⟨.cidx2, 3, [12]⟩ = .ok (.csel3 12) := by decide
theorem test_decode_aexp4 : decode ⟨.nib4, 0xA, []⟩ = .ok (.aexp4 0xA) := by decide
theorem test_decode_amode8 : decode ⟨.predAlpha, 0x64C8, []⟩ = .ok (.amode8 200 100) := by decide
theorem test_decode_amode6 : decode ⟨.predAlpha, 0x0703, []⟩ = .ok (.amode6 3 7) := by decide
theorem test_decode_asel0 : decode ⟨.aidx3, 0, [8]⟩ = .ok (.asel0 8) := by decide
theorem test_decode_asel1 : decode ⟨.aidx3, 1, [9]⟩ = .ok (.asel1 9) := by decide
theorem test_decode_asel2 : decode ⟨.aidx3, 2, [10]⟩ = .ok (.asel2 10) := by decide
theorem test_decode_asel3 : decode ⟨.aidx3, 3, [11]⟩ = .ok (.asel3 11) := by decide
theorem test_decode_asel4 : decode ⟨.aidx3, 4, [12]⟩ = .ok (.asel4 12) := by decide
theorem test_decode_asel5 : decode ⟨.aidx3, 5, [13]⟩ = .ok (.asel5 13) := by decide
theorem test_decode_asel6 : decode ⟨.aidx3, 6, [14]⟩ = .ok (.asel6 14) := by decide
theorem test_decode_asel7 : decode ⟨.aidx3, 7, [15]⟩ = .ok (.asel7 15) := by decide
theorem test_decode_leRead : decode ⟨.seq .leRead, 0, [20, 4]⟩ = .ok (.leRead 20 4) := by decide
theorem test_decode_bitwin :
    decode ⟨.seq .bitwin, 0, [6, 3, 0xD0, 0x58]⟩ = .ok (.bitwin [0xD0, 0x58] 6 3) := by decide
theorem test_decode_exp565 : decode ⟨.seq .exp565, 0, [0x07E0]⟩ = .ok (.exp565 0x07E0) := by decide
theorem test_decode_cendRead : decode ⟨.seq .cendRead, 0, [1172]⟩ = .ok (.cendRead 1172) := by decide
theorem test_decode_cpal01 : decode ⟨.seq .cpal01, 0, [0xFFFF, 0]⟩ = .ok (.cpal01 0xFFFF 0) := by decide
theorem test_decode_cidxUnpack :
    decode ⟨.seq .cidxUnpack, 0, [0xFF000000, 12]⟩ = .ok (.cidxUnpack 0xFF000000 12) := by decide
theorem test_decode_decColor : decode ⟨.seq .decColor, 0, [1180]⟩ = .ok (.decColor 1180) := by decide
theorem test_decode_anibUnpack : decode ⟨.seq .anibUnpack, 0, [1172, 1]⟩ = .ok (.anibUnpack 1172 1) := by decide
theorem test_decode_decAlpha3 : decode ⟨.seq .decAlpha3, 0, [1172]⟩ = .ok (.decAlpha3 1172) := by decide
theorem test_decode_aendRead : decode ⟨.seq .aendRead, 0, [1172]⟩ = .ok (.aendRead 1172) := by decide
theorem test_decode_aidxUnpack :
    decode ⟨.seq .aidxUnpack, 0, [2, 0xD0, 0x58, 0x3F, 0xD0, 0x58, 0x3F]⟩ = .ok (.aidxUnpack [0xD0, 0x58, 0x3F, 0xD0, 0x58, 0x3F] 2) := by decide
theorem test_decode_decAlpha5 : decode ⟨.seq .decAlpha5, 0, [1172]⟩ = .ok (.decAlpha5 1172) := by decide
theorem test_decode_gridGeom : decode ⟨.seq .gridGeom, 0, [5, 3]⟩ = .ok (.gridGeom 5 3) := by decide
theorem test_decode_gridAddr : decode ⟨.seq .gridAddr, 0, [2, 1]⟩ = .ok (.gridAddr 2 1) := by decide
theorem test_decode_tileCopy : decode ⟨.seq .tileCopy, 0, [1, 0]⟩ = .ok (.tileCopy 1 0) := by decide
theorem test_decode_gridStep : decode ⟨.seq .gridStep, 0, []⟩ = .ok .gridStep := by decide
theorem test_decode_hdrParse : decode ⟨.seq .hdrParse, 0, []⟩ = .ok .hdrParse := by decide
theorem test_decode_validate : decode ⟨.seq .validate, 0, []⟩ = .ok .validate := by decide
theorem test_decode_decode : decode ⟨.seq .decode, 0, []⟩ = .ok .decode := by decide

/-- R111: BLP2's alpha kind 8 belongs to no block decoder. -/
theorem test_decode_rejects_alpha_kind_8 : decode ⟨.hdrsel, 0x000000010208, [0]⟩ = .error .rejectedSelector := by
  decide
theorem test_decode_rejects_a_wide_colour_index : decode ⟨.cidx2, 4, [0]⟩ = .error .wordTooWide := by decide
theorem test_decode_rejects_pixel_16 : decode ⟨.aidx3, 0, [16]⟩ = .error .operandRange := by decide
theorem test_decode_rejects_a_missing_operand : decode ⟨.seq .decColor, 0, []⟩ = .error .operandCount := by decide
/-- The host's table words: 48 bits are a host access word, 32 two colour endpoints, 16 two alpha endpoints. -/
theorem test_decodeTableWord :
    decodeTableWord 48 0x80080000049C = some (.wrFlenLo 1180) ∧
    decodeTableWord 48 0x000000010207 = some (.decDxt5 0) ∧
    decodeTableWord 32 0x001FF800 = some (.cmode4 0xF800 0x001F) ∧
    decodeTableWord 16 0x0703 = some (.amode6 3 7) ∧
    decodeTableWord 8 3 = some (.csel3 0) ∧ decodeTableWord 8 6 = some (.asel6 0) ∧
    decodeTableWord 8 8 = some (.aexp4 8) := by decide

/-! ## States for the tests -/

/-- Bytes from an address on. -/
def bytesAt (a : Nat) (bytes : List Byte) : Memory := bytes.mapIdx fun j v => (a + j, v)

/-- The reset state with bytes in IN. -/
def withIn (a : Nat) (bytes : List Byte) : State := { State.reset with inMem := bytesAt a bytes }

/-- Header bytes 0 to 23 of a file with type 1 and mip offset 1172. -/
def header (compression depth kind mips w h : Byte) : List Byte :=
  [0x42, 0x4C, 0x50, 0x32, 1, 0, 0, 0, compression, depth, kind, mips, w, 0, 0, 0, h, 0, 0, 0, 0x94, 4, 0, 0]

/-- A file in IN: its first 24 bytes, mip length and blocks, validating with its length. -/
def validating (head : List Byte) (length : Byte) (blocks : List Byte) (len : BitVec 64) : State :=
  { State.reset with
    inMem := bytesAt 0 head ++ bytesAt 84 [length, 0, 0, 0] ++ bytesAt 1172 blocks
    phase := .validate
    len := len }

/-- The red DXT1 block of scenario 1. -/
def redBlock : List Byte := [0x00, 0xF8, 0x00, 0xF8, 0, 0, 0, 0]

/-- The file of program P1. -/
def p1 : State := validating (header 2 0 0 0 4 4) 8 redBlock 1180

/-- P1 before its START. -/
def p1Loaded : State :=
  { p1 with phase := .idle, len := 0, regs := { Regs.reset with fileLenLo := 1180 } }

/-- P2 in GRID. -/
def p2Grid : State :=
  { State.reset with
    inMem := bytesAt 1172 ([0x10, 0x32, 0x54, 0x76, 0x98, 0xBA, 0xDC, 0xFE, 0x00, 0xF8, 0x00, 0xF8, 0, 0, 0, 0] ++
      [0xFF, 0xFF, 0xFF, 0xFF, 0xFF, 0xFF, 0xFF, 0xFF, 0x1F, 0, 0, 0, 0, 0, 0, 0])
    phase := .grid
    len := 1204
    geom := ⟨.dxt3, 16, 2, 1, 1172, 5, 3⟩
    regs := { Regs.reset with variant := 2, blocksX := 2, blocksY := 1 } }

/-- A DXT1 decode of 9 by 9 pixels at a block. -/
def nine (x y : Nat) : State :=
  { State.reset with
    phase := .grid
    len := 1244
    hdr := { Header.reset with mipLengths := (Vector.replicate 16 0).set 0 72 }
    geom := ⟨.dxt1, 8, 3, 3, 1172, 9, 9⟩
    regs := { Regs.reset with variant := 1, blocksX := 3, blocksY := 3 }
    iterX := x
    iterY := y }

/-- A field of the next state. -/
def after {α : Type} (i : Instr) (s : State) (f : State → α) : Option α := (nextState (exec i s)).map f

/-- The four bytes of a tile pixel. -/
def tilePixelOf (s : State) (i : PixelNo) : List Byte :=
  [tileByte s.tile i 0, tileByte s.tile i 1, tileByte s.tile i 2, tileByte s.tile i 3]

/-- The alpha byte of a tile pixel. -/
def alphaOf (s : State) (i : PixelNo) : Byte := tileByte s.tile i 3

/-! ## Host accesses (95_test_vectors.md 2.6) -/

theorem test_hawRsv_write_does_nothing : exec (.hawRsv true 1 0 1) p1Loaded = .next p1Loaded := rfl
theorem test_hawRsv_read_returns_zero :
    after (.hawRsv false 0x7F 0x04 0) { State.reset with phase := .done } (·.ret) = some (.word 0) := by decide +kernel
/-- Section 2.5: STATUS 0x93 is CapacityExceeded in ERROR. -/
theorem test_rd_status :
    after (.rd 0x04 0) { State.reset with phase := .error, err := 9 } (·.ret) = some (.word 0x93) := by decide +kernel
theorem test_rd_misaligned : after (.rd 0x02 0) { State.reset with err := 9 } (·.ret) = some (.word 0) := by
  decide +kernel
theorem test_wrCtrl_starts :
    after (.wrCtrl 1) p1Loaded (fun t => (t.phase, t.len, t.regs.fileLenLo)) = some (.validate, 1180, 1180) := by
  decide +kernel
/-- DATA 0xFFFFFFFE: bit 0 is clear. -/
theorem test_wrCtrl_needs_bit_0 : after (.wrCtrl 0xFFFFFFFE) p1Loaded (·.phase) = some .idle := by decide +kernel
theorem test_wrFlenLo : after (.wrFlenLo 1180) State.reset (·.fileLen) = some 1180 := by decide +kernel
/-- R25: FILE_LEN is FILE_LEN_HI * 2^32 + FILE_LEN_LO. -/
theorem test_wrFlenHi : after (.wrFlenHi 1) p1Loaded (·.fileLen) = some 4294968476 := by decide +kernel
theorem test_wrIgn_does_nothing : exec (.wrIgn 0x01 1) p1Loaded = .next p1Loaded := rfl

/-! ## Readers (2.1) -/

theorem test_leRead_is_little_endian :
    after (.leRead 20 4) (withIn 20 [0x94, 0x04, 0, 0]) (·.ret) = some (.value 1172) := by decide +kernel
theorem test_leRead_eight_bytes :
    after (.leRead 4088 8) (withIn 4088 [0x10, 0x32, 0x54, 0x76, 0x98, 0xBA, 0xDC, 0xFE]) (·.ret) =
      some (.value 0xFEDCBA9876543210) := by decide +kernel
/-- Pixel 2: p = 6, across the seam. -/
theorem test_bitwin_crosses : after (.bitwin [0xD0, 0x58] 6 3) State.reset (·.ret) = some (.value 3) := by
  decide +kernel
/-- Pixel 15: p = 45 does not read past byte 5. -/
theorem test_bitwin_last :
    after (.bitwin [0xD0, 0x58, 0x3F, 0xD0, 0x58, 0x3F] 45 3) State.reset (·.ret) = some (.value 1) := by
  decide +kernel

/-! ## Colour blocks (2.2) -/

theorem test_exp565_white : after (.exp565 0xFFFF) State.reset (·.ret) = some (.rgb 248 252 248) := by decide +kernel
theorem test_exp565_lowest_bits : after (.exp565 0x0821) State.reset (·.ret) = some (.rgb 8 4 8) := by decide +kernel
theorem test_cendRead :
    after (.cendRead 8) (withIn 8 [0x00, 0xF8, 0x1F, 0x00, 0x00, 0x00, 0x00, 0xFF])
      (fun t => (t.c0, t.c1, t.idxw)) = some (0xF800, 0x001F, 0xFF000000) := by decide +kernel
theorem test_cpal01 :
    after (.cpal01 0xF800 0x001F) State.reset (fun t => (t.pal[0], t.pal[1])) =
      some (⟨248, 0, 0, 255⟩, ⟨0, 0, 248, 255⟩) := by decide +kernel

/-- A state with palette slots 0 and 1. -/
def withSlots (p q : Pixel) : State :=
  { State.reset with pal := #v[p, q, ⟨0, 0, 0, 0⟩, ⟨0, 0, 0, 0⟩] }

theorem test_cmode4_truncates :
    after (.cmode4 0x0821 0) (withSlots ⟨8, 4, 8, 255⟩ ⟨0, 0, 0, 255⟩) (fun t => (t.pal[2], t.pal[3])) =
      some (⟨5, 2, 5, 255⟩, ⟨2, 1, 2, 255⟩) := by decide +kernel
theorem test_cmode3 :
    after (.cmode3 0x7BEF 0x8410) (withSlots ⟨120, 124, 120, 255⟩ ⟨128, 128, 128, 255⟩)
      (fun t => (t.pal[2], t.pal[3])) = some (⟨124, 126, 124, 255⟩, ⟨0, 0, 0, 0⟩) := by decide +kernel
theorem test_cidxUnpack_high_byte_is_the_last_row :
    after (.cidxUnpack 0xFF000000 12) State.reset (·.ret) = some (.value 3) := by decide +kernel
theorem test_cidxUnpack_low_bits_first :
    after (.cidxUnpack 0xE4E4E4E4 5) State.reset (·.ret) = some (.value 1) := by decide +kernel

/-- A palette of four distinct slots. -/
def fourSlots : State :=
  { State.reset with pal := #v[⟨1, 2, 3, 4⟩, ⟨5, 6, 7, 8⟩, ⟨9, 10, 11, 12⟩, ⟨13, 14, 15, 16⟩] }

theorem test_csel0 : after (.csel0 15) fourSlots (tilePixelOf · 15) = some [1, 2, 3, 4] := by
  decide +kernel
theorem test_csel1 : after (.csel1 11) fourSlots (tilePixelOf · 11) = some [5, 6, 7, 8] := by
  decide +kernel
theorem test_csel2 : after (.csel2 7) fourSlots (tilePixelOf · 7) = some [9, 10, 11, 12] := by
  decide +kernel
theorem test_csel3 : after (.csel3 3) fourSlots (tilePixelOf · 3) = some [13, 14, 15, 16] := by
  decide +kernel
theorem test_decColor_four_colour :
    after (.decColor 0) (withIn 0 [0xFF, 0xFF, 0, 0, 0xE4, 0xE4, 0xE4, 0xE4])
      (fun t => (t.fourColor, tilePixelOf t 14, tilePixelOf t 15)) =
      some (true, [165, 168, 165, 255], [82, 84, 82, 255]) := by decide +kernel
/-- Section 1.1, scenario 2. -/
theorem test_decColor_transparent :
    after (.decColor 0) (withIn 0 [0, 0, 0xFF, 0xFF, 0, 0, 0, 0xFF])
      (fun t => (t.fourColor, tilePixelOf t 11, tilePixelOf t 12)) =
      some (false, [0, 0, 0, 255], [0, 0, 0, 0]) := by decide +kernel

/-! ## Alpha blocks (2.3) -/

theorem test_aexp4 : after (.aexp4 0xA) State.reset (·.ret) = some (.value 170) := by decide +kernel
/-- R180: nibble 1 is the high half of byte 0. -/
theorem test_anibUnpack :
    after (.anibUnpack 0 1) (withIn 0 [0x10, 0x32, 0x54, 0x76, 0x98, 0xBA, 0xDC, 0xFE]) (·.ret) =
      some (.value 1) := by decide +kernel
theorem test_decAlpha3 :
    after (.decAlpha3 0) (withIn 0 [0x10, 0x32, 0x54, 0x76, 0x98, 0xBA, 0xDC, 0xFE]) (alphaOf · 13) =
      some 221 := by decide +kernel
theorem test_decAlpha3_keeps_colour :
    after (.decAlpha3 0) { withIn 0 [0x0F, 0, 0, 0, 0, 0, 0, 0xF0] with tile := Vector.replicate 64 7 }
      (fun t => (tilePixelOf t 0, tilePixelOf t 15)) = some ([7, 7, 7, 255], [7, 7, 7, 255]) := by decide +kernel
theorem test_aendRead :
    after (.aendRead 0) (withIn 0 [0xFF, 0x00, 0xD0, 0x58, 0x3F, 0xD0, 0x58, 0x3F])
      (fun t => (t.a0, t.a1, t.aidx48)) = some (0xFF, 0, 0x3F58D03F58D0) := by decide +kernel
theorem test_amode8 :
    after (.amode8 255 0) State.reset (·.alphaTab) = some #v[255, 0, 218, 182, 145, 109, 72, 36] := by decide +kernel
theorem test_amode8_truncates :
    after (.amode8 255 254) State.reset (·.alphaTab) =
      some #v[255, 254, 254, 254, 254, 254, 254, 254] := by decide +kernel
theorem test_amode6 :
    after (.amode6 3 7) State.reset (·.alphaTab) = some #v[3, 7, 3, 4, 5, 6, 0, 255] := by decide +kernel
theorem test_amode6_ascending :
    after (.amode6 0 255) State.reset (·.alphaTab) = some #v[0, 255, 51, 102, 153, 204, 0, 255] := by decide +kernel
theorem test_aidxUnpack :
    after (.aidxUnpack [0xD0, 0x58, 0x3F, 0xD0, 0x58, 0x3F] 5) State.reset (·.ret) = some (.value 6) := by
  decide +kernel

/-- An alpha table of eight distinct entries. -/
def eightEntries : State := { State.reset with alphaTab := #v[10, 11, 12, 13, 14, 15, 16, 17] }

theorem test_asel0 : after (.asel0 8) eightEntries (tilePixelOf · 8) = some [0, 0, 0, 10] := by
  decide +kernel
theorem test_asel1 : after (.asel1 9) eightEntries (tilePixelOf · 9) = some [0, 0, 0, 11] := by
  decide +kernel
theorem test_asel2 : after (.asel2 10) eightEntries (tilePixelOf · 10) = some [0, 0, 0, 12] := by
  decide +kernel
theorem test_asel3 : after (.asel3 11) eightEntries (tilePixelOf · 11) = some [0, 0, 0, 13] := by
  decide +kernel
theorem test_asel4 : after (.asel4 12) eightEntries (tilePixelOf · 12) = some [0, 0, 0, 14] := by
  decide +kernel
theorem test_asel5 : after (.asel5 13) eightEntries (tilePixelOf · 13) = some [0, 0, 0, 15] := by
  decide +kernel
theorem test_asel6 : after (.asel6 14) eightEntries (tilePixelOf · 14) = some [0, 0, 0, 16] := by
  decide +kernel
theorem test_asel7 : after (.asel7 15) eightEntries (tilePixelOf · 15) = some [0, 0, 0, 17] := by
  decide +kernel
theorem test_decAlpha5_eight :
    after (.decAlpha5 0) (withIn 0 [0xFF, 0x00, 0xD0, 0x58, 0x3F, 0xD0, 0x58, 0x3F]) (alphaOf · 2) =
      some 182 := by decide +kernel
theorem test_decAlpha5_six :
    after (.decAlpha5 0) (withIn 0 [0x00, 0xFF, 0x88, 0xC6, 0xFA, 0x88, 0xC6, 0xFA]) (alphaOf · 5) =
      some 204 := by decide +kernel

/-! ## Blocks and the grid (1.1, 2.4) -/

theorem test_decDxt1 :
    after (.decDxt1 0) (withIn 0 redBlock) (tilePixelOf · 15) = some [248, 0, 0, 255] := by decide +kernel
theorem test_decDxt3 :
    after (.decDxt3 0) (withIn 0 ([0x88, 0x88, 0x88, 0x88, 0x88, 0x88, 0x88, 0x88] ++ redBlock)) (tilePixelOf · 9) =
      some [248, 0, 0, 0x88] := by decide +kernel
/-- Section 2.3: the colour half selects the transparent slot, the alpha half overwrites alpha. -/
theorem test_decDxt3_over_transparent :
    after (.decDxt3 0)
      (withIn 0 [0xFF, 0xFF, 0xFF, 0xFF, 0xFF, 0xFF, 0xFF, 0xFF, 0, 0xF8, 0, 0xF8, 0xFF, 0xFF, 0xFF, 0xFF])
      (tilePixelOf · 0) = some [0, 0, 0, 255] := by decide +kernel
/-- Program P3. -/
theorem test_decDxt5 :
    after (.decDxt5 0) (withIn 0 ([0xFF, 0x00, 0xD0, 0x58, 0x3F, 0xD0, 0x58, 0x3F] ++ redBlock)) (tilePixelOf · 3) =
      some [248, 0, 0, 145] := by decide +kernel
theorem test_gridGeom :
    after (.gridGeom 5 3) State.reset (fun t => (t.geom.blocksX, t.geom.blocksY)) = some (2, 1) := by decide +kernel
theorem test_gridAddr : after (.gridAddr 2 2) (nine 0 0) (·.ret) = some (.value 1236) := by decide +kernel
/-- W = H = 9, block (2, 2): only tile pixel 0, at OUT[320 .. 324). -/
theorem test_tileCopy_clips :
    after (.tileCopy 2 2) { nine 2 2 with tile := Vector.replicate 64 7 } (·.outMem) =
      some [(320, 7), (321, 7), (322, 7), (323, 7)] := by decide +kernel
/-- The tile of program P2's second block: column 0 only, pixel (4, 2) at OUT[56 .. 60). -/
theorem test_gridStep_last_block :
    after .gridStep { p2Grid with iterX := 1 } (fun t => (t.phase, t.outMem)) =
      some (.done, [(16, 0), (17, 0), (18, 248), (19, 255), (36, 0), (37, 0), (38, 248), (39, 255),
        (56, 0), (57, 0), (58, 248), (59, 255)]) := by decide +kernel
theorem test_gridStep_advances :
    after .gridStep p2Grid (fun t => (t.phase, t.iterX, t.iterY, t.readOut 51)) = some (.grid, 1, 0, 0xAA) := by
  decide +kernel

/-! ## The container (2.5, programs P1 to P3) -/

theorem test_hdrParse :
    after .hdrParse p1 (fun t => (t.hdr.compression, t.hdr.height, t.hdr.mipOffsets[0], t.hdr.mipLengths[0])) =
      some (2, 4, 1172, 8) := by decide +kernel

/-- STATUS after VALIDATE. -/
def statusAfter (s : State) : Option Word := after .validate s State.status

/-- The rows of 2.5 that end in an error, in the order of R303; each is also a witness of its clause of
ValidateReportsTheFirstFailingCheck. -/
theorem test_validate_errors :
    statusAfter { p1 with len := 5000 } = some 0x93 ∧
    statusAfter { p1 with len := 4097 } = some 0x93 ∧
    statusAfter { p1 with len := 3 } = some 0x13 ∧
    statusAfter { p1 with inMem := p1.inMem.write 3 0x31 } = some 0x13 ∧
    statusAfter { p1 with len := 1171 } = some 0x63 ∧
    statusAfter { p1 with inMem := p1.inMem.write 4 0 } = some 0x23 ∧
    statusAfter { p1 with inMem := p1.inMem.write 8 3 } = some 0x33 ∧
    statusAfter { p1 with inMem := p1.inMem.write 10 8 } = some 0x43 ∧
    statusAfter { p1 with inMem := (p1.inMem.write 20 0).write 21 0 } = some 0x53 ∧
    statusAfter { p1 with inMem := p1.inMem.write 84 0 } = some 0x53 ∧
    statusAfter { p1 with len := 1179 } = some 0x63 ∧
    statusAfter { p1 with inMem := p1.inMem.write 84 16, len := 1188 } = some 0x63 ∧
    statusAfter { p1 with inMem := p1.inMem.write 12 0 } = some 0x63 ∧
    statusAfter { p1 with
      inMem := (((p1.inMem.write 12 40).write 16 40).write 84 0x20).write 85 0x03, len := 1972 } = some 0x93 := by
  decide +kernel

/-- P1: accepted; P1 with alpha depth 0xFF and has_mips 1 is accepted too. -/
theorem test_validate_accepts :
    after .validate p1 (fun t => (t.phase, t.geom, t.regs.outLenLo)) =
      some (.grid, ⟨.dxt1, 8, 1, 1, 1172, 4, 4⟩, 64) ∧
    after .validate { p1 with inMem := (p1.inMem.write 9 0xFF).write 11 1 } (fun t => (t.phase, t.regs.hdrBytes)) =
      some (.grid, 0x0100FF02) := by decide +kernel

/-- P1's end state. -/
theorem test_decode_p1 :
    after .decode p1Loaded (fun t => (t.status, t.outMem.map Prod.snd)) =
      some (2, (List.replicate 16 [248, 0, 0, 255]).flatten) := by decide +kernel

/-- Program P4's first half: nothing is latched. -/
theorem test_decode_bad_magic :
    after .decode { p1Loaded with inMem := p1.inMem.write 3 0x31 } (fun t => (t.status, t.regs.width, t.outMem)) =
      some (0x13, 0, []) := by decide +kernel

/-! ## The step -/

/-- The host's question: the very next step runs the placed word. -/
theorem test_withFetchWord :
    (nextState (step (State.reset.withFetchWord 48 0x80080000049C))).map (·.regs.fileLenLo) = some 1180 := by
  decide +kernel
/-- R114: SETLEN 4294968476 writes 1180 and 1. -/
theorem test_pseudoSetLen : pseudoSetLen 4294968476 = [hostWord 0x80080000049C, hostWord 0x800C00000001] := by
  decide
/-- R114: WAIT goes on while STATE is BUSY. -/
theorem test_waitAgain : waitAgain 1 = true ∧ waitAgain 2 = false ∧ waitAgain 0x63 = false := by decide
/-- R114: while BUSY, WAIT has read 1 and stays in its loop; HOST's READOUT waits behind it. -/
theorem test_wait_goes_round :
    (nextState (step { p2Grid with schedule := [.wait, .outRead 0] })).map (fun t => (t.ret, t.schedule)) =
      some (.word 1, [.core, .wait, .outRead 0]) := by decide +kernel
/-- R114: with STATE = DONE, WAIT ends and READOUT is next. -/
theorem test_wait_ends :
    (nextState (step { State.reset with phase := .done, schedule := [.wait, .outRead 0] })).map
      (fun t => (t.ret, t.schedule)) = some (.word 2, [.outRead 0]) := by decide +kernel
theorem test_pseudo_words : pseudoStart = [hostWord 0x800000000001] ∧ pseudoWait = [.wait] ∧
   
    pseudoLoad 1172 [0, 0xF8] = [.inWrite 1172 0, .inWrite 1173 0xF8] ∧
    pseudoReadOut 0 2 = [.outRead 0, .outRead 1] := by decide


/-! ## Witnesses: a state and operands that meet the hypotheses of each statement, clause by clause -/

/-- HawWordsDecodeByPriority, StartIsAcceptedUnlessBusy, OtherRegisterWritesAreIgnored: the operands of each
clause, at the edges of the clauses. -/
theorem witness_register_writes :
    ((1 : BitVec 7) ≠ 0 ∧ (0x7F : BitVec 7) ≠ 0) ∧
    ((1 : Word).toNat % 2 = 1 ∧ State.reset.phase ≠ .validate ∧ State.reset.phase ≠ .grid) ∧
    (0xFFFFFFFE : Word).toNat % 2 = 0 ∧ p1.phase = .validate ∧ p2Grid.phase = .grid ∧
    ∀ o ∈ ([0x01, 0x04, 0x07, 0x09, 0x0B, 0x0D, 0xFF] : List Byte), o ≠ 0x00 ∧ o ≠ 0x08 ∧ o ≠ 0x0C := by decide

/-- DecodeOfEncodeIsTheOperation: operations at the edges of their operands. -/
theorem witness_well_formed :
    (Instr.cmode4 1 0).wf = true ∧ (Instr.cmode3 0 0).wf = true ∧ (Instr.amode8 255 254).wf = true ∧
    (Instr.amode6 255 255).wf = true ∧ (Instr.bitwin [0xD0] 0 8).wf = true ∧ (Instr.bitwin [0xD0] 7 1).wf = true ∧
    (Instr.leRead 0 8).wf = true ∧ (Instr.aidxUnpack [0, 0, 0, 0, 0, 0] 15).wf = true ∧
    (Instr.hawRsv true 1 0 1).wf = true ∧ (Instr.wrIgn 0x0D 0).wf = true := by decide

/-- EncodeOfDecodeIsTheCode, StepRunsTheDecodedOperation, and the refused invocation of AbsentAddressesStopByName. -/
theorem witness_invocations :
    (∃ i, decode ⟨.haw, 0x80080000049C, []⟩ = .ok i) ∧
    (∃ (s : State) (c : Code) (rest : List Action) (i : Instr),
      s.schedule = .invoke c :: rest ∧ decode c = .ok i) ∧
    (∃ (s : State) (c : Code) (rest : List Action) (e : DecodeError),
      s.schedule = .invoke c :: rest ∧ decode c = .error e) :=
  ⟨⟨_, rfl⟩, ⟨{ State.reset with schedule := pseudoStart }, _, _, .wrCtrl 1, rfl, by decide⟩,
    ⟨{ State.reset with schedule := [.invoke ⟨.cidx2, 4, [0]⟩] }, _, _, .wordTooWide, rfl, by decide⟩⟩

/-- CoreTakesItsEnabledStep: every phase, with the schedule empty and with CORE's turn at its head. -/
theorem witness_core_turns :
    (p1.schedule = [] ∧ p1.phase = .validate) ∧ (p2Grid.schedule = [] ∧ p2Grid.phase = .grid) ∧
    (State.reset.schedule = [] ∧ State.reset.phase = .idle) ∧
    (∃ rest, { p2Grid with schedule := [.core] }.schedule = .core :: rest) ∧
    { p1 with phase := .done }.phase = .done ∧ { p1 with phase := .error }.phase = .error :=
  ⟨⟨rfl, rfl⟩, ⟨rfl, rfl⟩, ⟨rfl, rfl⟩, ⟨[], rfl⟩, rfl, rfl⟩

/-- HostMemoryPortWithoutADecode, OutReadWhileBusyIsOldOrNew, OutWriteWhileBusyRaces,
AbsentAddressesStopByName: the last address and the first that does not exist, with and without a decode. -/
theorem witness_memory_port :
    State.reset.busy = false ∧ p1.busy = true ∧ p2Grid.busy = true ∧
    4095 < State.reset.cfg.inCap ∧ State.reset.cfg.inCap ≤ 4096 ∧
    4095 < State.reset.cfg.outCap ∧ State.reset.cfg.outCap ≤ 4096 ∧
    ∀ a ∈ ([.inWrite 4095 1, .inRead 4096, .outWrite 4095 1, .outRead 4095] : List Action),
      ∃ rest, { State.reset with schedule := [a] }.schedule = a :: rest ∧
        { p2Grid with schedule := [a] }.schedule = a :: rest :=
  ⟨rfl, rfl, rfl, by decide, by decide, by decide, by decide, fun _ _ => ⟨[], rfl, rfl⟩⟩

/-- InputHazardIsRefused: the last byte of IN[0 .. len) and the first beyond it. -/
theorem witness_input_hazard :
    p1.busy = true ∧ 1180 < p1.cfg.inCap ∧ 1179 < p1.len.toNat ∧ p1.len.toNat ≤ 1180 := by decide +kernel

/-- RegisterReadReturnsTheMappedRegister: no offset falls under two clauses with different values. -/
theorem witness_register_map :
    ∀ o ∈ ([0x00, 0x04, 0x08, 0x0C, 0x10, 0x14, 0x18, 0x1C, 0x20, 0x24, 0x28, 0x2C, 0x30, 0x34, 0x38] : List Byte),
      ¬ (o.toNat % 4 ≠ 0 ∨ 0x3C ≤ o.toNat) := by decide

/-- R22 and R33: the first and the last register, and the offsets beside them. -/
theorem test_rd_edges :
    let s : State := { State.reset with regs := { Regs.reset with fileLenLo := 1, outLenHi := 2 } }
    s.readReg 0x08 = 1 ∧ s.readReg 0x38 = 2 ∧ s.readReg 0x3C = 0 ∧ s.readReg 0x3B = 0 ∧ s.readReg 0xFC = 0 := by
  decide +kernel

/-- The reset state meets the invariant of every state. -/
theorem reset_inv : Inv State.reset where
  params := by decide
  inWf := List.Pairwise.nil
  outWf := List.Pairwise.nil
  beforeWf := List.Pairwise.nil
  inBelow := by simp [State.reset, Memory.below]
  outBelow := by simp [State.reset, Memory.below]
  beforeBelow := by simp [State.reset, Memory.below]
  err := by simp [State.errLegal, State.reset]
  quiet := fun _ => ⟨rfl, rfl⟩
  raced := by simp [State.reset]

/-- The geometry of 9 by 9 pixels is legal at every kind of block the iterator can stand on. -/
theorem nine_gridInv {x y : Nat} (hx : x < 3) (hy : y < 3) : GridInv (nine x y) where
  variant := by simp [nine]
  blockBytes := rfl
  blocksX := show 3 = blocksOf 9 by decide
  blocksY := show 3 = blocksOf 9 by decide
  lenFits := by show 1244 ≤ 4096; omega
  blocksFit := by show 1172 + 3 * 3 * 8 ≤ 1244; omega
  length := rfl
  outFits := by show 9 * 9 * 4 ≤ 4096; omega
  column := hx
  row := hy
  showsX := rfl
  showsY := rfl
  showsKind := rfl

/-- A running decode meets the invariant of every state. -/
theorem nine_inv (x y : Nat) : Inv (nine x y) where
  params := show resetParams.legal = true by decide
  inWf := List.Pairwise.nil
  outWf := List.Pairwise.nil
  beforeWf := List.Pairwise.nil
  inBelow := by simp [nine, State.reset, Memory.below]
  outBelow := by simp [nine, State.reset, Memory.below]
  beforeBelow := by simp [nine, State.reset, Memory.below]
  err := by simp [State.errLegal, nine, State.reset]
  quiet := fun h => by simp [State.busy, nine] at h
  raced := by simp [nine, State.reset]

/-- A decode in GRID meets the invariant of a run, whatever HOST, CORE and the platform do next. -/
theorem nine_runInv {q : List Action} (hq : ∀ a ∈ q, a.external = true) :
    RunInv { nine 0 0 with schedule := q } where
  inv := (nine_inv 0 0).scheduled _
  external := hq
  grid := fun _ => (nine_gridInv (x := 0) (y := 0) (by omega) (by omega)).congr rfl rfl rfl rfl ⟨rfl, rfl, rfl⟩
    (show 0 < 3 by omega) (show 0 < 3 by omega)
  pending := fun h => absurd h (show Phase.grid ≠ .validate by decide)
  cleared := fun h => absurd h (show Phase.grid ≠ .validate by decide)

/-- RunsStopOnlyByTheHost, StepKeepsTheRunInvariant, PhaseMovesOnlyAsListed: a decode in GRID whose next action is
HOST's. -/
theorem witness_runInv : RunInv { nine 0 0 with schedule := [.outRead 4096] } :=
  nine_runInv (by simp [Action.external])

/-- RegisterReadReturnsTheMappedRegister: STATUS while BUSY. -/
theorem witness_status_busy : Inv (nine 0 0) ∧ (nine 0 0).busy = true := ⟨nine_inv 0 0, rfl⟩

/-- DecodeIsItsSteps: WAIT in a running decode and in IDLE, nothing of CORE's or the platform's behind it. -/
theorem witness_wait :
    RunInv { nine 0 0 with schedule := [.wait] } ∧ (nine 0 0).busy = true ∧ State.reset.busy = false ∧
    ([] : List Action).head? ≠ some .core ∧ ([] : List Action).head? ≠ some .rst ∧
    ([.core] : List Action).head? = some .core ∧ ([.rst] : List Action).head? = some .rst :=
  ⟨nine_runInv (by simp [Action.external]), rfl, rfl, by decide, by decide, rfl, rfl⟩

/-- OutReadWhileBusyIsOldOrNew: a step of a run that stays BUSY. -/
theorem witness_run_stays_busy :
    RunInv { nine 0 0 with schedule := [.inRead 0] } ∧
      ∃ t, step { nine 0 0 with schedule := [.inRead 0] } = .next t ∧ (nine 0 0).busy = true ∧ t.busy = true :=
  ⟨nine_runInv (by simp [Action.external]), _, rfl, rfl, rfl⟩

/-- ErrorsArePrecise: a run whose file will be refused. -/
theorem witness_failing_run :
    RunInv ({ State.reset with schedule := [.core] }.acceptStart) ∧
      ({ State.reset with schedule := [.core] }.acceptStart).phase = .validate ∧
      after .validate ({ State.reset with schedule := [.core] }.acceptStart) (·.phase) = some .error :=
  ⟨⟨(reset_inv.scheduled _).acceptStart, by simp [Action.external],
    fun h => absurd h (show Phase.validate ≠ .grid by decide), fun _ => rfl, fun _ => rfl⟩, rfl, by decide +kernel⟩

/-- ResetInputRestoresTheResetState: no decode, and a running one in a run. -/
theorem witness_rst :
    { State.reset with schedule := [.rst] }.schedule = [.rst] ∧ State.reset.busy = false ∧
    RunInv { nine 0 0 with schedule := [.rst] } ∧ (nine 0 0).busy = true ∧ (nine 0 0).phase = .grid :=
  ⟨rfl, rfl, nine_runInv (by simp [Action.external]), rfl, rfl⟩

/-- StatusShowsLegalFields, StepKeepsTheInvariant, StepKeepsTheRunInvariant, PhaseMovesOnlyAsListed: a step of the
reset state. -/
theorem witness_reset_steps : Inv State.reset ∧ ∃ t, step State.reset = .next t := ⟨reset_inv, _, rfl⟩

/-- GridStepDecodesCopiesAdvances: the three ways to advance, at their edges. -/
theorem witness_grid_steps :
    (GridInv (nine 1 0) ∧ (nine 1 0).iterX + 1 < (nine 1 0).geom.blocksX) ∧
    (GridInv (nine 2 1) ∧ (nine 2 1).iterX + 1 = (nine 2 1).geom.blocksX ∧
      (nine 2 1).iterY + 1 < (nine 2 1).geom.blocksY) ∧
    (GridInv (nine 2 2) ∧ (nine 2 2).iterX + 1 = (nine 2 2).geom.blocksX ∧
      (nine 2 2).iterY + 1 = (nine 2 2).geom.blocksY ∧ (nine 2 2).outRaced = []) :=
  ⟨⟨nine_gridInv (by omega) (by omega), by decide⟩,
    ⟨nine_gridInv (by omega) (by omega), by decide, by decide⟩,
    ⟨nine_gridInv (by omega) (by omega), by decide, by decide, rfl⟩⟩

/-- GridAddrIsTheStreamAddress: the last block of the grid. -/
theorem witness_grid_address :
    GridInv (nine 0 0) ∧ 2 < (nine 0 0).geom.blocksX ∧ 2 < (nine 0 0).geom.blocksY :=
  ⟨nine_gridInv (by omega) (by omega), by decide, by decide⟩

/-- OutReadWhileBusyIsOldOrNew: the last byte the decode writes and the first it does not. -/
theorem witness_decoded_bytes :
    ((nine 0 0).decodedByte 323).isSome = true ∧ (nine 0 0).decodedByte 324 = none ∧
    State.reset.decodedByte 0 = none ∧ GridInv (nine 0 0) ∧ 8 < (nine 0 0).geom.w.toNat ∧
    8 < (nine 0 0).geom.h.toNat ∧ (nine 0 0).geom.w.toNat * (nine 0 0).geom.h.toNat * 4 ≤ 324 := by
  exact ⟨by decide +kernel, by decide +kernel, by decide +kernel, nine_gridInv (by omega) (by omega), by decide,
    by decide, by decide⟩

/-- R74 (d): a HOST read of a byte never written draws a value of its own, and the decode's tile stays what it was. -/
theorem test_decode_keeps_its_own_draws :
    let t : State := { (nine 0 0).tick with ret := .byte ((nine 0 0).readIn 1172) }
    hostInRead 1172 (nine 0 0) = .next t ∧ t.draws ≠ (nine 0 0).draws ∧
      (t.gridBlock 0 0).tile = ((nine 0 0).gridBlock 0 0).tile := by
  intro t
  have h : t.decodeDraws = (nine 0 0).decodeDraws ∧ t.geom = (nine 0 0).geom ∧ t.inMem = (nine 0 0).inMem :=
    ⟨rfl, rfl, rfl⟩
  exact ⟨rfl, by decide, State.gridBlock_tile_congr h.1 h.2.1 (show Variant.dxt1 ≠ .none by decide)
    fun a _ _ => by rw [h.2.2]⟩

/-- OutWriteWhileBusyRaces, second part: the last block of a decode that HOST raced. -/
theorem witness_raced_decode :
    let s : State := { nine 2 2 with inMem := bytesAt 1236 redBlock, outBefore := [(320, 9)], outRaced := [320] }
    s.phase = .grid ∧ after .gridStep s (·.phase) = some .done ∧
      after (.tileCopy 2 2) (s.gridBlock 2 2) (·.phase) = some .grid := by decide +kernel

/-- LeReadReturnsTheLittleEndianSum and the statements about a block at b: the last place in IN, and the first one
that does not exist (AbsentAddressesStopByName). -/
theorem witness_last_block :
    4088 + 8 ≤ State.reset.cfg.inCap ∧ 4080 + 16 ≤ State.reset.cfg.inCap ∧ State.reset.cfg.inCap < 4089 + 8 ∧
    State.reset.cfg.inCap < 4081 + 16 ∧ 1172 ≤ State.reset.cfg.inCap ∧
    { State.reset with cfg := ⟨1171, 0, 1⟩ }.cfg.inCap < 0 + 1172 ∧
    (withIn 4088 redBlock).inMem.lookup 4089 = some 0xF8 := by decide

/-- BitWindowIsTheIntegerField and AlphaIndexIsThreeBitsOfTheField: the last window. -/
theorem witness_last_window :
    1 ≤ 3 ∧ 3 ≤ 8 ∧ 45 + 3 ≤ 8 * ([0xD0, 0x58, 0x3F, 0xD0, 0x58, 0x3F] : List Byte).length ∧
    ([0xD0, 0x58, 0x3F, 0xD0, 0x58, 0x3F] : List Byte).length = 6 := by decide

/-- PaletteProperties: the three premises, the comparison at its edge. -/
theorem witness_palettes :
    after (.decColor 0) (withIn 0 [1, 0, 0, 0, 0, 0, 0, 0]) (fun t => (t.c0, t.c1, t.idxw)) = some (1, 0, 0) ∧
    after (.decColor 0) (withIn 0 redBlock) (fun t => (t.c0, t.c1, t.idxw)) = some (0xF800, 0xF800, 0) := by
  decide +kernel

/-- AlphaTableProperty: the two premises, the comparison at its edge. -/
theorem witness_alpha_tables :
    after (.decAlpha5 0) (withIn 0 [255, 254, 0, 0, 0, 0, 0, 0]) (fun t => (t.a0, t.a1)) = some (255, 254) ∧
    after (.decAlpha5 0) (withIn 0 [100, 100, 0, 0, 0, 0, 0, 0]) (fun t => (t.a0, t.a1)) = some (100, 100) := by
  decide +kernel

/-- TileCopyWritesTheClippedTile: a tile that fits, and one whose only byte beyond OUT_CAP stops it. -/
theorem witness_tile_copies :
    (∀ px py : Fin 4, 4 * 2 + px.val < (nine 2 2).geom.w.toNat → 4 * 2 + py.val < (nine 2 2).geom.h.toNat →
      4 * ((4 * 2 + py.val) * (nine 2 2).geom.w.toNat + (4 * 2 + px.val)) + 3 < (nine 2 2).cfg.outCap) ∧
    (let s : State := { nine 2 2 with cfg := ⟨4096, 323, 1⟩ }
      ∃ px py : Fin 4, 4 * 2 + px.val < s.geom.w.toNat ∧ 4 * 2 + py.val < s.geom.h.toNat ∧
        s.cfg.outCap ≤ 4 * ((4 * 2 + py.val) * s.geom.w.toNat + (4 * 2 + px.val)) + 3) := by decide +kernel

/-- ValidateReportsTheFirstFailingCheck, HeaderRegistersAreLatchedAfterTheLengthCheck,
AcceptedHeaderLatchesTheGeometry, ErrorsArePrecise: a validation that passes and one that fails; the clauses' own
witnesses are `test_validate_errors`. -/
theorem witness_validations :
    p1.phase = .validate ∧ p1.len.toNat ≤ p1.cfg.inCap ∧ 1172 ≤ p1.len.toNat ∧ (p1.atReading 0).magicMatches = true ∧
    after .validate p1 (·.phase) = some .grid ∧
    after .validate { p1 with len := 1171 } (·.phase) = some .error := by decide +kernel

/-- IgnoredHeaderFieldsDoNotMatter: the alpha depth differs. -/
theorem witness_ignored_byte :
    p1.phase = .validate ∧ p1.inMem.write 9 0xFF ≠ p1.inMem ∧
      ∀ a, influentialHeaderByte a → (p1.inMem.write 9 0xFF).lookup a = p1.inMem.lookup a := by
  refine ⟨rfl, by decide +kernel, fun a ha => Memory.lookup_write_other _ _ ?_⟩
  rintro rfl
  unfold influentialHeaderByte at ha
  omega

/-- DecodeIsItsSteps and DecodeWritesTheImage: the loaded file of P1, whose blocks are all listed; and a decode
while BUSY. -/
theorem witness_decode :
    p1Loaded.schedule = [] ∧ p1Loaded.busy = false ∧ p1.busy = true ∧
    ∃ g, exec .validate p1Loaded.acceptStart = .next g ∧ g.phase = .grid ∧
      ∀ a, g.geom.base.toNat ≤ a → a < g.geom.base.toNat + g.geom.blocksX * g.geom.blocksY * g.geom.blockBytes →
        (g.inMem.lookup a).isSome = true := by
  have he : exec .validate p1Loaded.acceptStart = .next p1Loaded.acceptStart.validateStep := by
    show execValidate _ = _
    exact if_pos (State.acceptStart_phase p1Loaded)
  refine ⟨rfl, rfl, rfl, p1Loaded.acceptStart.validateStep, he, by decide +kernel, ?_⟩
  have hg : p1Loaded.acceptStart.validateStep.geom = ⟨.dxt1, 8, 1, 1, 1172, 4, 4⟩ := by decide +kernel
  have hm : p1Loaded.acceptStart.validateStep.inMem = p1.inMem := p1Loaded.acceptStart.validateStep_frame.2.1
  rw [hg, hm]
  intro a h1 h2
  have h1 : 1172 ≤ a := h1
  have h2 : a < 1172 + 1 * 1 * 8 := h2
  have hb : ∀ j < 8, (p1.inMem.lookup (1172 + j)).isSome = true := by decide +kernel
  have := hb (a - 1172) (by omega)
  rwa [show 1172 + (a - 1172) = a by omega] at this

/-- AbsentAddressesStopByName: a block step with no variant. -/
theorem witness_no_variant :
    { State.reset with phase := .grid }.phase = .grid ∧ { State.reset with phase := .grid }.geom.variant = .none :=
  ⟨rfl, rfl⟩

/-- RegistersChangeOnlyByTheirOperations, OnlyTheCopyWritesOut, FlagsChangeOnlyByTheirDecoders: an operation that
completes and is none of the listed ones. -/
theorem witness_other_operation :
    (∃ t, exec .gridStep State.reset = .next t) ∧ (∃ t, exec (.exp565 0xFFFF) State.reset = .next t) ∧
    (∀ data, Instr.exp565 0xFFFF ≠ .wrCtrl data) ∧ Instr.exp565 0xFFFF ≠ .validate ∧
    Instr.exp565 0xFFFF ≠ .decode ∧ Instr.exp565 0xFFFF ≠ .gridStep :=
  ⟨⟨_, rfl⟩, ⟨_, rfl⟩, by simp, by simp, by simp, by simp⟩

end Sys2Proof.Tests
end

/-! PROOFS. The state and its invariants (10_state.md): what a step keeps, how the phase moves, and what each
operation may write of the registers and the flags. -/

namespace Sys2Proof.Machine

/-! ### What a step can do, said once -/

/-- A step is CORE's turn with no action left, or the next action. -/
theorem step_cases {s t : State} (he : step s = .next t) :
    (s.schedule = [] ∧ coreStep s = .next t) ∨
    ∃ a rest, s.schedule = a :: rest ∧ act a { s with schedule := rest } = .next t := by
  unfold step at he
  split at he
  · rename_i hs
    exact .inl ⟨hs, he⟩
  · rename_i a rest hs
    exact .inr ⟨a, rest, hs, he⟩

theorem invoke_next {c : Code} {s t : State} (he : invoke c s = .next t) :
    ∃ i, decode c = .ok i ∧ exec i s = .next t := by
  unfold invoke at he
  split at he
  · rename_i i hi
    exact ⟨i, hi, he⟩
  · cases he

theorem execWrCtrl_next {data : Word} {s t : State} (he : execWrCtrl data s = .next t) :
    (data.toNat % 2 = 1 ∧ s.busy = false ∧ t = s.acceptStart) ∨ t = s := by
  unfold execWrCtrl at he
  split at he
  · rename_i h
    obtain ⟨hd, hb⟩ := h
    cases he
    rw [← BitVec.testBit_toNat, Nat.testBit_zero, decide_eq_true_eq] at hd
    exact .inl ⟨hd, hb, rfl⟩
  · cases he
    exact .inr rfl

theorem execValidate_next {s t : State} (he : execValidate s = .next t) :
    (s.phase = .validate ∧ t = s.validateStep) ∨ t = s := by
  unfold execValidate at he
  split at he
  · rename_i hp
    cases he
    exact .inl ⟨hp, rfl⟩
  · cases he
    exact .inr rfl

theorem execTileCopy_next {cx cy : Nat} {s t : State} (he : execTileCopy cx cy s = .next t) :
    s.outExists cx cy = true ∧ t = s.copyTile cx cy := by
  unfold execTileCopy at he
  split at he
  · rename_i ho
    cases he
    exact ⟨ho, rfl⟩
  · cases he

/-- CORE's turn leaves the state, validates, or takes a block step (45_host_interface.md R277). -/
theorem coreStep_cases {s t : State} (he : coreStep s = .next t) :
    t = s ∨ (s.phase = .validate ∧ exec .validate s = .next t) ∨ (s.phase = .grid ∧ exec .gridStep s = .next t) := by
  unfold coreStep at he
  split at he
  · rename_i hp
    exact .inr (.inl ⟨hp, he⟩)
  · rename_i hp
    exact .inr (.inr ⟨hp, he⟩)
  all_goals
    cases he
    exact .inl rfl

theorem hostInWrite_next {a : Nat} {v : Byte} {s t : State} (he : hostInWrite a v s = .next t) :
    a < s.cfg.inCap ∧ t = { s with inMem := s.inMem.write a v } := by
  unfold hostInWrite at he
  split at he
  · cases he
  · rename_i ha
    split at he
    · cases he
    · cases he
      exact ⟨Nat.not_le.mp ha, rfl⟩

theorem hostInRead_control {a : Nat} {s t : State} (he : hostInRead a s = .next t) : SameControl s t := by
  unfold hostInRead at he
  split at he
  · cases he
  · cases he
    constructor <;> rfl

theorem hostOutRead_control {a : Nat} {s t : State} (he : hostOutRead a s = .next t) : SameControl s t := by
  unfold hostOutRead at he
  split at he
  · cases he
  · split at he
    · cases he
      constructor <;> rfl
    · cases he
      constructor <;> rfl

theorem hostOutWrite_frame {a : Nat} {v : Byte} {s t : State} (he : hostOutWrite a v s = .next t) :
    t.cfg = s.cfg ∧ t.phase = s.phase := by
  unfold hostOutWrite at he
  split at he
  · cases he
  · split at he
    · cases he
      exact ⟨rfl, rfl⟩
    · cases he
      exact ⟨rfl, rfl⟩

/-- WAIT returns STATUS and may put itself before the schedule again (30_encoding.md R114). -/
theorem hostWait_next {s t : State} (he : hostWait s = .next t) :
    ∃ r, SameControl { s with schedule := r } t := by
  rw [hostWait_eq] at he
  cases he
  exact ⟨_, by constructor <;> rfl⟩

/-! ### The invariant of the machine (10_state.md R24, 20_memory.md R61, R62) -/

/-- What every step keeps beside the invariant itself: the parameters (00_scope.md R5). -/
def KeepsInv (s t : State) : Prop := Inv t ∧ t.cfg = s.cfg

theorem Inv.exec_keeps {s t : State} {i : Instr} (h : Inv s) (he : Machine.exec i s = .next t) : KeepsInv s t :=
  ⟨h.exec he, (exec_frame he).1⟩

theorem Inv.control_keeps {s t : State} (h : Inv s) (k : SameControl s t) : KeepsInv s t := ⟨h.control k, k.cfg⟩

theorem Inv.coreStep {s t : State} (h : Inv s) (he : coreStep s = .next t) : KeepsInv s t := by
  rcases coreStep_cases he with rfl | ⟨-, he⟩ | ⟨-, he⟩
  · exact ⟨h, rfl⟩
  · exact h.exec_keeps he
  · exact h.exec_keeps he

theorem Inv.act {a : Action} {s t : State} (h : Inv s) (he : act a s = .next t) : KeepsInv s t := by
  cases a with
  | invoke c =>
    obtain ⟨i, -, he⟩ := invoke_next he
    exact h.exec_keeps he
  | inWrite a v =>
    obtain ⟨ha, rfl⟩ := hostInWrite_next he
    exact ⟨h.inWrite ha v, rfl⟩
  | inRead a => exact h.control_keeps (hostInRead_control he)
  | outWrite a v => exact ⟨h.hostOutWrite he, (hostOutWrite_frame he).1⟩
  | outRead a => exact h.control_keeps (hostOutRead_control he)
  | wait =>
    obtain ⟨r, k⟩ := hostWait_next he
    exact (h.scheduled r).control_keeps k
  | rst =>
    cases he
    exact ⟨h.rst, rfl⟩
  | core => exact h.coreStep he

/-- Settles O53: CORE's turn and every action keep the invariant, and the schedule is not part of it. -/
theorem stepKeepsTheInvariant : Obligations.StepKeepsTheInvariant := by
  intro s t h he
  rcases step_cases he with ⟨-, he⟩ | ⟨a, rest, -, he⟩
  · exact h.coreStep he
  · exact (h.scheduled rest).act he

/-- The reset state meets the invariant of the machine (10_state.md R46). -/
theorem Inv.reset : Inv State.reset where
  params := by decide
  inWf := List.Pairwise.nil
  outWf := List.Pairwise.nil
  beforeWf := List.Pairwise.nil
  inBelow := List.forall_mem_nil _
  outBelow := List.forall_mem_nil _
  beforeBelow := List.forall_mem_nil _
  err := rfl
  quiet := fun _ => ⟨rfl, rfl⟩
  raced := List.forall_mem_nil _

/-- Settles O52: no decode is running and no action is to come. -/
theorem resetMeetsTheRunInvariant : Obligations.ResetMeetsTheRunInvariant where
  inv := Inv.reset
  external := List.forall_mem_nil _
  grid := fun h => by cases h
  pending := fun h => by cases h
  cleared := fun h => by cases h

/-! ### Reset values and STATUS -/

/-- Settles O47: the reset state field by field (10_state.md R46), and RST with no decode running. -/
theorem resetValuesAreZero : Obligations.ResetValuesAreZero := by
  have hreg : ∀ offset : Byte, State.reset.readReg offset = 0 := by
    intro offset
    unfold State.readReg
    split <;> rfl
  have hrst : ∀ s : State, act .rst s = .next s.rst ∧ s.rst.inMem = s.inMem ∧
      (s.busy = false → s.rst.outMem = s.outMem) :=
    fun s => ⟨rfl, rfl, fun hb => State.abandonedOut_none (State.runningDecode_idle hb)⟩
  exact ⟨hreg, rfl, rfl, rfl, rfl, rfl, rfl, rfl, rfl, rfl, rfl, rfl, rfl, rfl, rfl, rfl, rfl, rfl, rfl, rfl, hrst⟩

/-- ERR in numbers, outside ERROR and in it (10_state.md R24). -/
theorem Inv.err_zero {s : State} (h : Inv s) (hp : s.phase ≠ .error) : s.err.toNat = 0 := by
  have he := h.err
  rw [State.errLegal, if_neg hp] at he
  rw [he]
  rfl

theorem Inv.err_listed {s : State} (h : Inv s) (hp : s.phase = .error) : s.err.toNat ∈ [1, 2, 3, 4, 5, 6, 9] := by
  have he := h.err
  rw [State.errLegal, if_pos hp] at he
  exact List.mem_map_of_mem (f := BitVec.toNat) he

theorem State.readReg_status (s : State) : s.readReg 0x04 = s.status := rfl

/-- The four fields of STATUS in numbers: STATE, the reserved bits, ERR, and nothing above (10_state.md R24). -/
theorem State.status_fields (s : State) :
    s.status.toNat % 4 = (stateField s.phase).toNat ∧ s.status.toNat / 2 ^ 2 % 2 ^ 2 = 0 ∧
      s.status.toNat / 2 ^ 4 = s.err.toNat ∧ s.status.toNat < 2 ^ 8 := by
  have hv := s.status_toNat
  have he := s.err.isLt
  have hp := (stateField s.phase).isLt
  omega

/-- STATE tells the phases apart but for VALIDATE and GRID. -/
theorem stateField_iff (p : Phase) :
    ((stateField p).toNat = 0 ↔ p = .idle) ∧ ((stateField p).toNat = 1 ↔ p = .validate ∨ p = .grid) ∧
      ((stateField p).toNat = 2 ↔ p = .done) ∧ ((stateField p).toNat = 3 ↔ p = .error) := by
  cases p <;> decide

/-- Settles O11: STATUS is made of STATE, reserved zeros and ERR, and the invariant bounds ERR by the phase. -/
theorem statusShowsLegalFields : Obligations.StatusShowsLegalFields := by
  rintro s v h rfl
  obtain ⟨hstate, hreserved, herr, hlt⟩ := s.status_fields
  obtain ⟨hidle, hbusy, hdone, herror⟩ := stateField_iff s.phase
  rw [State.readReg_status, hstate, herr, State.busy_iff]
  exact ⟨hlt, hreserved, hidle, hbusy, hdone, herror, fun hn => h.err_zero fun hp => hn (herror.mpr hp),
    fun h3 => h.err_listed (herror.mp h3)⟩

/-! ### How the phase moves (10_state.md R35) -/

/-- Of the host access words only WR.CTRL moves CORE (30_encoding.md R92). -/
theorem decodeHaw_movesCore {w : Word48} (h : Instr.movesCore (decodeHaw w)) : ∃ data, decodeHaw w = .wrCtrl data := by
  unfold decodeHaw at h ⊢
  split_ifs at h ⊢ with h1 h2 h3 h4 h5
  · exact absurd h id
  · exact absurd h id
  · exact ⟨_, rfl⟩
  · exact absurd h id
  · exact absurd h id
  · exact absurd h id

/-- What HOST invokes is a host access word (10_state.md R21). -/
theorem decode_external {c : Code} (hc : (Action.invoke c).external = true) : decode c = .ok (decodeHaw c.word) := by
  obtain ⟨fmt, word, operands⟩ := c
  simp only [Action.external, Bool.and_eq_true, beq_iff_eq, List.isEmpty_iff] at hc
  obtain ⟨rfl, rfl⟩ := hc
  rfl

/-- HOST's register accesses move the phase only by an accepted START (45_host_interface.md R271). -/
theorem invoke_external_phase {c : Code} {s t : State} (hc : (Action.invoke c).external = true)
    (he : invoke c s = .next t) :
    t.phase = s.phase ∨ s.busy = false ∧ t.phase = .validate ∧
      ∃ data, decode c = .ok (.wrCtrl data) ∧ data.toNat % 2 = 1 := by
  have hd := decode_external hc
  obtain ⟨i, hi, he⟩ := invoke_next he
  obtain rfl : decodeHaw c.word = i := Except.ok.inj (hd.symm.trans hi)
  by_cases hm : Instr.movesCore (decodeHaw c.word)
  · obtain ⟨data, hw⟩ := decodeHaw_movesCore hm
    rw [hw] at he hd
    rcases execWrCtrl_next he with ⟨h1, hb, rfl⟩ | rfl
    · exact .inr ⟨hb, rfl, data, hd, h1⟩
    · exact .inl rfl
  · exact .inl (exec_control hm he).phase

/-- CORE's turn leaves the phase, ends a validation, or ends the grid. -/
theorem coreStep_phase {s t : State} (he : coreStep s = .next t) :
    t.phase = s.phase ∨ s.phase = .validate ∧ (t.phase = .error ∨ t.phase = .grid) ∨
      s.phase = .grid ∧ t.phase = .done := by
  rcases coreStep_cases he with rfl | ⟨-, he⟩ | ⟨-, he⟩
  · exact .inl rfl
  · rcases execValidate_next he with ⟨hp, rfl⟩ | rfl
    · obtain ⟨-, -, -, -, -, hq⟩ := s.validateStep_frame
      exact .inr (.inl ⟨hp, hq.imp id And.left⟩)
    · exact .inl rfl
  · obtain ⟨-, -, -, -, -, -, -, -, hq⟩ := gridStep_frame he
    exact hq.imp id .inr

/-- Not BUSY is IDLE, DONE or ERROR (10_state.md R24). -/
theorem State.phase_of_not_busy {s : State} (h : s.busy = false) :
    s.phase = .idle ∨ s.phase = .done ∨ s.phase = .error := by
  obtain ⟨hv, hg⟩ := State.not_busy_iff.mp h
  cases hp : s.phase with
  | validate => exact absurd hp hv
  | grid => exact absurd hp hg
  | idle => exact .inl rfl
  | done => exact .inr (.inl rfl)
  | error => exact .inr (.inr rfl)

/-- Settles O56: reset leads to IDLE, an accepted START to VALIDATE, CORE's turn leaves VALIDATE and GRID, and no
other action moves the phase. -/
theorem phaseMovesOnlyAsListed : Obligations.PhaseMovesOnlyAsListed := by
  intro s t h he
  rcases step_cases he with ⟨hs, he⟩ | ⟨a, rest, hs, he⟩
  · exact (coreStep_phase he).imp id fun hq => .inr (.inr ⟨.inl hs, hq⟩)
  have hext : a.external = true := h.external a (by rw [hs]; exact List.mem_cons_self)
  cases a with
  | invoke c =>
    rcases invoke_external_phase hext he with hp | ⟨hb, hp, data, hd, h1⟩
    · exact .inl hp
    · exact .inr (.inr (.inl ⟨State.phase_of_not_busy hb, hp, c, rest, data, hs, hd, h1⟩))
  | inWrite a v =>
    obtain ⟨-, rfl⟩ := hostInWrite_next he
    exact .inl rfl
  | inRead a => exact .inl (hostInRead_control he).phase
  | outWrite a v => exact .inl (hostOutWrite_frame he).2
  | outRead a => exact .inl (hostOutRead_control he).phase
  | wait =>
    obtain ⟨r, k⟩ := hostWait_next he
    exact .inl k.phase
  | rst =>
    cases he
    exact .inr (.inl ⟨rfl, rest, hs⟩)
  | core => exact (coreStep_phase he).imp id fun hq => .inr (.inr ⟨.inr ⟨rest, hs⟩, hq⟩)

/-! ### Which operations write the registers (10_state.md R34, R25) -/

/-- The operations that may write a register. -/
def Instr.writesRegs : Instr → Prop
  | .wrCtrl _ => True
  | .wrFlenLo _ => True
  | .wrFlenHi _ => True
  | .validate => True
  | .decode => True
  | _ => False

/-- A completed reading of IN answers the state it was given. -/
theorem State.whenInExists_eq {s t u : State} {a n : Nat} (h : s.whenInExists a n t = .next u) : u = t :=
  (State.whenInExists_next.mp h).2.symm

/-- Every other operation leaves all registers alone. -/
theorem exec_regs {i : Instr} {s t : State} (hi : ¬ Instr.writesRegs i) (he : exec i s = .next t) :
    t.regs = s.regs := by
  have read : ∀ {a n : Nat} {u : State}, s.whenInExists a n u = .next t → u.regs = s.regs → t.regs = s.regs :=
    fun h hu => (congrArg State.regs (State.whenInExists_eq h)).trans hu
  cases i with
  | wrCtrl => exact absurd trivial hi
  | wrFlenLo => exact absurd trivial hi
  | wrFlenHi => exact absurd trivial hi
  | validate => exact absurd trivial hi
  | decode => exact absurd trivial hi
  | hawRsv write rsv offset data =>
    cases write <;> cases he <;> rfl
  | decDxt1 a => exact read he (s.decodeDxt1_same a).regs
  | decDxt3 a => exact read he (s.decodeDxt3_same a).regs
  | decDxt5 a => exact read he (s.decodeDxt5_same a).regs
  | decColor b => exact read he (s.decodeColour_same b).regs
  | decAlpha3 b => exact read he (s.decodeAlpha3_same b).regs
  | decAlpha5 b => exact read he (s.decodeAlpha5_same b).regs
  | cendRead b => exact read he (s.readEndpoints_same b).regs
  | aendRead b => exact read he (s.readAlphaEnds_same b).regs
  | leRead a n => exact read he rfl
  | anibUnpack b i => exact read he rfl
  | hdrParse => exact read he rfl
  | tileCopy cx cy =>
    obtain ⟨-, rfl⟩ := execTileCopy_next he
    rfl
  | gridStep =>
    obtain ⟨-, -, -, hr, -⟩ := gridStep_frame he
    exact hr
  | _ => cases he; rfl

/-- Two register files with the same FILE_LEN. -/
def SameFileLen (r q : Regs) : Prop := q.fileLenLo = r.fileLenLo ∧ q.fileLenHi = r.fileLenHi

theorem SameFileLen.of_eq {r q : Regs} (h : q = r) : SameFileLen r q := by
  subst h
  exact ⟨rfl, rfl⟩

theorem SameResults.of_eq {r q : Regs} (h : q = r) : SameResults r q := by
  subst h
  rfl

/-- VALIDATE latches the header and the geometry, never FILE_LEN (44_container.md R245, R253). -/
theorem State.validateStep_fileLen (s : State) : SameFileLen s.regs s.validateStep.regs := by
  rcases s.validateStep_cases with ⟨-, he⟩ | ⟨-, -, he⟩ | ⟨-, -, -, -, he⟩ | ⟨-, -, -, ⟨e, -, he⟩ | ⟨-, he⟩⟩
  all_goals
    rw [he]
    exact ⟨rfl, rfl⟩

/-- DECODE keeps FILE_LEN: START clears only the result registers, the grid writes none. -/
theorem execDecode_fileLen {s t : State} (he : execDecode s = .next t) : SameFileLen s.regs t.regs := by
  have hv : SameFileLen s.regs s.acceptStart.validateStep.regs := s.acceptStart.validateStep_fileLen
  rcases execDecode_cases he with ⟨-, rfl⟩ | ⟨-, -, rfl⟩ | ⟨-, -, hg⟩
  · exact ⟨rfl, rfl⟩
  · exact hv
  · refine gridSteps_induction (P := fun u => SameFileLen s.regs u.regs) (fun u v h hu => ?_) hv hg
    rw [exec_regs (i := .gridStep) id hu]
    exact h

/-- FILE_LEN is kept by every operation but the two that write it (10_state.md R25). -/
theorem exec_fileLen {i : Instr} {s t : State} (he : exec i s = .next t) :
    ((∀ data, i ≠ .wrFlenLo data) → t.regs.fileLenLo = s.regs.fileLenLo) ∧
    ((∀ data, i ≠ .wrFlenHi data) → t.regs.fileLenHi = s.regs.fileLenHi) := by
  have keep : SameFileLen s.regs t.regs →
      ((∀ data, i ≠ .wrFlenLo data) → t.regs.fileLenLo = s.regs.fileLenLo) ∧
      ((∀ data, i ≠ .wrFlenHi data) → t.regs.fileLenHi = s.regs.fileLenHi) :=
    fun h => ⟨fun _ => h.1, fun _ => h.2⟩
  by_cases hi : Instr.writesRegs i
  · cases i with
    | wrFlenLo data =>
      cases he
      exact ⟨fun h => absurd rfl (h data), fun _ => rfl⟩
    | wrFlenHi data =>
      cases he
      exact ⟨fun _ => rfl, fun h => absurd rfl (h data)⟩
    | wrCtrl data =>
      rcases execWrCtrl_next he with ⟨-, -, rfl⟩ | rfl
      · exact keep ⟨rfl, rfl⟩
      · exact keep ⟨rfl, rfl⟩
    | validate =>
      rcases execValidate_next he with ⟨-, rfl⟩ | rfl
      · exact keep s.validateStep_fileLen
      · exact keep ⟨rfl, rfl⟩
    | decode => exact keep (execDecode_fileLen he)
    | _ => exact absurd hi id
  · exact keep (.of_eq (exec_regs hi he))

/-- Settles O57: the operations that write a register are five, and each of the two FILE_LEN writes changes its own
half only. -/
theorem registersChangeOnlyByTheirOperations : Obligations.RegistersChangeOnlyByTheirOperations := by
  intro i s t he
  refine ⟨fun hc hv hd => ?_, exec_fileLen he⟩
  by_cases hi : Instr.writesRegs i
  · cases i with
    | wrFlenLo data =>
      cases he
      rfl
    | wrFlenHi data =>
      cases he
      rfl
    | wrCtrl data => exact absurd rfl (hc data)
    | validate => exact absurd rfl hv
    | decode => exact absurd rfl hd
    | _ => exact absurd hi id
  · exact .of_eq (exec_regs hi he)

/-! ### Which operations write the two flags (10_state.md R44) -/

@[simp] theorem State.decodeColour_eightAlpha (s : State) (b : Nat) :
    (s.decodeColour b).eightAlpha = s.eightAlpha := by
  unfold State.decodeColour
  rw [State.selectColours_eq, s.loadPalette_eq b]
  exact s.readEndpoints_eightAlpha b

@[simp] theorem State.decodeAlpha3_eightAlpha (s : State) (b : Nat) :
    (s.decodeAlpha3 b).eightAlpha = s.eightAlpha := by
  rw [s.decodeAlpha3_eq b]
  simp only [State.readAlpha64_eightAlpha]

@[simp] theorem State.decodeAlpha3_fourColor (s : State) (b : Nat) :
    (s.decodeAlpha3 b).fourColor = s.fourColor := by
  rw [s.decodeAlpha3_eq b]
  simp only [State.readAlpha64_fourColor]

@[simp] theorem State.decodeAlpha5_fourColor (s : State) (b : Nat) :
    (s.decodeAlpha5 b).fourColor = s.fourColor := by
  unfold State.decodeAlpha5
  rw [State.selectAlphas_eq, s.loadAlphaTable_eq b]
  exact s.readAlphaEnds_fourColor b

/-- Two states with the same two flags. -/
def SameFlags (s t : State) : Prop := t.fourColor = s.fourColor ∧ t.eightAlpha = s.eightAlpha

/-- VALIDATE writes neither flag. -/
theorem State.validateStep_flags (s : State) : SameFlags s s.validateStep := by
  rcases s.validateStep_cases with ⟨-, he⟩ | ⟨-, -, he⟩ | ⟨-, -, -, -, he⟩ | ⟨-, -, -, ⟨e, -, he⟩ | ⟨-, he⟩⟩
  all_goals
    rw [he]
    exact ⟨rfl, rfl⟩

/-- The operations that may write a flag: the block decoders and what runs them. -/
def Instr.writesFlags : Instr → Prop
  | .decColor _ => True
  | .decAlpha5 _ => True
  | .decDxt1 _ => True
  | .decDxt3 _ => True
  | .decDxt5 _ => True
  | .gridStep => True
  | .decode => True
  | _ => False

/-- Every other operation leaves both flags alone. -/
theorem exec_flags {i : Instr} {s t : State} (hi : ¬ Instr.writesFlags i) (he : exec i s = .next t) :
    SameFlags s t := by
  have read : ∀ {a n : Nat} {u : State}, s.whenInExists a n u = .next t → SameFlags s u → SameFlags s t :=
    fun h hu => State.whenInExists_eq h ▸ hu
  cases i with
  | decColor => exact absurd trivial hi
  | decAlpha5 => exact absurd trivial hi
  | decDxt1 => exact absurd trivial hi
  | decDxt3 => exact absurd trivial hi
  | decDxt5 => exact absurd trivial hi
  | gridStep => exact absurd trivial hi
  | decode => exact absurd trivial hi
  | hawRsv write rsv offset data =>
    cases write <;> cases he <;> exact ⟨rfl, rfl⟩
  | wrCtrl data =>
    rcases execWrCtrl_next he with ⟨-, -, rfl⟩ | rfl
    · exact ⟨rfl, rfl⟩
    · exact ⟨rfl, rfl⟩
  | validate =>
    rcases execValidate_next he with ⟨-, rfl⟩ | rfl
    · exact s.validateStep_flags
    · exact ⟨rfl, rfl⟩
  | tileCopy cx cy =>
    obtain ⟨-, rfl⟩ := execTileCopy_next he
    exact ⟨rfl, rfl⟩
  | decAlpha3 b => exact read he ⟨s.decodeAlpha3_fourColor b, s.decodeAlpha3_eightAlpha b⟩
  | cendRead b => exact read he ⟨s.readEndpoints_fourColor b, s.readEndpoints_eightAlpha b⟩
  | aendRead b => exact read he ⟨s.readAlphaEnds_fourColor b, s.readAlphaEnds_eightAlpha b⟩
  | leRead a n => exact read he ⟨rfl, rfl⟩
  | anibUnpack b i => exact read he ⟨rfl, rfl⟩
  | hdrParse => exact read he ⟨rfl, rfl⟩
  | _ => cases he; exact ⟨rfl, rfl⟩

/-- Settles O59: the colour decoder writes only four_color and the DXT5 alpha decoder only eight_alpha, the DXT1 and
DXT3 block decoders run no DXT5 alpha decoder. -/
theorem flagsChangeOnlyByTheirDecoders : Obligations.FlagsChangeOnlyByTheirDecoders := by
  intro i s t he hg hd
  by_cases hi : Instr.writesFlags i
  · cases i with
    | gridStep => exact absurd rfl hg
    | decode => exact absurd rfl hd
    | decColor b =>
      obtain rfl := State.whenInExists_eq he
      exact ⟨fun h => absurd rfl (h b).1, fun _ => s.decodeColour_eightAlpha b⟩
    | decDxt1 b =>
      obtain rfl := State.whenInExists_eq he
      exact ⟨fun h => absurd rfl (h b).2.1, fun _ => s.decodeColour_eightAlpha b⟩
    | decDxt3 b =>
      obtain rfl := State.whenInExists_eq he
      exact ⟨fun h => absurd rfl (h b).2.2.1, fun _ => by simp [State.decodeDxt3]⟩
    | decDxt5 b => exact ⟨fun h => absurd rfl (h b).2.2.2, fun h => absurd rfl (h b).2⟩
    | decAlpha5 b =>
      obtain rfl := State.whenInExists_eq he
      exact ⟨fun _ => s.decodeAlpha5_fourColor b, fun h => absurd rfl (h b).1⟩
    | _ => exact absurd hi id
  · obtain ⟨hf, ha⟩ := exec_flags hi he
    exact ⟨fun _ => hf, fun _ => ha⟩

/-! ### The block step (43_block_grid.md R218, 10_state.md R40) -/

/-- The block decoder of the latched variant is the case of R218, where the block exists in IN. -/
theorem exec_blockDecoder {s : State} {addr : Nat} (hv : s.geom.variant ≠ .none)
    (hin : addr + blockBytesOf s.geom.variant ≤ s.cfg.inCap) :
    exec (blockDecoder s.geom.variant addr) s = .next (s.decodeBlock addr) := by
  unfold State.decodeBlock
  cases hk : s.geom.variant with
  | none => exact absurd hk hv
  | dxt1 =>
    rw [hk] at hin
    exact State.whenInExists_of_le hin
  | dxt3 =>
    rw [hk] at hin
    exact State.whenInExists_of_le hin
  | dxt5 =>
    rw [hk] at hin
    exact State.whenInExists_of_le hin

/-- TILE.COPY completes where the image fits OUT (43_block_grid.md R217). -/
theorem exec_tileCopy_of_fits {s : State} (h : s.geom.outLen ≤ s.cfg.outCap) (cx cy : Nat) :
    exec (.tileCopy cx cy) s = .next (s.copyTile cx cy) :=
  if_pos (State.outExists_of_fits h cx cy)

/-- GRID.STEP in a legal geometry draws the block and advances. -/
theorem GridInv.exec_gridStep {s : State} (h : GridInv s) (hp : s.phase = .grid) :
    exec .gridStep s = .next s.drawBlock.advance :=
  (if_pos hp).trans h.stepBlock

/-- The block of the iterator decoded with the decode's own reading (log 8), before the copy. -/
def State.decodedBlock (s : State) : State :=
  (s.blockReading s.iterX s.iterY).decodeBlock (s.blockAddr s.iterX s.iterY)

theorem State.decodedBlock_same (s : State) : SameOutside s s.decodedBlock :=
  (s.atReading_same _).trans ((s.blockReading s.iterX s.iterY).decodeBlock_same _)

/-- Drawing a block is the decode and the copy, but for the number of draws. -/
theorem State.drawBlock_eq (s : State) :
    s.drawBlock = { s.decodedBlock.copyTile s.iterX s.iterY with draws := s.draws } := rfl

/-- Settles O38: the block of the iterator, its copy, and the three branches of R40. -/
theorem gridStepDecodesCopiesAdvances : Obligations.GridStepDecodesCopiesAdvances := by
  intro s hp h
  have hin : s.blockAddr s.iterX s.iterY + blockBytesOf s.geom.variant ≤ s.cfg.inCap :=
    (h.block_below h.column h.row).trans h.lenFits
  have hsame := s.decodedBlock_same
  have hout : s.decodedBlock.geom.outLen ≤ s.decodedBlock.cfg.outCap := by
    rw [hsame.geom, hsame.cfg]
    exact h.outFits
  refine ⟨(s.blockReading s.iterX s.iterY).draws, s.decodedBlock, s.decodedBlock.copyTile s.iterX s.iterY,
    s.drawBlock.advance, exec_blockDecoder (s := s.blockReading s.iterX s.iterY) h.variant hin,
    exec_tileCopy_of_fits hout _ _, h.exec_gridStep hp, ?_⟩
  have hg := s.drawBlock_geom
  have hbx := s.drawBlock_iterX
  have hby := s.drawBlock_iterY
  rcases s.drawBlock.advance_cases with ⟨hx, he⟩ | ⟨hx, hy, he⟩ | ⟨hx, hy, he⟩ <;> rw [hg, hbx] at hx
  · rw [he, hbx, s.drawBlock_eq]
    exact ⟨fun _ => rfl, fun hx' => by omega, fun hx' => by omega⟩
  · rw [hg, hby] at hy
    rw [he, hby, s.drawBlock_eq]
    exact ⟨fun hx' => by omega, fun _ _ => rfl, fun _ hy' => by omega⟩
  · rw [hg, hby] at hy
    rw [he]
    refine ⟨fun hx' => by omega, fun _ hy' => by omega, fun _ _ => ⟨rfl, fun hr => ?_⟩⟩
    exact State.settledOut_nil ((s.drawBlock_outRaced).trans hr)

end Sys2Proof.Machine

/-! PROOFS. The memories (20_memory.md): in a run CORE stays inside IN and OUT and never stops, only the copy writes
OUT, and the number of block lanes changes nothing. -/

namespace Sys2Proof.Machine

/-! ### What HOST's accesses answer, said once -/

/-- A completed OUT write goes to OUT at once, or while BUSY is kept beside the decode's bytes (log 15). -/
theorem hostOutWrite_cases {a : Nat} {v : Byte} {s t : State} (he : hostOutWrite a v s = .next t) :
    (s.busy = true ∧ t = { s with
      outMem := if s.phase = .grid ∧ a < s.geom.outLen then s.outMem else s.outMem.write a v
      outBefore := s.outBefore.write a v
      outRaced := a :: s.outRaced }) ∨
    (s.busy = false ∧ t = { s with outMem := s.outMem.write a v }) := by
  unfold hostOutWrite at he
  split at he
  · cases he
  · split at he
    · rename_i hb
      cases he
      exact .inl ⟨hb, rfl⟩
    · rename_i hb
      cases he
      exact .inr ⟨Bool.eq_false_iff.mpr hb, rfl⟩

theorem hostInRead_eq {a : Nat} {s t : State} (he : hostInRead a s = .next t) :
    ∃ d v, t = { s with draws := d, ret := v } := by
  unfold hostInRead at he
  split at he
  · cases he
  · cases he
    exact ⟨_, _, rfl⟩

theorem hostOutRead_eq {a : Nat} {s t : State} (he : hostOutRead a s = .next t) :
    ∃ d v, t = { s with draws := d, ret := v } := by
  unfold hostOutRead at he
  split at he
  · cases he
  · split at he
    · cases he
      exact ⟨_, _, rfl⟩
    · cases he
      exact ⟨_, _, rfl⟩

/-! ### The schedule of a run -/

theorem exec_schedule {i : Instr} {s t : State} (he : exec i s = .next t) : t.schedule = s.schedule :=
  (exec_frame he).2.2

theorem coreStep_schedule {s t : State} (he : coreStep s = .next t) : t.schedule = s.schedule := by
  rcases coreStep_cases he with rfl | ⟨-, he⟩ | ⟨-, he⟩
  · rfl
  · exact exec_schedule he
  · exact exec_schedule he

/-- An action adds to the schedule at most WAIT itself and a turn of CORE (log 30). -/
theorem act_schedule {a : Action} {s t : State} (he : act a s = .next t) :
    ∀ b ∈ t.schedule, b ∈ s.schedule ∨ b = .core ∨ b = .wait := by
  have keep : t.schedule = s.schedule → ∀ b ∈ t.schedule, b ∈ s.schedule ∨ b = .core ∨ b = .wait :=
    fun h b hb => .inl (h ▸ hb)
  cases a with
  | invoke c =>
    obtain ⟨i, -, he⟩ := invoke_next he
    exact keep (exec_schedule he)
  | inWrite a v =>
    obtain ⟨-, rfl⟩ := hostInWrite_next he
    exact keep rfl
  | inRead a => exact keep (hostInRead_control he).schedule
  | outWrite a v =>
    rcases hostOutWrite_cases he with ⟨-, rfl⟩ | ⟨-, rfl⟩
    · exact keep rfl
    · exact keep rfl
  | outRead a => exact keep (hostOutRead_control he).schedule
  | wait =>
    obtain rfl := Host.Outcome.next.inj ((hostWait_eq s).symm.trans he)
    intro b hb
    dsimp only at hb
    split at hb
    · exact mem_loopWait hb
    · exact .inl hb
  | rst =>
    cases he
    exact keep rfl
  | core => exact keep (coreStep_schedule he)

/-- What is to come after a step was to come before it, or is WAIT's own. -/
theorem step_schedule {s t : State} (he : step s = .next t) :
    ∀ b ∈ t.schedule, b ∈ s.schedule ∨ b = .core ∨ b = .wait := by
  rcases step_cases he with ⟨-, he⟩ | ⟨a, rest, hs, he⟩
  · exact fun b hb => .inl (coreStep_schedule he ▸ hb)
  · rw [hs]
    exact fun b hb => (act_schedule he b hb).imp (List.mem_cons_of_mem a) id

/-- A run's schedule holds only what HOST, CORE and the platform do, after a step too. -/
theorem RunInv.step_external {s t : State} (h : RunInv s) (he : step s = .next t) :
    ∀ a ∈ t.schedule, a.external = true := by
  intro a ha
  rcases step_schedule he a ha with hm | rfl | rfl
  · exact h.external a hm
  · rfl
  · rfl

/-! ### The decode of a run through each action -/

/-- Two states at the same point of the same decode: what GridInv and the cleared registers depend on. -/
structure SameDecode (s t : State) : Prop where
  cfg     : t.cfg = s.cfg
  phase   : t.phase = s.phase
  len     : t.len = s.len
  hdr     : t.hdr = s.hdr
  geom    : t.geom = s.geom
  iterX   : t.iterX = s.iterX
  iterY   : t.iterY = s.iterY
  results : SameResults s.regs t.regs

theorem SameResults.trans {p q r : Regs} (h : SameResults p q) (k : SameResults q r) : SameResults p r := by
  unfold SameResults at h k ⊢
  rw [h] at k
  exact k

theorem SameResults.gridRegisters {s t : State} (h : SameResults s.regs t.regs) : SameGridRegisters t s :=
  ⟨(congrArg Regs.blocksX h :), (congrArg Regs.blocksY h :), (congrArg Regs.variant h :)⟩

theorem GridInv.sameDecode {s t : State} (h : GridInv s) (k : SameDecode s t) : GridInv t :=
  h.congr k.geom k.hdr k.len k.cfg k.results.gridRegisters (k.iterX ▸ h.column) (k.iterY ▸ h.row)

/-- The part of RunInv that speaks of the running decode, by its phase. -/
structure DecodeInv (s : State) : Prop where
  grid    : s.phase = .grid → GridInv s
  pending : s.phase = .validate → s.outMem = s.outBefore
  cleared : s.phase = .validate → SameResults Regs.reset s.regs

theorem RunInv.decodeInv {s : State} (h : RunInv s) : DecodeInv s := ⟨h.grid, h.pending, h.cleared⟩

namespace DecodeInv

variable {s t : State}

/-- With no decode running there is nothing to keep. -/
theorem of_not_busy (h : t.busy = false) : DecodeInv t where
  grid := fun hp => absurd hp (State.not_busy_iff.mp h).2
  pending := fun hp => absurd hp (State.not_busy_iff.mp h).1
  cleared := fun hp => absurd hp (State.not_busy_iff.mp h).1

theorem congr (h : DecodeInv s) (k : SameDecode s t) (hm : s.phase = .validate → t.outMem = t.outBefore) :
    DecodeInv t where
  grid := fun hp => (h.grid (k.phase.symm.trans hp)).sameDecode k
  pending := fun hp => hm (k.phase.symm.trans hp)
  cleared := fun hp => (h.cleared (k.phase.symm.trans hp)).trans k.results

/-- The updates that touch neither the decode nor OUT. -/
theorem frame (h : DecodeInv s) (m : Memory) (d : Nat) (v : Ret) (r : List Action) :
    DecodeInv { s with inMem := m, draws := d, ret := v, schedule := r } :=
  h.congr ⟨rfl, rfl, rfl, rfl, rfl, rfl, rfl, rfl⟩ h.pending

/-- FILE_LEN is no part of a running decode (10_state.md R25, R36). -/
theorem fileLen (h : DecodeInv s) (lo hi : Word) :
    DecodeInv { s with regs := { s.regs with fileLenLo := lo, fileLenHi := hi } } :=
  h.congr ⟨rfl, rfl, rfl, rfl, rfl, rfl, rfl, rfl⟩ h.pending

/-- An accepted START has written no OUT byte and shows no result (20_memory.md R71, 70_reset_and_hazards.md R350). -/
theorem acceptStart (s : State) : DecodeInv s.acceptStart where
  grid := fun hp => by cases hp
  pending := fun _ => rfl
  cleared := fun _ => rfl

/-- The race with HOST leaves the decode alone, and before the grid OUT and its record take the same byte. -/
theorem outWrite (h : DecodeInv s) {a : Nat} {v : Byte} (he : hostOutWrite a v s = .next t) : DecodeInv t := by
  rcases hostOutWrite_cases he with ⟨-, rfl⟩ | ⟨hb, rfl⟩
  · refine h.congr ⟨rfl, rfl, rfl, rfl, rfl, rfl, rfl, rfl⟩ fun hp => ?_
    dsimp only
    rw [if_neg (by simp [hp]), h.pending hp]
  · exact of_not_busy hb

/-- HOST's register accesses start a decode or leave the running one alone (45_host_interface.md R270 to R275). -/
theorem exec_haw (h : DecodeInv s) {w : Word48} (he : exec (decodeHaw w) s = .next t) : DecodeInv t := by
  unfold decodeHaw at he
  split_ifs at he
  · cases hw : hawWrite w <;> rw [hw] at he <;> cases he
    · exact h.frame _ _ _ _
    · exact h
  · cases he
    exact h.frame _ _ _ _
  · rcases execWrCtrl_next he with ⟨-, -, rfl⟩ | rfl
    · exact acceptStart s
    · exact h
  · cases he
    exact h.fileLen _ _
  · cases he
    exact h.fileLen _ _
  · cases he
    exact h

/-- A validation ends in ERROR or with a legal geometry (20_memory.md R72). -/
theorem validateStep (s : State) : DecodeInv s.validateStep := by
  obtain ⟨-, -, -, -, -, he | ⟨hg, -, -⟩⟩ := s.validateStep_frame
  · exact of_not_busy (State.not_busy_iff.mpr (by simp [he]))
  · exact ⟨fun hp => State.validateStep_grid hp, fun hp => by simp [hg] at hp, fun hp => by simp [hg] at hp⟩

/-- A block step keeps the geometry legal, or the decode is done. -/
theorem gridStep (h : DecodeInv s) (hp : s.phase = .grid) : DecodeInv s.drawBlock.advance := by
  rcases (h.grid hp).advance hp with ⟨hg, hq⟩ | hq
  · exact ⟨fun _ => hg, fun hv => by simp [hq] at hv, fun hv => by simp [hq] at hv⟩
  · exact of_not_busy (State.not_busy_iff.mpr (by simp [hq]))

theorem core (h : DecodeInv s) (he : coreStep s = .next t) : DecodeInv t := by
  rcases coreStep_cases he with rfl | ⟨-, he⟩ | ⟨hp, he⟩
  · exact h
  · rcases execValidate_next he with ⟨-, rfl⟩ | rfl
    · exact validateStep s
    · exact h
  · obtain rfl := Host.Outcome.next.inj (((h.grid hp).exec_gridStep hp).symm.trans he)
    exact h.gridStep hp

/-- What HOST, CORE and the platform do keeps the running decode legal. -/
theorem action (h : DecodeInv s) {a : Action} (ha : a.external = true) (he : act a s = .next t) : DecodeInv t := by
  cases a with
  | invoke c =>
    obtain ⟨i, hi, he⟩ := invoke_next he
    obtain rfl : decodeHaw c.word = i := Except.ok.inj ((decode_external ha).symm.trans hi)
    exact h.exec_haw he
  | inWrite a v =>
    obtain ⟨-, rfl⟩ := hostInWrite_next he
    exact h.frame _ _ _ _
  | inRead a =>
    obtain ⟨d, v, rfl⟩ := hostInRead_eq he
    exact h.frame _ _ _ _
  | outWrite a v => exact h.outWrite he
  | outRead a =>
    obtain ⟨d, v, rfl⟩ := hostOutRead_eq he
    exact h.frame _ _ _ _
  | wait =>
    obtain rfl := Host.Outcome.next.inj ((hostWait_eq s).symm.trans he)
    exact h.frame _ _ _ _
  | rst =>
    cases he
    exact of_not_busy rfl
  | core => exact h.core he

end DecodeInv

/-- Settles O54: the invariant of every step (O53), the schedule, and the running decode through each action. -/
theorem stepKeepsTheRunInvariant : Obligations.StepKeepsTheRunInvariant := by
  intro s t h he
  have hd : DecodeInv t := by
    rcases step_cases he with ⟨-, he⟩ | ⟨a, rest, hs, he⟩
    · exact h.decodeInv.core he
    · have ha : a.external = true := h.external a (by rw [hs]; exact List.mem_cons_self)
      exact (h.decodeInv.frame _ _ _ rest).action ha he
  exact ⟨(stepKeepsTheInvariant s t h.inv he).1, h.step_external he, hd.grid, hd.pending, hd.cleared⟩

/-! ### Where a run can stop (20_memory.md R72, 60_exceptions.md R300) -/

/-- In a legal geometry CORE's turn completes. -/
theorem DecodeInv.coreStep_next {s : State} (h : DecodeInv s) : ∃ t, coreStep s = .next t := by
  unfold coreStep
  cases hp : s.phase with
  | validate => exact ⟨_, if_pos hp⟩
  | grid => exact ⟨_, (h.grid hp).exec_gridStep hp⟩
  | idle => exact ⟨s, rfl⟩
  | done => exact ⟨s, rfl⟩
  | error => exact ⟨s, rfl⟩

/-- Every host access word completes (30_encoding.md R92). -/
theorem exec_haw_next (w : Word48) (s : State) : ∃ t, exec (decodeHaw w) s = .next t := by
  unfold decodeHaw
  split_ifs
  · cases hawWrite w <;> exact ⟨_, rfl⟩
  · exact ⟨_, rfl⟩
  · show ∃ t, execWrCtrl _ s = .next t
    unfold execWrCtrl
    split <;> exact ⟨_, rfl⟩
  · exact ⟨_, rfl⟩
  · exact ⟨_, rfl⟩
  · exact ⟨_, rfl⟩

theorem hostInWrite_next_or_hazard (a : Nat) (v : Byte) (s : State) :
    (∃ t, hostInWrite a v s = .next t) ∨ s.cfg.inCap ≤ a ∨ s.busy = true ∧ a < s.len.toNat := by
  unfold hostInWrite
  split
  · rename_i ha
    exact .inr (.inl ha)
  · split
    · rename_i hz
      exact .inr (.inr hz)
    · exact .inl ⟨_, rfl⟩

theorem hostInRead_next_or_absent (a : Nat) (s : State) : (∃ t, hostInRead a s = .next t) ∨ s.cfg.inCap ≤ a := by
  unfold hostInRead
  split
  · rename_i ha
    exact .inr ha
  · exact .inl ⟨_, rfl⟩

theorem hostOutWrite_next_or_absent (a : Nat) (v : Byte) (s : State) :
    (∃ t, hostOutWrite a v s = .next t) ∨ s.cfg.outCap ≤ a := by
  unfold hostOutWrite
  split
  · rename_i ha
    exact .inr ha
  · split <;> exact .inl ⟨_, rfl⟩

theorem hostOutRead_next_or_absent (a : Nat) (s : State) : (∃ t, hostOutRead a s = .next t) ∨ s.cfg.outCap ≤ a := by
  unfold hostOutRead
  split
  · rename_i ha
    exact .inr ha
  · split <;> exact .inl ⟨_, rfl⟩

theorem step_of_cons {s : State} {a : Action} {rest : List Action} (hs : s.schedule = a :: rest) :
    step s = act a { s with schedule := rest } := by
  unfold step
  rw [hs]

/-- Settles O55: CORE's turn, a host access word, WAIT and RST complete, and each memory access of HOST says itself
where it stops. -/
theorem runsStopOnlyByTheHost : Obligations.RunsStopOnlyByTheHost := by
  intro s h
  refine ⟨h.decodeInv.coreStep_next, ?_⟩
  cases hs : s.schedule with
  | nil =>
    obtain ⟨t, ht⟩ := h.decodeInv.coreStep_next
    refine .inl ⟨t, ?_⟩
    unfold step
    rw [hs]
    exact ht
  | cons a rest =>
    rw [step_of_cons hs]
    have ha : a.external = true := h.external a (by rw [hs]; exact List.mem_cons_self)
    cases a with
    | invoke c =>
      obtain ⟨t, ht⟩ := exec_haw_next c.word { s with schedule := rest }
      refine .inl ⟨t, ?_⟩
      show invoke c _ = _
      unfold invoke
      rw [decode_external ha]
      exact ht
    | inWrite a v =>
      exact (hostInWrite_next_or_hazard a v { s with schedule := rest }).imp id fun hx =>
        ⟨a, rest, .inl ⟨v, rfl, hx⟩⟩
    | inRead a =>
      exact (hostInRead_next_or_absent a { s with schedule := rest }).imp id fun hx =>
        ⟨a, rest, .inr (.inl ⟨rfl, hx⟩)⟩
    | outWrite a v =>
      exact (hostOutWrite_next_or_absent a v { s with schedule := rest }).imp id fun hx =>
        ⟨a, rest, .inr (.inr (.inl ⟨v, rfl, hx⟩))⟩
    | outRead a =>
      exact (hostOutRead_next_or_absent a { s with schedule := rest }).imp id fun hx =>
        ⟨a, rest, .inr (.inr (.inr ⟨rfl, hx⟩))⟩
    | wait => exact .inl ⟨_, rfl⟩
    | rst => exact .inl ⟨_, rfl⟩
    | core => exact .inl (h.decodeInv.frame _ _ _ rest).coreStep_next

/-! ### Which operations write the memories (20_memory.md R61, R62, R71) -/

/-- OUT is written by the copy alone: a START and a validation leave it, and no other operation moves CORE. -/
theorem exec_outMem {i : Instr} {s t : State} (he : exec i s = .next t) (hc : ∀ cx cy, i ≠ .tileCopy cx cy)
    (hg : i ≠ .gridStep) (hd : i ≠ .decode) : t.outMem = s.outMem := by
  by_cases hi : Instr.movesCore i
  · cases i with
    | wrCtrl data => rcases execWrCtrl_next he with ⟨-, -, rfl⟩ | rfl <;> rfl
    | validate =>
      rcases execValidate_next he with ⟨-, rfl⟩ | rfl
      · obtain ⟨-, -, hout, -⟩ := s.validateStep_frame
        exact hout
      · rfl
    | tileCopy cx cy => exact absurd rfl (hc cx cy)
    | gridStep => exact absurd rfl hg
    | decode => exact absurd rfl hd
    | _ => exact absurd hi id
  · exact (exec_control hi he).outMem

/-- Settles O58: the frame of every operation, and OUT's. -/
theorem onlyTheCopyWritesOut : Obligations.OnlyTheCopyWritesOut := by
  intro i s t he
  obtain ⟨hcfg, hin, hsched⟩ := exec_frame he
  exact ⟨hin, hsched, hcfg, exec_outMem he⟩

/-! ### The number of block lanes (20_memory.md R75, log 21) -/

/-- An operation keeps the schedule, so it commutes with changing the lanes alone. -/
theorem exec_withLanes (i : Instr) (s : State) (n : Nat) :
    exec i (s.withLanes n) = mapNext (fun t => t.withLanes n) (exec i s) := by
  rw [State.withLanes_eq_reframe, exec_reframe]
  cases he : exec i s with
  | next t =>
    exact congrArg (fun r => Host.Outcome.next (t.reframe n r)) (exec_schedule he).symm
  | fault f => rfl
  | refused r => rfl

theorem coreStep_withLanes (s : State) (n : Nat) :
    coreStep (s.withLanes n) = mapNext (fun t => t.withLanes n) (coreStep s) := by
  unfold coreStep
  rw [State.withLanes_eq_reframe, State.reframe_phase, ← State.withLanes_eq_reframe]
  split
  · exact exec_withLanes _ s n
  · exact exec_withLanes _ s n
  all_goals rfl

theorem invoke_withLanes (c : Code) (s : State) (n : Nat) :
    invoke c (s.withLanes n) = mapNext (fun t => t.withLanes n) (invoke c s) := by
  unfold invoke
  split
  · exact exec_withLanes _ s n
  · rfl

theorem hostInWrite_withLanes (a : Nat) (v : Byte) (s : State) (n : Nat) :
    hostInWrite a v (s.withLanes n) = mapNext (fun t => t.withLanes n) (hostInWrite a v s) := by
  show (if s.cfg.inCap ≤ a then _ else if s.busy = true ∧ a < s.len.toNat then _ else _) = _
  unfold hostInWrite
  split
  · rfl
  · split <;> rfl

theorem hostInRead_withLanes (a : Nat) (s : State) (n : Nat) :
    hostInRead a (s.withLanes n) = mapNext (fun t => t.withLanes n) (hostInRead a s) := by
  show (if s.cfg.inCap ≤ a then _ else _) = _
  unfold hostInRead
  split <;> rfl

theorem hostOutWrite_withLanes (a : Nat) (v : Byte) (s : State) (n : Nat) :
    hostOutWrite a v (s.withLanes n) = mapNext (fun t => t.withLanes n) (hostOutWrite a v s) := by
  show (if s.cfg.outCap ≤ a then _ else if s.busy = true then _ else _) = _
  unfold hostOutWrite
  split
  · rfl
  · split <;> rfl

theorem hostOutRead_withLanes (a : Nat) (s : State) (n : Nat) :
    hostOutRead a (s.withLanes n) = mapNext (fun t => t.withLanes n) (hostOutRead a s) := by
  unfold hostOutRead
  rw [State.withLanes_eq_reframe, State.reframe_decodedByte]
  show (if s.cfg.outCap ≤ a then _ else _) = _
  split
  · rfl
  · split <;> rfl

theorem hostWait_withLanes (s : State) (n : Nat) :
    hostWait (s.withLanes n) = mapNext (fun t => t.withLanes n) (hostWait s) := by
  rw [hostWait_eq, hostWait_eq]
  rfl

/-- The byte an abandoned decode leaves in OUT is the same with any number of lanes (R342). -/
theorem rst_withLanes (s : State) (n : Nat) : (s.withLanes n).rst = s.rst.withLanes n := by
  have h := s.reframe_abandonedOut n s.schedule
  exact congrArg (fun m => { s.rst.withLanes n with outMem := m }) h

theorem act_withLanes (a : Action) (s : State) (n : Nat) :
    act a (s.withLanes n) = mapNext (fun t => t.withLanes n) (act a s) := by
  cases a with
  | invoke c => exact invoke_withLanes c s n
  | inWrite a v => exact hostInWrite_withLanes a v s n
  | inRead a => exact hostInRead_withLanes a s n
  | outWrite a v => exact hostOutWrite_withLanes a v s n
  | outRead a => exact hostOutRead_withLanes a s n
  | wait => exact hostWait_withLanes s n
  | rst => exact congrArg Host.Outcome.next (rst_withLanes s n)
  | core => exact coreStep_withLanes s n

/-- Settles O60: CORE's turn and every action commute with the number of lanes, and so does taking the next action. -/
theorem lanesAreNotObservable : Obligations.LanesAreNotObservable := by
  intro s n
  cases hs : s.schedule with
  | nil =>
    unfold step
    rw [show (s.withLanes n).schedule = [] from hs, hs]
    exact coreStep_withLanes s n
  | cons a rest =>
    rw [step_of_cons hs, step_of_cons (s := s.withLanes n) hs]
    exact act_withLanes a { s with schedule := rest } n

end Sys2Proof.Machine

/-! PROOFS. The encodings (30_encoding.md): decoding and encoding are inverse to each other, and the words of a host
access and of the datapath's selectors decode by the tables of R92, R99 and R110. -/

namespace Sys2Proof

open Machine

/-! ### Decoding after encoding -/

/-- Settles O2: the round trip of each operation. -/
theorem decodeOfEncodeIsTheOperation : Obligations.DecodeOfEncodeIsTheOperation := by
  intro i h
  cases i with
  | hawRsv write rsv offset data => exact Laws.RoundTrip.hawRsv write rsv offset data h
  | rd offset data => exact Laws.RoundTrip.rd offset data h
  | wrCtrl data => exact Laws.RoundTrip.wrCtrl data h
  | wrFlenLo data => exact Laws.RoundTrip.wrFlenLo data h
  | wrFlenHi data => exact Laws.RoundTrip.wrFlenHi data h
  | wrIgn offset data => exact Laws.RoundTrip.wrIgn offset data h
  | decDxt1 addr => exact Laws.RoundTrip.decDxt1 addr h
  | decDxt3 addr => exact Laws.RoundTrip.decDxt3 addr h
  | decDxt5 addr => exact Laws.RoundTrip.decDxt5 addr h
  | cmode4 c0 c1 => exact Laws.RoundTrip.cmode4 c0 c1 h
  | cmode3 c0 c1 => exact Laws.RoundTrip.cmode3 c0 c1 h
  | csel0 i => exact Laws.RoundTrip.csel0 i h
  | csel1 i => exact Laws.RoundTrip.csel1 i h
  | csel2 i => exact Laws.RoundTrip.csel2 i h
  | csel3 i => exact Laws.RoundTrip.csel3 i h
  | aexp4 n => exact Laws.RoundTrip.aexp4 n h
  | amode8 a0 a1 => exact Laws.RoundTrip.amode8 a0 a1 h
  | amode6 a0 a1 => exact Laws.RoundTrip.amode6 a0 a1 h
  | asel0 i => exact Laws.RoundTrip.asel0 i h
  | asel1 i => exact Laws.RoundTrip.asel1 i h
  | asel2 i => exact Laws.RoundTrip.asel2 i h
  | asel3 i => exact Laws.RoundTrip.asel3 i h
  | asel4 i => exact Laws.RoundTrip.asel4 i h
  | asel5 i => exact Laws.RoundTrip.asel5 i h
  | asel6 i => exact Laws.RoundTrip.asel6 i h
  | asel7 i => exact Laws.RoundTrip.asel7 i h
  | leRead a n => exact Laws.RoundTrip.leRead a n h
  | bitwin bytes p k => exact Laws.RoundTrip.bitwin bytes p k h
  | exp565 c => exact Laws.RoundTrip.exp565 c h
  | cendRead b => exact Laws.RoundTrip.cendRead b h
  | cpal01 c0 c1 => exact Laws.RoundTrip.cpal01 c0 c1 h
  | cidxUnpack idxw i => exact Laws.RoundTrip.cidxUnpack idxw i h
  | decColor b => exact Laws.RoundTrip.decColor b h
  | anibUnpack b i => exact Laws.RoundTrip.anibUnpack b i h
  | decAlpha3 b => exact Laws.RoundTrip.decAlpha3 b h
  | aendRead b => exact Laws.RoundTrip.aendRead b h
  | aidxUnpack bytes i => exact Laws.RoundTrip.aidxUnpack bytes i h
  | decAlpha5 b => exact Laws.RoundTrip.decAlpha5 b h
  | gridGeom width height => exact Laws.RoundTrip.gridGeom width height h
  | gridAddr cx cy => exact Laws.RoundTrip.gridAddr cx cy h
  | tileCopy cx cy => exact Laws.RoundTrip.tileCopy cx cy h
  | gridStep => exact Laws.RoundTrip.gridStep h
  | hdrParse => exact Laws.RoundTrip.hdrParse h
  | validate => exact Laws.RoundTrip.validate h
  | decode => exact Laws.RoundTrip.decode h

/-! ### Encoding after decoding

One lemma per format: what its decoder reads is well-formed and has the code that was decoded. -/

/-- The code stands for the operation: the operation is well-formed and the encoder writes this code. -/
def Code.StandsFor (c : Code) (i : Instr) : Prop := i.wf = true ∧ encode i = c

/-! #### The shared operand readers -/

section
variable {f : Format} {w : Word48} {ops : List Nat} {i : Instr}

theorem withNone_standsFor {j : Instr} (h : withNone j ops = .ok i) (hj : Code.StandsFor ⟨f, w, []⟩ j) :
    Code.StandsFor ⟨f, w, ops⟩ i := by
  obtain ⟨rfl, rfl⟩ := withNone_ok h
  exact hj

theorem withPixel_standsFor {mk : PixelNo → Instr} (h : withPixel mk ops = .ok i)
    (hmk : ∀ p, Code.StandsFor ⟨f, w, [p.val]⟩ (mk p)) : Code.StandsFor ⟨f, w, ops⟩ i := by
  obtain ⟨p, rfl, rfl⟩ := withPixel_ok h
  exact hmk p

theorem withAddress_standsFor {mk : Nat → Instr} (h : withAddress mk ops = .ok i)
    (hmk : ∀ a, Code.StandsFor ⟨f, w, [a]⟩ (mk a)) : Code.StandsFor ⟨f, w, ops⟩ i := by
  obtain ⟨a, rfl, rfl⟩ := withAddress_ok h
  exact hmk a

theorem withCoordinate_standsFor {mk : Nat → Nat → Instr} (h : withCoordinate mk ops = .ok i)
    (hmk : ∀ x y, Code.StandsFor ⟨f, w, [x, y]⟩ (mk x y)) : Code.StandsFor ⟨f, w, ops⟩ i := by
  obtain ⟨x, y, rfl, rfl⟩ := withCoordinate_ok h
  exact hmk x y

theorem withPair_standsFor {n : Nat} {mk : BitVec n → BitVec n → Instr} (h : withPair n mk ops = .ok i)
    (hmk : ∀ x y, Code.StandsFor ⟨f, w, [x.toNat, y.toNat]⟩ (mk x y)) : Code.StandsFor ⟨f, w, ops⟩ i := by
  obtain ⟨x, y, rfl, rfl⟩ := withPair_ok h
  exact hmk x y

/-! #### The formats with selector bits -/

/-- 30_encoding.md R92: no line of the table drops a field, for the fields it does not keep have its own values. -/
theorem decodeHaw_standsFor (w : Word48) : Code.StandsFor ⟨.haw, w, []⟩ (decodeHaw w) := by
  have hw := packHaw_fields w
  unfold decodeHaw
  split_ifs with hr hd h0 h8 hC
  · exact ⟨by simpa [Instr.wf] using hr, by rw [encode, hw]⟩
  · rw [not_not.mp hr, hd] at hw
    exact ⟨rfl, by rw [encode, hw]⟩
  · rw [not_not.mp hr, eq_true_of_ne_false hd, h0] at hw
    exact ⟨rfl, by rw [encode, hw]⟩
  · rw [not_not.mp hr, eq_true_of_ne_false hd, h8] at hw
    exact ⟨rfl, by rw [encode, hw]⟩
  · rw [not_not.mp hr, eq_true_of_ne_false hd, hC] at hw
    exact ⟨rfl, by rw [encode, hw]⟩
  · rw [not_not.mp hr, eq_true_of_ne_false hd] at hw
    exact ⟨by simpa [Instr.wf] using ⟨⟨h0, h8⟩, hC⟩, by rw [encode, hw]⟩

theorem decodeHdrsel_standsFor (h : decodeHdrsel w ops = .ok i) : Code.StandsFor ⟨.hdrsel, w, ops⟩ i := by
  unfold decodeHdrsel at h
  split_ifs at h with h1 h3 h5
  · exact withAddress_standsFor h (fun _ => ⟨rfl, by rw [encode, h1]⟩)
  · exact withAddress_standsFor h (fun _ => ⟨rfl, by rw [encode, h3]⟩)
  · exact withAddress_standsFor h (fun _ => ⟨rfl, by rw [encode, h5]⟩)

/-- A word no wider than two endpoints is their packing. -/
theorem predColour_of_fields (hw : w.toNat < 2 ^ 32) :
    BitVec.ofNat 48 ((w.extractLsb' 16 16).toNat * 2 ^ 16 + (w.extractLsb' 0 16).toNat) = w := by
  refine word48_of_toNat w _ ?_
  simp only [BitVec.extractLsb'_toNat, Nat.shiftRight_eq_div_pow]
  omega

/-- A word no wider than two alpha endpoints is their packing. -/
theorem predAlpha_of_fields (hw : w.toNat < 2 ^ 16) :
    BitVec.ofNat 48 ((w.extractLsb' 8 8).toNat * 2 ^ 8 + (w.extractLsb' 0 8).toNat) = w := by
  refine word48_of_toNat w _ ?_
  simp only [BitVec.extractLsb'_toNat, Nat.shiftRight_eq_div_pow]
  omega

theorem decodePredColour_standsFor (h : decodePredColour w ops = .ok i) :
    Code.StandsFor ⟨.predColour, w, ops⟩ i := by
  unfold decodePredColour at h
  dsimp only at h
  split at h
  next => cases h
  next hw =>
    have hf := predColour_of_fields (not_le.mp hw)
    split at h
    next hc => exact withNone_standsFor h ⟨decide_eq_true hc, by rw [encode, hf]⟩
    next hc => exact withNone_standsFor h ⟨decide_eq_true (not_lt.mp hc), by rw [encode, hf]⟩

theorem decodePredAlpha_standsFor (h : decodePredAlpha w ops = .ok i) :
    Code.StandsFor ⟨.predAlpha, w, ops⟩ i := by
  unfold decodePredAlpha at h
  dsimp only at h
  split at h
  next => cases h
  next hw =>
    have hf := predAlpha_of_fields (not_le.mp hw)
    split at h
    next ha => exact withNone_standsFor h ⟨decide_eq_true ha, by rw [encode, hf]⟩
    next ha => exact withNone_standsFor h ⟨decide_eq_true (not_lt.mp ha), by rw [encode, hf]⟩

theorem decodeNib_standsFor (h : decodeNib w ops = .ok i) : Code.StandsFor ⟨.nib4, w, ops⟩ i := by
  unfold decodeNib at h
  split at h
  next => cases h
  next hw =>
    have hf : BitVec.ofNat 48 (w.extractLsb' 0 4).toNat = w := by
      refine word48_of_toNat w _ ?_
      simp only [BitVec.extractLsb'_toNat, Nat.shiftRight_zero]
      omega
    exact withNone_standsFor h ⟨rfl, by rw [encode, hf]⟩

/-- A selector whose number fixes the word and whose only operand is the pixel. -/
theorem withPixel_standsFor_of_toNat {k : Nat} {mk : PixelNo → Instr} (h : withPixel mk ops = .ok i)
    (hw : w.toNat = k) (hmk : ∀ p, Code.StandsFor ⟨f, BitVec.ofNat 48 k, [p.val]⟩ (mk p)) :
    Code.StandsFor ⟨f, w, ops⟩ i := by
  rw [← word48_of_toNat w k hw]
  exact withPixel_standsFor h hmk

theorem decodeCidx_standsFor (h : decodeCidx w ops = .ok i) : Code.StandsFor ⟨.cidx2, w, ops⟩ i := by
  unfold decodeCidx at h
  split at h
  next hw => exact withPixel_standsFor_of_toNat h hw (fun _ => ⟨rfl, rfl⟩)
  next hw => exact withPixel_standsFor_of_toNat h hw (fun _ => ⟨rfl, rfl⟩)
  next hw => exact withPixel_standsFor_of_toNat h hw (fun _ => ⟨rfl, rfl⟩)
  next hw => exact withPixel_standsFor_of_toNat h hw (fun _ => ⟨rfl, rfl⟩)
  next => cases h

theorem decodeAidx_standsFor (h : decodeAidx w ops = .ok i) : Code.StandsFor ⟨.aidx3, w, ops⟩ i := by
  unfold decodeAidx at h
  split at h
  next hw => exact withPixel_standsFor_of_toNat h hw (fun _ => ⟨rfl, rfl⟩)
  next hw => exact withPixel_standsFor_of_toNat h hw (fun _ => ⟨rfl, rfl⟩)
  next hw => exact withPixel_standsFor_of_toNat h hw (fun _ => ⟨rfl, rfl⟩)
  next hw => exact withPixel_standsFor_of_toNat h hw (fun _ => ⟨rfl, rfl⟩)
  next hw => exact withPixel_standsFor_of_toNat h hw (fun _ => ⟨rfl, rfl⟩)
  next hw => exact withPixel_standsFor_of_toNat h hw (fun _ => ⟨rfl, rfl⟩)
  next hw => exact withPixel_standsFor_of_toNat h hw (fun _ => ⟨rfl, rfl⟩)
  next hw => exact withPixel_standsFor_of_toNat h hw (fun _ => ⟨rfl, rfl⟩)
  next => cases h

/-! #### The operations with no selector bits -/

theorem decodeLeRead_standsFor (h : decodeLeRead ops = .ok i) : Code.StandsFor (seqCode .leRead ops) i := by
  unfold decodeLeRead at h
  split at h
  next =>
    split at h
    next hn => cases h; exact ⟨hn, rfl⟩
    next => cases h
  next => cases h

theorem decodeBitwin_standsFor (h : decodeBitwin ops = .ok i) : Code.StandsFor (seqCode .bitwin ops) i := by
  unfold decodeBitwin at h
  split at h
  next =>
    split at h
    next bs hbs =>
      split at h
      next hr => cases h; exact ⟨by simp [Instr.wf, hr], by rw [encode, bytesOperand_ok hbs]⟩
      next => cases h
    next => cases h
  next => cases h

theorem decodeExp565_standsFor (h : decodeExp565 ops = .ok i) : Code.StandsFor (seqCode .exp565 ops) i := by
  unfold decodeExp565 at h
  split at h
  next =>
    split at h
    next hv => cases h; exact ⟨rfl, by rw [encode, bitsOperand_ok hv]⟩
    next => cases h
  next => cases h

theorem decodeCidxUnpack_standsFor (h : decodeCidxUnpack ops = .ok i) :
    Code.StandsFor (seqCode .cidxUnpack ops) i := by
  unfold decodeCidxUnpack at h
  split at h
  next =>
    split at h
    next hv hp => cases h; exact ⟨rfl, by rw [encode, bitsOperand_ok hv, pixelOperand_ok hp]⟩
    next => cases h
  next => cases h

theorem decodeAnibUnpack_standsFor (h : decodeAnibUnpack ops = .ok i) :
    Code.StandsFor (seqCode .anibUnpack ops) i := by
  unfold decodeAnibUnpack at h
  split at h
  next =>
    split at h
    next hp => cases h; exact ⟨rfl, by rw [encode, pixelOperand_ok hp]⟩
    next => cases h
  next => cases h

theorem decodeAidxUnpack_standsFor (h : decodeAidxUnpack ops = .ok i) :
    Code.StandsFor (seqCode .aidxUnpack ops) i := by
  unfold decodeAidxUnpack at h
  split at h
  next =>
    split at h
    next hp hbs =>
      split at h
      next hl => cases h; exact ⟨decide_eq_true hl, by rw [encode, pixelOperand_ok hp, bytesOperand_ok hbs]⟩
      next => cases h
    next => cases h
  next => cases h

theorem decodeSeq_standsFor {op : SeqName} (h : decodeSeq op ops = .ok i) : Code.StandsFor (seqCode op ops) i := by
  cases op with
  | leRead => exact decodeLeRead_standsFor h
  | bitwin => exact decodeBitwin_standsFor h
  | exp565 => exact decodeExp565_standsFor h
  | cendRead => exact withAddress_standsFor h (fun _ => ⟨rfl, rfl⟩)
  | cpal01 => exact withPair_standsFor h (fun _ _ => ⟨rfl, rfl⟩)
  | cidxUnpack => exact decodeCidxUnpack_standsFor h
  | decColor => exact withAddress_standsFor h (fun _ => ⟨rfl, rfl⟩)
  | anibUnpack => exact decodeAnibUnpack_standsFor h
  | decAlpha3 => exact withAddress_standsFor h (fun _ => ⟨rfl, rfl⟩)
  | aendRead => exact withAddress_standsFor h (fun _ => ⟨rfl, rfl⟩)
  | aidxUnpack => exact decodeAidxUnpack_standsFor h
  | decAlpha5 => exact withAddress_standsFor h (fun _ => ⟨rfl, rfl⟩)
  | gridGeom => exact withPair_standsFor h (fun _ _ => ⟨rfl, rfl⟩)
  | gridAddr => exact withCoordinate_standsFor h (fun _ _ => ⟨rfl, rfl⟩)
  | tileCopy => exact withCoordinate_standsFor h (fun _ _ => ⟨rfl, rfl⟩)
  | gridStep => exact withNone_standsFor h ⟨rfl, rfl⟩
  | hdrParse => exact withNone_standsFor h ⟨rfl, rfl⟩
  | validate => exact withNone_standsFor h ⟨rfl, rfl⟩
  | decode => exact withNone_standsFor h ⟨rfl, rfl⟩

end

/-- Settles O3: the decoder of each format reads the operation whose code it was given. -/
theorem encodeOfDecodeIsTheCode : Obligations.EncodeOfDecodeIsTheCode := by
  rintro ⟨f, w, ops⟩ i h
  change Code.StandsFor ⟨f, w, ops⟩ i
  cases f with
  | haw => exact withNone_standsFor h (decodeHaw_standsFor w)
  | hdrsel => exact decodeHdrsel_standsFor h
  | predColour => exact decodePredColour_standsFor h
  | predAlpha => exact decodePredAlpha_standsFor h
  | cidx2 => exact decodeCidx_standsFor h
  | nib4 => exact decodeNib_standsFor h
  | aidx3 => exact decodeAidx_standsFor h
  | seq op =>
    simp only [decode] at h
    split at h
    next hw => rw [hw]; exact decodeSeq_standsFor h
    next => cases h

/-! ### The tables of the words -/

/-- 45_host_interface.md R275: a word with reserved bits has no effect but that a read returns 0. -/
theorem exec_hawRsv (write : Bool) (rsv : BitVec 7) (offset : Byte) (data : Word) (s : State) :
    exec (.hawRsv write rsv offset data) s = .next (if write then s else { s with ret := .word 0 }) := by
  cases write <;> rfl

/-- Settles O1: the concatenation of the four fields is their packing, whose fields are read back. -/
theorem hawWordsDecodeByPriority : Obligations.HawWordsDecodeByPriority := by
  refine ⟨fun write rsv offset data => ?_, fun w => ?_, fun s write rsv offset data _ => ?_⟩
  · rw [append_eq_packHaw]
    simp only [decode, decodeHaw, withNone, hawWrite_packHaw, hawRsvBits_packHaw, hawOffset_packHaw,
      hawData_packHaw]
  · exact ⟨hawWrite w, hawRsvBits w, hawOffset w, hawData w,
      ((append_eq_packHaw _ _ _ _).trans (packHaw_fields w)).symm⟩
  · exact exec_hawRsv write rsv offset data s

/-- A header selector word is the one of an alpha kind when its content type is 1, its compression 2 and its kind
that one (30_encoding.md R110). -/
theorem append_eq_hdrselWord (ct : Word) (comp kind k : Byte) :
    (ct ++ comp ++ kind : Word48) = hdrselWord k.toNat ↔ ct = 1 ∧ comp = 2 ∧ kind = k := by
  have hcomp := comp.isLt
  have hkind := kind.isLt
  have hk := k.isLt
  rw [← BitVec.toNat_inj, append_hdrsel_toNat, hdrselWord, BitVec.toNat_ofNat, Nat.mod_eq_of_lt (by omega),
    ← BitVec.toNat_inj, ← BitVec.toNat_inj, ← BitVec.toNat_inj]
  change _ ↔ ct.toNat = 1 ∧ comp.toNat = 2 ∧ kind.toNat = k.toNat
  omega

theorem decode_hdrsel (ct : Word) (comp kind : Byte) (addr : Nat) :
    decode ⟨.hdrsel, ct ++ comp ++ kind, [addr]⟩ =
      if ct = 1 ∧ comp = 2 ∧ kind = 0 then .ok (.decDxt1 addr)
      else if ct = 1 ∧ comp = 2 ∧ kind = 1 then .ok (.decDxt3 addr)
      else if ct = 1 ∧ comp = 2 ∧ kind = 7 then .ok (.decDxt5 addr)
      else .error .rejectedSelector :=
  if_congr (append_eq_hdrselWord ct comp kind 0) rfl
    (if_congr (append_eq_hdrselWord ct comp kind 1) rfl
      (if_congr (append_eq_hdrselWord ct comp kind 7) rfl rfl))

theorem decode_predColour (c0 c1 : Endpoint) :
    decode ⟨.predColour, (0 : BitVec 16) ++ c1 ++ c0, []⟩ =
      .ok (if c1 < c0 then .cmode4 c0 c1 else .cmode3 c0 c1) := by
  rw [append_eq_predColour]
  split
  next hc => exact Laws.RoundTrip.cmode4 c0 c1 (decide_eq_true hc)
  next hc => exact Laws.RoundTrip.cmode3 c0 c1 (decide_eq_true (BitVec.not_lt.mp hc))

theorem decode_predAlpha (a0 a1 : Byte) :
    decode ⟨.predAlpha, (0 : BitVec 32) ++ a1 ++ a0, []⟩ =
      .ok (if a1 < a0 then .amode8 a0 a1 else .amode6 a0 a1) := by
  rw [append_eq_predAlpha]
  split
  next ha => exact Laws.RoundTrip.amode8 a0 a1 (decide_eq_true ha)
  next ha => exact Laws.RoundTrip.amode6 a0 a1 (decide_eq_true (BitVec.not_lt.mp ha))

theorem decode_cidx2 (k : Fin 4) (i : PixelNo) :
    decode ⟨.cidx2, BitVec.ofNat 48 k.val, [i.val]⟩ = .ok (colourSelect k i) :=
  match k with
  | 0 => Laws.RoundTrip.csel0 i rfl
  | 1 => Laws.RoundTrip.csel1 i rfl
  | 2 => Laws.RoundTrip.csel2 i rfl
  | 3 => Laws.RoundTrip.csel3 i rfl

theorem decode_aidx3 (k : Fin 8) (i : PixelNo) :
    decode ⟨.aidx3, BitVec.ofNat 48 k.val, [i.val]⟩ = .ok (alphaSelect k i) :=
  match k with
  | 0 => Laws.RoundTrip.asel0 i rfl
  | 1 => Laws.RoundTrip.asel1 i rfl
  | 2 => Laws.RoundTrip.asel2 i rfl
  | 3 => Laws.RoundTrip.asel3 i rfl
  | 4 => Laws.RoundTrip.asel4 i rfl
  | 5 => Laws.RoundTrip.asel5 i rfl
  | 6 => Laws.RoundTrip.asel6 i rfl
  | 7 => Laws.RoundTrip.asel7 i rfl

theorem decode_nib4 (n : BitVec 4) : decode ⟨.nib4, n.setWidth 48, []⟩ = .ok (.aexp4 n) := by
  rw [← BitVec.ofNat_toNat]
  exact Laws.RoundTrip.aexp4 n rfl

/-- Settles O5: the header selectors by their fields; every other selector is the code of its operation, whose round
trip is O2's. -/
theorem selectorsDecodeToTheOperationMap : Obligations.SelectorsDecodeToTheOperationMap :=
  ⟨decode_hdrsel, decode_predColour, decode_predAlpha, decode_cidx2, decode_nib4, decode_aidx3⟩

/-- Settles O4: ten written-out words, evaluated. -/
theorem specWordsDecodeToTheirOperations : Obligations.SpecWordsDecodeToTheirOperations := by
  unfold Obligations.SpecWordsDecodeToTheirOperations
  decide

end Sys2Proof

/-! PROOFS. The readers (40_bit_readers.md): LE.READ is the little-endian sum, and the bit window of two bytes is the
field of the whole byte array. -/

namespace Sys2Proof.Machine

/-! ### LE.READ -/

/-- The reader's value is the statements' sum (40_bit_readers.md R130). -/
theorem State.memRead_eq_inValue (s : State) (a n : Nat) : s.memRead a n = inValue s a n := s.memRead_eq_sum a n

theorem inValue_lt (s : State) (a n : Nat) : inValue s a n < 2 ^ (8 * n) := by
  rw [← s.memRead_eq_inValue, pow_mul]
  exact s.memRead_lt a n

/-- LE.READ inside IN answers the sum and moves on to the next draw. -/
theorem exec_leRead {s : State} {a n : Nat} (h : a + n ≤ s.cfg.inCap) :
    exec (.leRead a n) s = .next { s.tick with ret := .value (inValue s a n) } := by
  rw [← s.memRead_eq_inValue]
  exact State.whenInExists_of_le h

/-- Settles O15: a reading inside IN completes with its sum, which the bound on a list's value bounds. -/
theorem leReadReturnsTheLittleEndianSum : Obligations.LeReadReturnsTheLittleEndianSum :=
  fun s a n _ h => ⟨⟨s.draws + 1, exec_leRead h⟩, inValue_lt s a n, fun _ _ => State.readIn_listed⟩

/-! ### BITWIN -/

theorem leValue_eq_memValue (l : List Byte) : leValue l = memValue l := leValue_eq_sum l

/-- The value from byte i on is byte i and, 8 bits up, the value from the next byte on; past the end all are 0. -/
theorem leValue_drop (l : List Byte) (i : Nat) :
    leValue (l.drop i) = (l.getD i 0).toNat + 256 * leValue (l.drop (i + 1)) := by
  by_cases h : i < l.length
  · rw [List.drop_eq_getElem_cons h, leValue, List.getD_eq_getElem _ _ h]
  · have hi : l.length ≤ i := not_lt.mp h
    rw [List.drop_of_length_le hi, List.drop_of_length_le (Nat.le_succ_of_le hi), List.getD_eq_default _ _ hi]
    rfl

/-- Shifting i bytes out leaves the value of the bytes from i on. -/
theorem leValue_div_bytes (l : List Byte) (i : Nat) : leValue l / 2 ^ (8 * i) = leValue (l.drop i) := by
  induction i with
  | zero => simp
  | succ i ih =>
    have hb : (l.getD i 0).toNat < 256 := (l.getD i 0).isLt
    rw [Nat.mul_succ, pow_add, ← Nat.div_div_eq_div_mul, ih, leValue_drop]
    omega

/-- A field of k bits at r depends on the low r + k bits only. -/
theorem field_congr {m n r k : Nat} (h : m % 2 ^ (r + k) = n % 2 ^ (r + k)) :
    m / 2 ^ r % 2 ^ k = n / 2 ^ r % 2 ^ k := by
  rw [← Nat.mod_mul_right_div_self, ← Nat.mod_mul_right_div_self, ← pow_add, h]

/-- What stands i bits up leaves the low j bits alone, for j no more than i. -/
theorem add_pow_mul_mod {b x i j : Nat} (h : j ≤ i) : (b + 2 ^ i * x) % 2 ^ j = b % 2 ^ j := by
  obtain ⟨c, hc⟩ := (Nat.pow_dvd_pow 2 h).mul_right x
  rw [hc, Nat.add_mul_mod_self_left]

/-- The low bits that a window needs are those of its one byte, or where it crosses the seam of its two
(40_bit_readers.md R132). -/
theorem leValue_drop_mod_window (l : List Byte) {p k : Nat} (hk : k ≤ 8) :
    ((l.getD (p / 8) 0).toNat + 256 * windowHigh l p k) % 2 ^ (p % 8 + k) =
      leValue (l.drop (p / 8)) % 2 ^ (p % 8 + k) := by
  rw [leValue_drop, windowHigh]
  split
  next =>
    have hw : p % 8 + k ≤ 16 := by omega
    have hsum (b c x : Nat) : b + 256 * (c + 256 * x) = b + 256 * c + 2 ^ 16 * x := by ring
    rw [leValue_drop, hsum, add_pow_mul_mod hw]
  next hseam => exact (add_pow_mul_mod (i := 8) (not_lt.mp hseam)).symm

/-- The bit window is the field of the value of all bytes, also where it reaches past the last of them
(40_bit_readers.md R133). -/
theorem bitWindow_eq_field (l : List Byte) {p k : Nat} (hk : k ≤ 8) :
    bitWindow l p k = memValue l / 2 ^ p % 2 ^ k :=
  calc bitWindow l p k
      = leValue (l.drop (p / 8)) / 2 ^ (p % 8) % 2 ^ k := field_congr (leValue_drop_mod_window l hk)
    _ = leValue l / 2 ^ (8 * (p / 8) + p % 8) % 2 ^ k := by
      rw [← leValue_div_bytes, Nat.div_div_eq_div_mul, ← pow_add]
    _ = memValue l / 2 ^ p % 2 ^ k := by rw [Nat.div_add_mod, leValue_eq_memValue]

/-- Settles O16: the canonical window reads the field of the whole array. -/
theorem bitWindowIsTheIntegerField : Obligations.BitWindowIsTheIntegerField := by
  intro s bytes p k _ hk _
  rw [← bitWindow_eq_field bytes hk]
  rfl

end Sys2Proof.Machine

/-! PROOFS. The colour block decoder (41_color_block.md): the endpoints and the palette, the selection of one pixel,
and the whole block. -/

namespace Sys2Proof.Machine

/-! ### Endpoints -/

/-- Settles O17: the three fields, each shifted by its own amount. -/
theorem exp565ShiftsTheFields : Obligations.Exp565ShiftsTheFields :=
  fun _ c => ⟨_, _, _, rfl, expandRed_toNat c, expandGreen_toNat c, expandBlue_toNat c⟩

theorem endpointPixel_isEndpoint (c : Endpoint) : (endpointPixel c).isEndpoint c :=
  ⟨expandRed_toNat c, expandGreen_toNat c, expandBlue_toNat c, rfl⟩

theorem Pixel.isEndpoint.channels {p : Pixel} {c : Endpoint} (h : p.isEndpoint c) :
    (p.channel 0).toNat = redOf c ∧ (p.channel 1).toNat = greenOf c ∧ (p.channel 2).toNat = blueOf c ∧
      p.channel 3 = 255 := h

/-- A register that holds all bits of a reading holds the statements' sum (40_bit_readers.md R130). -/
theorem State.memRead_register (s : State) {a n w : Nat} (h : 8 * n ≤ w) :
    (BitVec.ofNat w (s.memRead a n)).toNat = inValue s a n :=
  (s.memRead_toNat a n w h).trans (s.memRead_eq_inValue a n)

/-- The three registers of CEND.READ hold the three parts of the colour block at b (41_color_block.md R151). -/
def LatchesColourBlock (s : State) (b : Nat) (t : State) : Prop :=
  t.c0.toNat = inValue s b 2 ∧ t.c1.toNat = inValue s (b + 2) 2 ∧ t.idxw.toNat = inValue s (b + 4) 4

theorem State.readEndpoints_latches (s : State) (b : Nat) : LatchesColourBlock s b (s.readEndpoints b) :=
  ⟨s.memRead_register le_rfl, s.memRead_register le_rfl, s.memRead_register le_rfl⟩

/-- Settles O18: no part of the block is cut by its register. -/
theorem cendReadLatchesTheColourBlock : Obligations.CendReadLatchesTheColourBlock :=
  fun s b h => ⟨s.readEndpoints b, State.whenInExists_of_le h, rfl, s.readEndpoints_latches b⟩

/-! ### The palette -/

/-- Settles O19: the two writes go to slots 0 and 1. -/
theorem cpal01SetsTheOpaqueEndpoints : Obligations.Cpal01SetsTheOpaqueEndpoints := by
  intro s c0 c1
  have h0 : (s.setSlots01 c0 c1).pal[0] = endpointPixel c0 := by simp [State.setSlots01]
  have h1 : (s.setSlots01 c0 c1).pal[1] = endpointPixel c1 := by simp [State.setSlots01]
  refine ⟨s.setSlots01 c0 c1, rfl, rfl, ?_, ?_, ?_, ?_⟩
  · exact h0 ▸ endpointPixel_isEndpoint c0
  · exact h1 ▸ endpointPixel_isEndpoint c1
  · simp [State.setSlots01]
  · simp [State.setSlots01]

/-- Slots mixed by thirds meet the rule of the four-colour palette (41_color_block.md R154). -/
theorem fourColourRule_of_slots {p : Vector Pixel 4} (h2 : p[2] = mixPixels twoThirds p[0] p[1])
    (h3 : p[3] = mixPixels twoThirds p[1] p[0]) : fourColourRule p := by
  have hr (x y : Byte) : (twoThirds y x).toNat = (x.toNat + 2 * y.toNat) / 3 := by
    rw [twoThirds_toNat, Nat.add_comm]
  unfold fourColourRule
  rw [h2, h3]
  exact ⟨⟨twoThirds_toNat _ _, twoThirds_toNat _ _, twoThirds_toNat _ _, rfl⟩, hr _ _, hr _ _, hr _ _, rfl⟩

/-- The averaged and the transparent slot meet the rule of the three-colour palette (R155). -/
theorem threeColourRule_of_slots {p : Vector Pixel 4} (h2 : p[2] = mixPixels average p[0] p[1])
    (h3 : p[3] = transparentBlack) : threeColourRule p := by
  unfold threeColourRule
  rw [h2]
  exact ⟨⟨average_toNat _ _, average_toNat _ _, average_toNat _ _, rfl⟩, h3⟩

/-- Settles O20: each mode writes slots 2 and 3 from slots 0 and 1, which it keeps. -/
theorem paletteModesInterpolate : Obligations.PaletteModesInterpolate := by
  intro s c0 c1
  refine ⟨s.fourColourSlots, s.threeColourSlots, rfl, rfl, ?_, ?_, fourColourRule_of_slots ?_ ?_, rfl, rfl, ?_, ?_,
    threeColourRule_of_slots ?_ ?_⟩
  all_goals simp [State.fourColourSlots, State.threeColourSlots]

/-! ### One pixel -/

/-- The index of a pixel in numbers (41_color_block.md R156). -/
theorem colourIndex_toNat (idxw : Word) (i : PixelNo) :
    (colourIndex idxw i).toNat = idxw.toNat / 2 ^ (2 * i.val) % 4 := by
  rw [colourIndex, BitVec.extractLsb'_toNat, Nat.shiftRight_eq_div_pow]

/-- Settles O21: the two bits as a number. -/
theorem colourIndexIsTwoBitsOfTheWord : Obligations.ColourIndexIsTwoBitsOfTheWord := by
  intro s idxw i
  rw [← colourIndex_toNat]
  rfl

/-- CSEL.k is the selection of slot k. -/
theorem exec_colourSelect (k : Fin 4) (i : PixelNo) (s : State) :
    exec (colourSelect k i) s = .next (s.selectColour (BitVec.ofFin k) i) :=
  match k with
  | 0 => rfl
  | 1 => rfl
  | 2 => rfl
  | 3 => rfl

/-- The selection writes the slot into its pixel and keeps the other pixels (R157). -/
theorem State.selectColour_tileByte (s : State) (k : Fin 4) (i j : PixelNo) (c : Fin 4) :
    tileByte (s.selectColour (BitVec.ofFin k) i).tile j c =
      if i = j then s.pal[k].channel c else tileByte s.tile j c :=
  tileByte_putPixel s.tile i _ j c

/-- Settles O22: a tile byte whose pixel is another one is kept. -/
theorem colourSelectWritesOnePixel : Obligations.ColourSelectWritesOnePixel := by
  intro s k i
  have hsame (c : Fin 4) : tileByte (s.selectColour (BitVec.ofFin k) i).tile i c = s.pal[k].channel c := by
    rw [s.selectColour_tileByte, if_pos rfl]
  refine ⟨_, exec_colourSelect k i s, rfl, hsame 0, hsame 1, hsame 2, hsame 3, fun j hj => ?_⟩
  have hij : i ≠ ⟨j.val / 4, by omega⟩ := fun h => hj (congrArg Fin.val h).symm
  change (s.selectColour (BitVec.ofFin k) i).tile[j.val] = s.tile[j.val]
  rw [tile_getElem _ _ j.isLt, tile_getElem _ _ j.isLt, s.selectColour_tileByte, if_neg hij]

/-! ### The whole block -/

/-- DEC.COLOR as one update: the latches, the flag and the palette of the endpoints, and the tile (R158). -/
theorem State.decodeColour_eq (s : State) (b : Nat) :
    s.decodeColour b =
      { s.readEndpoints b with
        fourColor := isFourColour (s.decodeColour b).c0 (s.decodeColour b).c1
        pal := blockPalette (s.decodeColour b).c0 (s.decodeColour b).c1
        tile := (s.decodeColour b).tile } := by
  unfold State.decodeColour
  rw [State.selectColours_eq, s.loadPalette_eq b]

theorem State.decodeColour_latches (s : State) (b : Nat) : LatchesColourBlock s b (s.decodeColour b) := by
  rw [s.decodeColour_eq b]
  exact s.readEndpoints_latches b

theorem State.decodeColour_fourColor (s : State) (b : Nat) :
    (s.decodeColour b).fourColor = isFourColour (s.decodeColour b).c0 (s.decodeColour b).c1 :=
  congrArg State.fourColor (s.decodeColour_eq b)

theorem State.decodeColour_pal (s : State) (b : Nat) :
    (s.decodeColour b).pal = blockPalette (s.decodeColour b).c0 (s.decodeColour b).c1 :=
  congrArg State.pal (s.decodeColour_eq b)

/-- The registers of the alpha datapath (10_state.md R42, R44) are the same. -/
def SameAlpha (s t : State) : Prop :=
  t.alpha64 = s.alpha64 ∧ t.a0 = s.a0 ∧ t.a1 = s.a1 ∧ t.eightAlpha = s.eightAlpha ∧ t.alphaTab = s.alphaTab ∧
    t.aidx48 = s.aidx48

theorem State.decodeColour_sameAlpha (s : State) (b : Nat) : SameAlpha s (s.decodeColour b) := by
  rw [s.decodeColour_eq b]
  exact ⟨rfl, rfl, rfl, rfl, rfl, rfl⟩

theorem blockPalette_endpoints (c0 c1 : Endpoint) :
    (blockPalette c0 c1)[0] = endpointPixel c0 ∧ (blockPalette c0 c1)[1] = endpointPixel c1 := by
  cases h : isFourColour c0 c1 with
  | true =>
    rw [blockPalette_four h]
    exact ⟨rfl, rfl⟩
  | false =>
    rw [blockPalette_three h]
    exact ⟨rfl, rfl⟩

theorem blockPalette_fourColourRule {c0 c1 : Endpoint} (h : isFourColour c0 c1 = true) :
    fourColourRule (blockPalette c0 c1) := by
  rw [blockPalette_four h]
  exact fourColourRule_of_slots rfl rfl

theorem blockPalette_threeColourRule {c0 c1 : Endpoint} (h : isFourColour c0 c1 = false) :
    threeColourRule (blockPalette c0 c1) := by
  rw [blockPalette_three h]
  exact threeColourRule_of_slots rfl rfl

/-- Each pixel shows the slot that its two bits of the latched index word name (41_color_block.md R156, R157). -/
theorem State.decodeColour_pixel (s : State) (b : Nat) (i : PixelNo) (c : Fin 4) :
    tileByte (s.decodeColour b).tile i c =
      ((s.decodeColour b).pal[(s.decodeColour b).idxw.toNat / 2 ^ (2 * i.val) % 4]'(Nat.mod_lt _ (by omega))).channel
        c := by
  unfold State.decodeColour
  rw [State.selectColours_tile, State.selectColours_eq]
  simp only [State.slot, colourIndex_toNat]

/-- Settles O23: the palette is the one of the endpoints latched, by the comparison that sets the flag. -/
theorem colourBlockDecodesEveryPixel : Obligations.ColourBlockDecodesEveryPixel := by
  intro s b h
  obtain ⟨halpha64, ha0, ha1, height, htab, haidx⟩ := s.decodeColour_sameAlpha b
  obtain ⟨hc0, hc1, hidxw⟩ := s.decodeColour_latches b
  refine ⟨s.decodeColour b, State.whenInExists_of_le h, s.decodeColour_same b, halpha64, ha0, ha1, height, htab, haidx,
    hc0, hc1, hidxw, ?_, ?_, ?_, ?_, ?_, s.decodeColour_pixel b⟩
  · rw [s.decodeColour_fourColor, isFourColour, decide_eq_true_eq]
  all_goals rw [s.decodeColour_pal]
  · rw [(blockPalette_endpoints _ _).1]
    exact endpointPixel_isEndpoint _
  · rw [(blockPalette_endpoints _ _).2]
    exact endpointPixel_isEndpoint _
  · exact fun hf => blockPalette_fourColourRule ((s.decodeColour_fourColor b).symm.trans hf)
  · exact fun hf => blockPalette_threeColourRule ((s.decodeColour_fourColor b).symm.trans hf)

/-! ### Opaque slots, the transparent slot and the index-0 block (41_color_block.md R160) -/

theorem blockPalette_opaque {c0 c1 : Endpoint} (h : c1.toNat < c0.toNat) (k : Fin 4) :
    (blockPalette c0 c1)[k].a = 255 := by
  rw [blockPalette_four (decide_eq_true h)]
  match k with
  | 0 => rfl
  | 1 => rfl
  | 2 => rfl
  | 3 => rfl

theorem blockPalette_transparent {c0 c1 : Endpoint} (h : c0.toNat ≤ c1.toNat) :
    (blockPalette c0 c1)[3] = ⟨0, 0, 0, 0⟩ := by
  rw [blockPalette_three (decide_eq_false (not_lt.mpr h))]
  rfl

/-- With the index word 0 every pixel shows slot 0, the expanded first endpoint. -/
theorem State.decodeColour_index_zero {s : State} {b : Nat} (h : (s.decodeColour b).idxw = 0) (i : PixelNo)
    (c : Fin 4) : tileByte (s.decodeColour b).tile i c = (endpointPixel (s.decodeColour b).c0).channel c := by
  have hk : (s.decodeColour b).idxw.toNat / 2 ^ (2 * i.val) % 4 = 0 := by simp [h]
  rw [s.decodeColour_pixel]
  simp only [hk, s.decodeColour_pal, blockPalette_endpoints]

/-- Settles O24: the palette of the latched endpoints, and slot 0 at index 0. -/
theorem paletteProperties : Obligations.PaletteProperties := by
  intro s t b he
  obtain rfl := State.whenInExists_eq he
  refine ⟨fun h k => ?_, fun h => ?_, fun h i => ?_⟩
  · rw [s.decodeColour_pal]
    exact blockPalette_opaque h k
  · rw [s.decodeColour_pal]
    exact blockPalette_transparent h
  · simp only [State.decodeColour_index_zero h]
    exact (endpointPixel_isEndpoint _).channels

end Sys2Proof.Machine

/-! PROOFS. The alpha block decoders (42_alpha_block.md): the explicit alpha of DXT3, the interpolated alpha of DXT5,
and that both write the alpha bytes only. -/

namespace Sys2Proof.Machine

/-! ### Explicit alpha -/

/-- Settles O25: the two copies of the nibble add up to 17 times it. -/
theorem nibbleExpansionReplicates : Obligations.NibbleExpansionReplicates := by
  intro s n
  rw [← expandNibble_toNat]
  rfl

/-- The nibble of a pixel in numbers (42_alpha_block.md R180). -/
theorem alphaNibble_toNat (f : BitVec 64) (i : PixelNo) :
    (alphaNibble f i).toNat = f.toNat / 2 ^ (4 * i.val) % 16 := by
  rw [alphaNibble, BitVec.extractLsb'_toNat, Nat.shiftRight_eq_div_pow]

theorem State.readInBytes_getD (s : State) (a : Nat) {j n : Nat} (h : j < n) :
    (s.readInBytes a n).getD j 0 = s.readIn (a + j) := by
  simp [State.readInBytes, h]

/-- A field of a reading that does not leave its byte is a field of that byte of IN. -/
theorem State.memRead_field_of_byte (s : State) (a : Nat) {j n r k : Nat} (hj : j < n) (h : r + k ≤ 8) :
    s.memRead a n / 2 ^ (8 * j + r) % 2 ^ k = (s.readIn (a + j)).toNat / 2 ^ r % 2 ^ k := by
  rw [pow_add, ← Nat.div_div_eq_div_mul]
  apply field_congr
  rw [State.memRead, leValue_div_bytes, leValue_drop, s.readInBytes_getD a hj]
  exact add_pow_mul_mod (i := 8) h

/-- The nibble of pixel i of the field at b is the low or the high nibble of block byte i / 2 (R180). -/
theorem State.memRead_nibble (s : State) (b : Nat) (i : PixelNo) :
    s.memRead b 8 / 2 ^ (4 * i.val) % 16 = (s.readIn (b + i.val / 2)).toNat / 16 ^ (i.val % 2) % 16 := by
  have hsplit : 4 * i.val = 8 * (i.val / 2) + 4 * (i.val % 2) := by omega
  have hweight : 16 ^ (i.val % 2) = 2 ^ (4 * (i.val % 2)) := (pow_mul 2 4 _).symm
  rw [hsplit, hweight]
  exact s.memRead_field_of_byte b (k := 4) (by omega) (by omega)

/-- Settles O26: the nibble of the 64-bit field, which holds all of the reading, lies in one byte. -/
theorem nibbleUnpackReadsItsByte : Obligations.NibbleUnpackReadsItsByte := by
  intro s b i h
  have hn : (alphaNibble (BitVec.ofNat 64 (s.memRead b 8)) i).toNat = s.memRead b 8 / 2 ^ (4 * i.val) % 16 := by
    rw [alphaNibble_toNat, s.memRead_toNat b 8 64 le_rfl]
  refine ⟨_, s.draws + 1, State.whenInExists_of_le h, ?_, hn.trans (s.memRead_nibble b i)⟩
  rw [hn, s.memRead_eq_inValue]
  rfl

theorem State.decodeAlpha3_alpha64 (s : State) (b : Nat) :
    (s.decodeAlpha3 b).alpha64 = BitVec.ofNat 64 (s.memRead b 8) := by
  rw [s.decodeAlpha3_eq b]
  simp only [State.readAlpha64_alpha64]

@[simp] theorem State.decodeAlpha3_draws (s : State) (b : Nat) : (s.decodeAlpha3 b).draws = s.draws + 1 := by
  rw [s.decodeAlpha3_eq b]
  simp only [State.readAlpha64_draws]

/-- DEC.ALPHA3 writes alpha64 and the tile (R182). -/
theorem State.decodeAlpha3_frame (s : State) (b : Nat) :
    s.decodeAlpha3 b =
      { s with
        alpha64 := (s.decodeAlpha3 b).alpha64, tile := (s.decodeAlpha3 b).tile
        draws := (s.decodeAlpha3 b).draws } := by
  rw [s.decodeAlpha3_alpha64, s.decodeAlpha3_draws]
  simpa only [State.readAlpha64] using s.decodeAlpha3_eq b

/-- The alpha byte of a pixel is its nibble of the latched field, expanded (R182). -/
theorem State.decodeAlpha3_pixel (s : State) (b : Nat) (i : PixelNo) :
    (tileByte (s.decodeAlpha3 b).tile i 3).toNat =
      17 * ((s.decodeAlpha3 b).alpha64.toNat / 2 ^ (4 * i.val) % 16) := by
  rw [s.decodeAlpha3_tile, if_pos rfl, expandNibble_toNat, alphaNibble_toNat, s.decodeAlpha3_alpha64]

/-- Settles O27: a tile byte of another channel is kept. -/
theorem explicitAlphaOverwritesOnlyAlpha : Obligations.ExplicitAlphaOverwritesOnlyAlpha := by
  intro s b h
  refine ⟨s.decodeAlpha3 b, State.whenInExists_of_le h, s.decodeAlpha3_frame b, ?_,
    fun i => ⟨s.decodeAlpha3_pixel b i, fun c hc => ?_⟩⟩
  · rw [s.decodeAlpha3_alpha64]
    exact s.memRead_register le_rfl
  · rw [s.decodeAlpha3_tile, if_neg hc]

/-! ### Interpolated alpha: the endpoints and the table -/

@[simp] theorem State.readAlphaEnds_aidx48 (s : State) (b : Nat) :
    (s.readAlphaEnds b).aidx48 = BitVec.ofNat 48 (s.memRead (b + 2) 6) := by
  simp only [State.readAlphaEnds]

theorem State.readAlphaEnds_index (s : State) (b : Nat) :
    (s.readAlphaEnds b).aidx48.toNat = inValue s (b + 2) 6 := by
  rw [State.readAlphaEnds_aidx48]
  exact s.memRead_register le_rfl

/-- Settles O28: no bit of the index field is cut by its register. -/
theorem aendReadLatchesTheAlphaBlock : Obligations.AendReadLatchesTheAlphaBlock :=
  fun s b h => ⟨s.readAlphaEnds b, State.whenInExists_of_le h, rfl, s.readAlphaEnds_index b⟩

theorem eightAlphaTable_rule (a0 a1 : Byte) : eightAlphaRule (eightAlphaTable a0 a1) a0 a1 := by
  obtain ⟨h0, h1⟩ := eightAlphaTable_ends a0 a1
  exact ⟨h0, h1, fun k hk => eightAlphaTable_entry a0 a1 hk k.isLt⟩

theorem sixAlphaTable_rule (a0 a1 : Byte) : sixAlphaRule (sixAlphaTable a0 a1) a0 a1 := by
  obtain ⟨h0, h1, h6, h7⟩ := sixAlphaTable_ends a0 a1
  exact ⟨h0, h1, fun k hk hk6 => sixAlphaTable_entry a0 a1 hk hk6, h6, h7⟩

/-- Settles O29: each mode writes the table of its rule and nothing else. -/
theorem alphaModesInterpolate : Obligations.AlphaModesInterpolate :=
  fun s a0 a1 => ⟨s.eightAlphaEntries a0 a1, s.sixAlphaEntries a0 a1, rfl, rfl, eightAlphaTable_rule a0 a1,
    rfl, rfl, sixAlphaTable_rule a0 a1⟩

/-! ### One pixel -/

/-- The index of a pixel in numbers (42_alpha_block.md R187). -/
theorem alphaIndex_toNat (f : BitVec 48) (i : PixelNo) :
    (alphaIndex f i).toNat = f.toNat / 2 ^ (3 * i.val) % 8 := by
  rw [alphaIndex, BitVec.extractLsb'_toNat, Nat.shiftRight_eq_div_pow]

/-- Settles O30: the window at 3i is the three bits of the field there. -/
theorem alphaIndexIsThreeBitsOfTheField : Obligations.AlphaIndexIsThreeBitsOfTheField :=
  fun _ bytes _ _ => ⟨rfl, bitWindow_eq_field bytes (by decide)⟩

/-- ASEL.k is the selection of entry k. -/
theorem exec_alphaSelect (k : Fin 8) (i : PixelNo) (s : State) :
    exec (alphaSelect k i) s = .next (s.selectAlpha (BitVec.ofFin k) i) :=
  match k with
  | 0 => rfl
  | 1 => rfl
  | 2 => rfl
  | 3 => rfl
  | 4 => rfl
  | 5 => rfl
  | 6 => rfl
  | 7 => rfl

/-- Settles O31: the selection is one write to the tile. -/
theorem alphaSelectWritesOneByte : Obligations.AlphaSelectWritesOneByte :=
  fun s k i => ⟨_, exec_alphaSelect k i s, rfl, Vector.getElem_set_self _,
    fun j hj => Vector.getElem_set_ne (by omega) j.isLt hj.symm⟩

/-! ### The whole block -/

/-- DEC.ALPHA5 as one update: the latches, the flag and the table of the endpoints, and the tile (R189). -/
theorem State.decodeAlpha5_eq (s : State) (b : Nat) :
    s.decodeAlpha5 b =
      { s.readAlphaEnds b with
        eightAlpha := isEightAlpha (s.readIn b) (s.readIn (b + 1))
        alphaTab := blockAlphaTable (s.readIn b) (s.readIn (b + 1))
        tile := (s.decodeAlpha5 b).tile } := by
  unfold State.decodeAlpha5
  rw [State.selectAlphas_eq, s.loadAlphaTable_eq b]

@[simp] theorem State.decodeAlpha5_a0 (s : State) (b : Nat) : (s.decodeAlpha5 b).a0 = s.readIn b :=
  congrArg State.a0 (s.decodeAlpha5_eq b)

@[simp] theorem State.decodeAlpha5_a1 (s : State) (b : Nat) : (s.decodeAlpha5 b).a1 = s.readIn (b + 1) :=
  congrArg State.a1 (s.decodeAlpha5_eq b)

theorem State.decodeAlpha5_aidx48 (s : State) (b : Nat) :
    (s.decodeAlpha5 b).aidx48 = BitVec.ofNat 48 (s.memRead (b + 2) 6) := by
  rw [s.decodeAlpha5_eq b]
  simp only [State.readAlphaEnds_aidx48]

theorem State.decodeAlpha5_eightAlpha (s : State) (b : Nat) :
    (s.decodeAlpha5 b).eightAlpha = isEightAlpha (s.readIn b) (s.readIn (b + 1)) :=
  congrArg State.eightAlpha (s.decodeAlpha5_eq b)

theorem State.decodeAlpha5_alphaTab (s : State) (b : Nat) :
    (s.decodeAlpha5 b).alphaTab = blockAlphaTable (s.readIn b) (s.readIn (b + 1)) :=
  congrArg State.alphaTab (s.decodeAlpha5_eq b)

@[simp] theorem State.decodeAlpha5_draws (s : State) (b : Nat) : (s.decodeAlpha5 b).draws = s.draws + 1 := by
  rw [s.decodeAlpha5_eq b]
  exact s.readAlphaEnds_draws b

/-- DEC.ALPHA5 writes the alpha endpoints, their index field, flag and table, and the tile (R189). -/
theorem State.decodeAlpha5_frame (s : State) (b : Nat) :
    s.decodeAlpha5 b =
      { s with
        a0 := s.readIn b, a1 := s.readIn (b + 1), aidx48 := (s.decodeAlpha5 b).aidx48
        eightAlpha := (s.decodeAlpha5 b).eightAlpha, alphaTab := (s.decodeAlpha5 b).alphaTab
        tile := (s.decodeAlpha5 b).tile, draws := (s.decodeAlpha5 b).draws } := by
  rw [s.decodeAlpha5_aidx48, s.decodeAlpha5_eightAlpha, s.decodeAlpha5_alphaTab, s.decodeAlpha5_draws]
  simpa only [State.readAlphaEnds] using s.decodeAlpha5_eq b

theorem blockAlphaTable_eightAlphaRule {a0 a1 : Byte} (h : isEightAlpha a0 a1 = true) :
    eightAlphaRule (blockAlphaTable a0 a1) a0 a1 := by
  rw [blockAlphaTable, if_pos h]
  exact eightAlphaTable_rule a0 a1

theorem blockAlphaTable_sixAlphaRule {a0 a1 : Byte} (h : isEightAlpha a0 a1 = false) :
    sixAlphaRule (blockAlphaTable a0 a1) a0 a1 := by
  rw [blockAlphaTable, h]
  exact sixAlphaTable_rule a0 a1

/-- The alpha byte of a pixel is the entry that its three bits of the latched index field name (R187, R188). -/
theorem State.decodeAlpha5_pixel (s : State) (b : Nat) (i : PixelNo) :
    tileByte (s.decodeAlpha5 b).tile i 3 =
      (s.decodeAlpha5 b).alphaTab[(s.decodeAlpha5 b).aidx48.toNat / 2 ^ (3 * i.val) % 8]'(Nat.mod_lt _ (by omega)) := by
  rw [s.decodeAlpha5_tile, if_pos rfl]
  simp only [s.decodeAlpha5_alphaTab, s.decodeAlpha5_aidx48, alphaIndex_toNat]

/-- Settles O32: the table is the one of the endpoints latched, by the comparison that sets the flag. -/
theorem interpolatedAlphaOverwritesOnlyAlpha : Obligations.InterpolatedAlphaOverwritesOnlyAlpha := by
  intro s b h
  refine ⟨s.decodeAlpha5 b, State.whenInExists_of_le h, s.decodeAlpha5_frame b, ?_, ?_, ?_, ?_,
    fun i => ⟨s.decodeAlpha5_pixel b i, fun c hc => ?_⟩⟩
  · rw [s.decodeAlpha5_aidx48]
    exact s.memRead_register le_rfl
  · rw [s.decodeAlpha5_eightAlpha, s.decodeAlpha5_a0, s.decodeAlpha5_a1, isEightAlpha, decide_eq_true_eq]
  · rw [s.decodeAlpha5_eightAlpha, s.decodeAlpha5_a0, s.decodeAlpha5_a1, s.decodeAlpha5_alphaTab]
    exact blockAlphaTable_eightAlphaRule
  · rw [s.decodeAlpha5_eightAlpha, s.decodeAlpha5_a0, s.decodeAlpha5_a1, s.decodeAlpha5_alphaTab]
    exact blockAlphaTable_sixAlphaRule
  · rw [s.decodeAlpha5_tile, if_neg hc]

/-! ### Entries 6 and 7, and the bounds of the eight-alpha table (42_alpha_block.md R190) -/

/-- A truncated weighted mean of two values lies between them. -/
theorem weightedMean_between {p q x y n : Nat} (hn : 0 < n) (hpq : p + q = n) (h : y ≤ x) :
    y ≤ (p * x + q * y) / n ∧ (p * x + q * y) / n ≤ x := by
  constructor
  · rw [Nat.le_div_iff_mul_le hn]
    calc y * n = p * y + q * y := by rw [← hpq]; ring
      _ ≤ p * x + q * y := by gcongr
  · apply Nat.div_le_of_le_mul
    calc p * x + q * y ≤ p * x + q * x := by gcongr
      _ = n * x := by rw [← hpq]; ring

theorem eightAlphaRule.between {t : Vector Byte 8} {a0 a1 : Byte} (ht : eightAlphaRule t a0 a1)
    (h : a1.toNat ≤ a0.toNat) (k : Fin 8) : a1.toNat ≤ t[k].toNat ∧ t[k].toNat ≤ a0.toNat := by
  obtain ⟨h0, h1, hmix⟩ := ht
  match k with
  | 0 =>
    change a1.toNat ≤ t[0].toNat ∧ t[0].toNat ≤ a0.toNat
    rw [h0]
    exact ⟨h, le_rfl⟩
  | 1 =>
    change a1.toNat ≤ t[1].toNat ∧ t[1].toNat ≤ a0.toNat
    rw [h1]
    exact ⟨le_rfl, h⟩
  | ⟨k + 2, hk⟩ =>
    rw [hmix ⟨k + 2, hk⟩ (by simp)]
    exact weightedMean_between (by decide) (by simp only; omega) h

/-- Settles O33: the table of the latched endpoints, by the outcome of their comparison. -/
theorem alphaTableProperty : Obligations.AlphaTableProperty := by
  intro s t b he
  obtain rfl := State.whenInExists_eq he
  rw [s.decodeAlpha5_alphaTab, s.decodeAlpha5_a0, s.decodeAlpha5_a1]
  constructor
  · intro h
    have hrule := blockAlphaTable_eightAlphaRule (decide_eq_true h)
    have hbetween := hrule.between h.le
    obtain ⟨-, -, hmix⟩ := hrule
    refine ⟨hmix 6 (by decide), ?_, hbetween⟩
    rw [← Nat.one_mul (s.readIn b).toNat]
    exact hmix 7 (by decide)
  · intro h
    obtain ⟨-, -, -, h6, h7⟩ := blockAlphaTable_sixAlphaRule (decide_eq_false (not_lt.mpr h))
    exact ⟨h6, h7⟩

end Sys2Proof.Machine

/-! PROOFS. The block grid (43_block_grid.md): its counts and addresses, the block decoders as compositions of their
halves, the copy of a tile, and the whole image that a decode leaves in OUT. -/

namespace Sys2Proof.Machine

/-! ### Counts and addresses -/

/-- The block count is the rational ceiling (43_block_grid.md R211). -/
theorem blocksOf_eq_ceil (n : Nat) : blocksOf n = ⌈(n : ℚ) / 4⌉₊ := by
  refine eq_of_forall_ge_iff fun k => ?_
  rw [Nat.ceil_le, div_le_iff₀ (by norm_num), ← not_lt, blocksOf_le_iff, not_lt, mul_comm]
  exact_mod_cast Iff.rfl

/-- A 32-bit size has at most 2^30 blocks (log 13). -/
theorem blocksOf_word_le (n : Word) : blocksOf n.toNat ≤ 2 ^ 30 := by
  have := n.isLt
  unfold blocksOf
  omega

/-- Settles O34: the exact counts are the ceilings, and the geometry's other fields stay. -/
theorem gridGeomWritesTheExactCeilings : Obligations.GridGeomWritesTheExactCeilings :=
  fun _ w h => ⟨_, rfl, rfl, blocksOf_eq_ceil _, blocksOf_eq_ceil _, blocksOf_word_le w, blocksOf_word_le h⟩

/-- Settles O35: a block of the grid ends within the stream, whose length is the mip's. -/
theorem gridAddrIsTheStreamAddress : Obligations.GridAddrIsTheStreamAddress := by
  intro s cx cy
  refine ⟨rfl, fun h hx hy => ?_⟩
  have hblock := block_in_stream (n := s.geom.blockBytes) hx hy
  have hfit := h.blocksFit
  rw [h.length]
  exact ⟨by omega, hfit⟩

/-! ### Blocks -/

/-- Settles O36: each alpha half runs on the state the colour half leaves, which has the same IN_CAP. -/
theorem blockDecodersComposeTheirHalves : Obligations.BlockDecodersComposeTheirHalves := by
  intro s addr
  refine ⟨fun h => ⟨s.decodeColour addr, State.whenInExists_of_le h, State.whenInExists_of_le h⟩, fun h => ?_⟩
  have halpha : addr + 8 ≤ (s.decodeColour (addr + 8)).cfg.inCap := by
    rw [(s.decodeColour_same (addr + 8)).cfg]
    omega
  exact ⟨s.decodeColour (addr + 8), s.decodeDxt3 addr, s.decodeDxt5 addr, State.whenInExists_of_le h,
    State.whenInExists_of_le h, State.whenInExists_of_le halpha,
    State.whenInExists_of_le h, State.whenInExists_of_le halpha⟩

/-! ### The copy of a tile -/

theorem imageX_tilePixel (cx x y : Nat) : imageX cx (tilePixel x y) = 4 * cx + x % 4 := by
  simp only [imageX, tilePixel]
  omega

theorem imageY_tilePixel (cy x y : Nat) : imageY cy (tilePixel x y) = 4 * cy + y % 4 := by
  simp only [imageY, tilePixel]
  omega

/-- The copy stays inside OUT where the last byte of every unclipped pixel exists (43_block_grid.md R217). -/
theorem State.outExists_of_pixels {s : State} {cx cy : Nat}
    (h : ∀ i : PixelNo, imageX cx i < s.geom.w.toNat → imageY cy i < s.geom.h.toNat →
      outAddress s.geom.w.toNat (imageX cx i) (imageY cy i) 3 < s.cfg.outCap) : s.outExists cx cy = true := by
  rw [State.outExists_iff]
  intro d hd
  obtain ⟨i, c, ⟨hx, hy⟩, rfl⟩ := State.mem_tileWrites.mp hd
  have hlast := h i hx hy
  have hc := c.isLt
  simp only [outAddress] at hlast ⊢
  omega

/-- Settles O37: pixel (px, py) of the tile is tile pixel 4 py + px. -/
theorem tileCopyWritesTheClippedTile : Obligations.TileCopyWritesTheClippedTile := by
  intro s cx cy hexists
  have hout : s.outExists cx cy = true := State.outExists_of_pixels fun i hx hy =>
    hexists ⟨i.val % 4, by omega⟩ ⟨i.val / 4, by omega⟩ hx hy
  refine ⟨s.copyTile cx cy, if_pos hout, s.copyTile_eq cx cy, fun px py c hx hy => ?_, fun a ha => ?_⟩
  · have hpx := imageX_tilePixel cx px py
    have hpy := imageY_tilePixel cy px py
    rw [Nat.mod_eq_of_lt px.isLt] at hpx
    rw [Nat.mod_eq_of_lt py.isLt] at hpy
    have hcopy := s.copyTile_readOut_inside (tilePixel px py) c (by rw [hpx, hpy]; exact ⟨hx, hy⟩)
    rw [hpx, hpy] at hcopy
    simpa only [outAddress, tileByte, tilePixel, Nat.mod_eq_of_lt px.isLt, Nat.mod_eq_of_lt py.isLt] using hcopy
  · exact s.copyTile_readOut_outside fun i c hx hy => ha ⟨i.val % 4, by omega⟩ ⟨i.val / 4, by omega⟩ c hx hy

/-! ### The image of a whole decode (43_block_grid.md R220, R221) -/

/-- The stream index of the block that an OUT address of the image belongs to (R221). -/
def Geometry.blockOfByte (g : Geometry) (a : Nat) : Nat :=
  a / 4 / g.w.toNat / 4 * g.blocksX + a / 4 % g.w.toNat / 4

/-- Row-major indices of one row length name one position. -/
theorem streamIndex_inj {n x y x' y' : Nat} (hx : x < n) (hx' : x' < n) (h : y * n + x = y' * n + x') :
    x = x' ∧ y = y' := by
  obtain ⟨hxx, hyy, -⟩ := outAddress_inj (c := 0) (c' := 0) hx (by omega) hx' (by omega)
    (congrArg (4 * · + 0) h)
  exact ⟨hxx, hyy⟩

/-- The block of an image pixel lies in the grid. -/
theorem GridInv.block_of_pixel {s : State} (h : GridInv s) {x y : Nat} (hx : x < s.geom.w.toNat)
    (hy : y < s.geom.h.toNat) : x / 4 < s.geom.blocksX ∧ y / 4 < s.geom.blocksY := by
  rw [h.blocksX, h.blocksY, blocksOf_le_iff, blocksOf_le_iff]
  omega

theorem GridInv.blockOfByte_lt {s : State} (h : GridInv s) {a : Nat} (ha : a < s.geom.outLen) :
    s.geom.blockOfByte a < s.geom.blocksX * s.geom.blocksY := by
  obtain ⟨hx, hy, -⟩ := image_coordinates ha
  obtain ⟨hbx, hby⟩ := h.block_of_pixel hx hy
  exact streamIndex_lt hbx hby

/-- Drawing the block of the iterator puts each of its bytes inside the image into OUT. -/
theorem GridInv.drawBlock_readOut_own {s : State} (h : GridInv s) {a : Nat} (ha : a < s.geom.outLen)
    (hb : s.geom.blockOfByte a = s.streamIndex) : s.drawBlock.readOut a = s.imageByte a := by
  obtain ⟨hx, hy, he⟩ := image_coordinates ha
  obtain ⟨hbx, hby⟩ := streamIndex_inj (h.block_of_pixel hx hy).1 h.column hb
  have hix := imageX_tilePixel s.iterX (a / 4 % s.geom.w.toNat) (a / 4 / s.geom.w.toNat)
  have hiy := imageY_tilePixel s.iterY (a / 4 % s.geom.w.toNat) (a / 4 / s.geom.w.toNat)
  rw [← hbx, Nat.div_add_mod] at hix
  rw [← hby, Nat.div_add_mod] at hiy
  have hcopy := (s.gridBlock s.iterX s.iterY).copyTile_readOut_inside (cx := s.iterX) (cy := s.iterY)
    (tilePixel (a / 4 % s.geom.w.toNat) (a / 4 / s.geom.w.toNat)) ⟨a % 4, by omega⟩
  rw [(s.gridBlock_same _ _).geom, ← hbx, ← hby, hix, hiy, ← he] at hcopy
  unfold State.drawBlock
  rw [← hbx, ← hby]
  exact hcopy ⟨hx, hy⟩

/-- What the decode that entered the grid in g keeps, and what it has done to OUT once the blocks before stream index
n are drawn: their bytes of the image are the decode's, and nothing beyond the image is written (20_memory.md R71). -/
structure DrawnTo (g s : State) (n : Nat) : Prop where
  regs        : s.regs = g.regs
  err         : s.err = g.err
  geom        : s.geom = g.geom
  inMem       : s.inMem = g.inMem
  decodeDraws : s.decodeDraws = g.decodeDraws
  /-- no HOST access comes between the steps -/
  quiet       : s.outRaced = []
  image       : ∀ a, a < g.geom.outLen → g.geom.blockOfByte a < n → s.readOut a = g.imageByte a
  beyond      : ∀ a, g.geom.outLen ≤ a → s.readOut a = g.readOut a

namespace DrawnTo

variable {g s : State} {n : Nat}

theorem start (hr : g.outRaced = []) : DrawnTo g g 0 :=
  ⟨rfl, rfl, rfl, rfl, rfl, hr, fun _ _ h => absurd h (Nat.not_lt_zero _), fun _ _ => rfl⟩

/-- The block of the iterator is drawn, and the bytes of the blocks before it stay the decode's. -/
theorem drawBlock (hd : DrawnTo g s s.streamIndex) (hg : GridInv g) (hs : GridInv s) :
    DrawnTo g s.drawBlock (s.streamIndex + 1) where
  regs := s.drawBlock_regs.trans hd.regs
  err := s.drawBlock_err.trans hd.err
  geom := s.drawBlock_geom.trans hd.geom
  inMem := s.drawBlock_inMem.trans hd.inMem
  decodeDraws := s.drawBlock_decodeDraws.trans hd.decodeDraws
  quiet := s.drawBlock_outRaced.trans hd.quiet
  image := by
    intro a ha hb
    have hsame : s.imageByte a = g.imageByte a :=
      (hg.imageByte_congr hd.decodeDraws.symm hd.geom.symm (fun _ _ => by rw [hd.inMem]) ha).symm
    have hlen : a < s.geom.outLen := hd.geom ▸ ha
    rcases Nat.lt_succ_iff_lt_or_eq.mp hb with hbefore | hown
    · rcases s.drawBlock_readOut a with hkept | ⟨-, hdrawn⟩
      · exact hkept.trans (hd.image a ha hbefore)
      · exact hdrawn.trans hsame
    · exact (hs.drawBlock_readOut_own hlen (hd.geom ▸ hown)).trans hsame
  beyond := by
    intro a ha
    rcases s.drawBlock_readOut a with hkept | ⟨hlen, -⟩
    · exact hkept.trans (hd.beyond a ha)
    · exact absurd hlen (Nat.not_lt.mpr (hd.geom ▸ ha))

/-- The advance writes no OUT byte: with no raced byte there is nothing to settle at DONE (log 15). -/
theorem advance (h : DrawnTo g s n) : DrawnTo g s.advance n := by
  obtain ⟨hregs, herr, hgeom, hin, hdraws, hquiet, himage, hbeyond⟩ := h
  rcases s.advance_cases with ⟨-, he⟩ | ⟨-, -, he⟩ | ⟨-, -, he⟩
  · rw [he]
    exact ⟨hregs, herr, hgeom, hin, hdraws, hquiet, himage, hbeyond⟩
  · rw [he]
    exact ⟨hregs, herr, hgeom, hin, hdraws, hquiet, himage, hbeyond⟩
  · have hout (a : Nat) : s.finish.readOut a = s.readOut a := by
      unfold State.readOut
      rw [State.finish_outMem, State.settledOut_nil hquiet]
    rw [he]
    exact ⟨hregs, herr, hgeom, hin, hdraws, rfl, fun a ha hb => (hout a).trans (himage a ha hb),
      fun a ha => (hout a).trans (hbeyond a ha)⟩

end DrawnTo

theorem GridInv.gridSteps_succ {s : State} (h : GridInv s) (hp : s.phase = .grid) (n : Nat) :
    gridSteps (n + 1) s = gridSteps n s.drawBlock.advance := by
  have hstep : execGridStep s = .next s.drawBlock.advance := h.exec_gridStep hp
  simp only [gridSteps, hstep]

/-- The steps left of a decode draw the blocks left and end in DONE. -/
theorem DrawnTo.gridSteps {g : State} (hg : GridInv g) {n : Nat} {s : State} (hs : GridInv s) (hp : s.phase = .grid)
    (hd : DrawnTo g s s.streamIndex) (hn : s.streamIndex + n = g.geom.blocksX * g.geom.blocksY) :
    ∃ t, Machine.gridSteps n s = .next t ∧ t.phase = .done ∧ DrawnTo g t (g.geom.blocksX * g.geom.blocksY) := by
  induction n generalizing s with
  | zero =>
    have hlt : s.streamIndex < s.geom.blocksX * s.geom.blocksY := streamIndex_lt hs.column hs.row
    rw [hd.geom] at hlt
    omega
  | succ n ih =>
    have hnext := (hd.drawBlock hg hs).advance
    rw [hs.gridSteps_succ hp]
    rcases hs.progress hp with ⟨hlast, he⟩ | ⟨-, hs', hp', hindex, -, -⟩
    · rw [hd.geom] at hlast
      obtain rfl : n = 0 := by omega
      rw [hlast] at hnext
      exact ⟨_, rfl, congrArg State.phase he, hnext⟩
    · rw [← hindex] at hnext
      exact ih hs' hp' hnext (by omega)

/-- A validation that passes has latched the header and entered a legal grid (44_container.md R253). -/
theorem exec_validate_grid {s g : State} (hs : s.phase = .validate) (hv : exec .validate s = .next g)
    (hp : g.phase = .grid) : GridInv g ∧ g = s.parsedState.enterGrid := by
  obtain rfl : s.validateStep = g := Host.Outcome.next.inj ((if_pos hs).symm.trans hv)
  refine ⟨State.validateStep_grid hp, ?_⟩
  rcases s.validateStep_cases with ⟨-, he⟩ | ⟨-, -, he⟩ | ⟨-, -, -, -, he⟩ | ⟨-, -, -, ⟨e, -, he⟩ | ⟨-, he⟩⟩
  · rw [he] at hp; cases hp
  · rw [he] at hp; cases hp
  · rw [he] at hp; cases hp
  · rw [he] at hp; cases hp
  · exact he

/-- DECODE of a file that validates draws every block of its grid (44_container.md R255). -/
theorem exec_decode_draws {s g : State} (hb : s.busy = false) (hv : exec .validate s.acceptStart = .next g)
    (hp : g.phase = .grid) :
    ∃ t, exec .decode s = .next t ∧ t.phase = .done ∧ DrawnTo g t (g.geom.blocksX * g.geom.blocksY) := by
  obtain ⟨hg, he⟩ := exec_validate_grid rfl hv hp
  have hstep : s.acceptStart.validateStep = g := Host.Outcome.next.inj hv
  have hindex : g.streamIndex = 0 := by rw [he]; exact Nat.zero_mul _
  have hstart : DrawnTo g g g.streamIndex := hindex ▸ DrawnTo.start (by rw [he]; rfl)
  obtain ⟨t, ht, hdone, hd⟩ := hstart.gridSteps hg hg hp (n := g.geom.blocksX * g.geom.blocksY) (by omega)
  refine ⟨t, ?_, hdone, hd⟩
  change execDecode s = _
  simp only [execDecode, hstep, hb, hp, ht, if_true, Bool.false_eq_true, if_false]

/-- A block HOST has loaded has one tile, whatever the draws. -/
theorem GridInv.gridBlock_tile_loaded {g : State} (h : GridInv g)
    (hl : ∀ a, g.geom.base.toNat ≤ a →
      a < g.geom.base.toNat + g.geom.blocksX * g.geom.blocksY * g.geom.blockBytes → (g.inMem.lookup a).isSome = true)
    {cx cy : Nat} (hx : cx < g.geom.blocksX) (hy : cy < g.geom.blocksY) :
    (g.gridBlock cx cy).tile = (g.decodeBlock (g.blockAddr cx cy)).tile := by
  have hblock := block_in_stream (n := g.geom.blockBytes) hx hy
  have hbytes := h.blockBytes
  refine State.decodeBlock_tile_listed (s := g.blockReading cx cy) (t := g) rfl rfl h.variant fun a h1 h2 => ?_
  change a < _ + blockBytesOf g.geom.variant at h2
  unfold State.blockAddr at h1 h2
  exact hl a (by omega) (by omega)

/-- Settles O46: the steps draw every block, and each image byte belongs to one of them. -/
theorem decodeWritesTheImage : Obligations.DecodeWritesTheImage := by
  intro s g hb hv hp hloaded
  obtain ⟨hg, he⟩ := exec_validate_grid rfl hv hp
  obtain ⟨t, ht, hdone, hd⟩ := exec_decode_draws hb hv hp
  have herr : g.err = 0 := by rw [he]; rfl
  have hout : g.outMem = s.outMem := by rw [he]; rfl
  obtain ⟨-, hin, -⟩ := exec_frame ht
  refine ⟨t, ht, hdone, hd.err.trans herr, hd.regs, hin, fun x y c hx hy => ?_, fun a ha => ?_⟩
  · obtain ⟨hbx, hby⟩ := hg.block_of_pixel hx hy
    have hlen := outAddress_lt hx hy c.isLt
    refine ⟨_, exec_blockDecoder hg.variant ((hg.block_below hbx hby).trans hg.lenFits), ?_⟩
    calc t.readOut (outAddress g.geom.w.toNat x y c.val)
        = g.imageByte (outAddress g.geom.w.toNat x y c.val) := hd.image _ hlen (hg.blockOfByte_lt hlen)
      _ = tileByte (g.gridBlock (x / 4) (y / 4)).tile (tilePixel x y) c := g.imageByte_outAddress hx c
      _ = tileByte (g.decodeBlock (g.blockAddr (x / 4) (y / 4))).tile (tilePixel x y) c := by
        rw [hg.gridBlock_tile_loaded hloaded hbx hby]
  · have hkept := hd.beyond a ha
    unfold State.readOut at hkept ⊢
    rw [hkept, hout]

end Sys2Proof.Machine

/-! PROOFS. The container's header (44_container.md): its layout, what a validation latches and when, what an accepted
header satisfies, and the bytes that do not matter. -/

namespace Sys2Proof.Machine

/-! ### HDR.PARSE -/

/-- A header field that its register holds whole is the little-endian sum at its offset (30_encoding.md R95). -/
theorem State.headerField_toNat (s : State) (a : Nat) : (s.headerField 32 a 4).toNat = inValue s a 4 :=
  s.memRead_register le_rfl

/-- Settles O39: the record's fields one by one. -/
theorem hdrParseReadsTheLayout : Obligations.HdrParseReadsTheLayout := by
  intro s h
  refine ⟨s.parseHeader, State.whenInExists_of_le h, rfl, ?_⟩
  have htable {n : Nat} (base : Nat) (j : Fin n) :
      ((Vector.ofFn fun j : Fin n => s.headerField 32 (base + 4 * j.val) 4)[j]).toNat =
        inValue s (base + 4 * j.val) 4 := by
    rw [Fin.getElem_fin, Vector.getElem_ofFn]
    exact s.headerField_toNat _
  have hmagic (j : Fin 4) : s.parsedHeader.magic[j] = s.readIn j.val := by
    rw [Fin.getElem_fin]
    exact Vector.getElem_ofFn j.isLt
  exact ⟨hmagic, s.headerField_toNat 4, rfl, rfl, rfl, rfl, s.headerField_toNat 12, s.headerField_toNat 16,
    htable 20, htable 84, htable 148⟩

/-! ### The header registers -/

theorem exec_validate {s : State} (hp : s.phase = .validate) : exec .validate s = .next s.validateStep := if_pos hp

theorem State.magicMatches_iff {s : State} : s.magicMatches = true ↔ magicBytes s := by
  simp only [State.magicMatches, Bool.and_eq_true, beq_iff_eq, magicBytes, and_assoc]

/-- The checks before the header is parsed: capacity, magic and header length (R242 to R244). -/
def State.failsBeforeHeader (s : State) : Prop :=
  s.cfg.inCap < s.len.toNat ∨ s.len.toNat < 1172 ∨ ¬ magicBytes (s.atReading 0)

theorem State.not_failsBeforeHeader {s : State} :
    ¬ s.failsBeforeHeader ↔ s.len.toNat ≤ s.cfg.inCap ∧ 1172 ≤ s.len.toNat ∧ magicBytes (s.atReading 0) := by
  simp only [State.failsBeforeHeader, not_or, not_lt, not_not]

/-- VALIDATE fails before the header is parsed and latches nothing, or parses and latches it and goes on to the rest
of the checks (R241, R245). -/
theorem State.validateStep_reads (s : State) :
    (s.failsBeforeHeader ∧ ∃ e, s.validateStep = s.raise e) ∨
    (¬ s.failsBeforeHeader ∧ ((∃ e, s.validateStep = s.parsedState.raise e) ∨
      Accepted s.parsedState ∧ s.validateStep = s.parsedState.enterGrid)) := by
  rcases s.validateStep_cases with ⟨hc, he⟩ | ⟨-, hf, he⟩ | ⟨-, -, -, hl, he⟩ | ⟨hc, hmagic, hl, hchecks⟩
  · exact .inl ⟨.inl hc, _, he⟩
  · refine .inl ⟨.inr (hf.imp (by omega) fun hf => ?_), _, he⟩
    rw [← State.magicMatches_iff, hf]
    exact Bool.false_ne_true
  · exact .inl ⟨.inr (.inl hl), _, he⟩
  · refine .inr ⟨State.not_failsBeforeHeader.mpr ⟨hc, hl, State.magicMatches_iff.mp hmagic⟩, ?_⟩
    rcases hchecks with ⟨e, -, he⟩ | ⟨hn, he⟩
    · exact .inl ⟨e, he⟩
    · exact .inr ⟨State.headerError_none.mp hn, he⟩

/-- The six header registers show the header record (R245). -/
def ShowsHeader (r : Regs) (hdr : Header) : Prop :=
  r.width = hdr.width ∧ r.height = hdr.height ∧ r.contentType = hdr.contentType ∧
    r.hdrBytes.toNat = hdr.hasMips.toNat * 2 ^ 24 + hdr.alphaKind.toNat * 2 ^ 16 +
      hdr.alphaDepth.toNat * 2 ^ 8 + hdr.compression.toNat ∧
    r.mip0Offset = hdr.mipOffsets[0] ∧ r.mip0Length = hdr.mipLengths[0]

/-- Four bytes side by side in numbers. -/
theorem fourBytes_toNat (a b c d : Byte) :
    (a ++ b ++ c ++ d).toNat = a.toNat * 2 ^ 24 + b.toNat * 2 ^ 16 + c.toNat * 2 ^ 8 + d.toNat := by
  rw [BitVec.toNat_append, BitVec.toNat_append, BitVec.toNat_append, ← Nat.shiftLeft_add_eq_or_of_lt d.isLt,
    ← Nat.shiftLeft_add_eq_or_of_lt c.isLt, ← Nat.shiftLeft_add_eq_or_of_lt b.isLt]
  simp only [Nat.shiftLeft_eq]
  ring

theorem State.parsedState_shows (s : State) : ShowsHeader s.parsedState.regs s.parsedState.hdr :=
  ⟨rfl, rfl, rfl, fourBytes_toNat _ _ _ _, rfl, rfl⟩

/-- Settles O41: a failure before the parse latches nothing, the parse latches the header, and only the grid entry
writes the registers of the geometry. -/
theorem headerRegistersAreLatchedAfterTheLengthCheck :
    Obligations.HeaderRegistersAreLatchedAfterTheLengthCheck := by
  intro s hp
  obtain ⟨hlo, hhi⟩ := s.validateStep_fileLen
  refine ⟨(s.atReading 0).draws, s.validateStep, exec_validate hp, hlo, hhi, ?_⟩
  rcases s.validateStep_reads with ⟨hfail, e, he⟩ | ⟨hpass, ⟨e, he⟩ | ⟨-, he⟩⟩ <;> rw [he]
  · exact ⟨fun _ => ⟨rfl, rfl, rfl, rfl, rfl⟩, fun _ => ⟨rfl, rfl⟩, fun hc hl hm =>
      absurd hfail (State.not_failsBeforeHeader.mpr ⟨hc, hl, hm⟩)⟩
  · exact ⟨fun _ => ⟨rfl, rfl, rfl, rfl, rfl⟩, fun hfail => absurd hfail hpass, fun _ _ _ => s.parsedState_shows⟩
  · exact ⟨fun hg => absurd rfl hg, fun hfail => absurd hfail hpass, fun _ _ _ => s.parsedState_shows⟩

/-! ### What an accepted header latches (R253) -/

/-- A validation that passes has passed every check on the header (R246 to R252). -/
theorem exec_validate_accepted {s t : State} (hs : s.phase = .validate) (hv : exec .validate s = .next t)
    (hp : t.phase = .grid) : Accepted s.parsedState := by
  obtain rfl : s.validateStep = t := Host.Outcome.next.inj ((exec_validate hs).symm.trans hv)
  rcases s.validateStep_reads with ⟨-, e, he⟩ | ⟨-, ⟨e, he⟩ | ⟨ha, -⟩⟩
  · simp [he] at hp
  · simp [he] at hp
  · exact ha

/-- The variant of an alpha kind that is one of the three (R248), its block bytes and its code (43_block_grid.md R210,
10_state.md R30). -/
theorem variantOf_accepted {k : Byte} (h : variantOf k ≠ .none) :
    variantOf k = (if k = 0 then .dxt1 else if k = 1 then .dxt3 else .dxt5) ∧
    blockBytesOf (variantOf k) = (if k = 0 then 8 else 16) ∧
    (variantCode (variantOf k)).toNat = (if k = 0 then 1 else if k = 1 then 2 else 3) := by
  unfold variantOf at h ⊢
  split_ifs with h0 h1 h7
  · exact ⟨rfl, rfl, rfl⟩
  · exact ⟨rfl, rfl, rfl⟩
  · exact ⟨rfl, rfl, rfl⟩
  · rw [if_neg h0, if_neg h1, if_neg h7] at h
    exact absurd rfl h

/-- A block count fits its register (log 13). -/
theorem blocksRegister_toNat (n : Word) : (BitVec.ofNat 32 (blocksOf n.toNat)).toNat = blocksOf n.toNat := by
  have := blocksOf_word_le n
  rw [BitVec.toNat_ofNat]
  omega

/-- The two halves of OUT_LEN (10_state.md R32). -/
theorem outLenRegisters_toNat {n : Nat} (h : n < 2 ^ 35) :
    (BitVec.ofNat 32 (n / 2 ^ 32)).toNat * 2 ^ 32 + (BitVec.ofNat 32 n).toNat = n ∧
      (BitVec.ofNat 32 (n / 2 ^ 32)).toNat < 2 ^ 3 := by
  rw [BitVec.toNat_ofNat, BitVec.toNat_ofNat]
  omega

/-- An accepted image has fewer than 2^33 pixels, 16 for each of its blocks (00_scope.md R6). -/
theorem Accepted.pixels {s : State} (h : Accepted s) : s.hdr.width.toNat * s.hdr.height.toNat < 2 ^ 33 := by
  obtain ⟨-, -, hblocks⟩ := h.bounds
  have hle (n : Nat) : n ≤ 4 * blocksOf n := by unfold blocksOf; omega
  calc s.hdr.width.toNat * s.hdr.height.toNat
      ≤ 4 * blocksOf s.hdr.width.toNat * (4 * blocksOf s.hdr.height.toNat) := Nat.mul_le_mul (hle _) (hle _)
    _ = 16 * (blocksOf s.hdr.width.toNat * blocksOf s.hdr.height.toNat) := by ring
    _ < 2 ^ 33 := by omega

/-- Settles O42: the grid entry of an accepted header, and the bounds of its image. -/
theorem acceptedHeaderLatchesTheGeometry : Obligations.AcceptedHeaderLatchesTheGeometry := by
  intro s t hp hv hg
  have hacc := exec_validate_accepted hp hv hg
  obtain ⟨hinv, rfl⟩ := exec_validate_grid hp hv hg
  obtain ⟨hx, hy, hblocks⟩ := hacc.bounds
  have hpixels := hacc.pixels
  obtain ⟨hvariant, hbytes, hcode⟩ := variantOf_accepted hacc.variant
  obtain ⟨hlen, hhigh⟩ := outLenRegisters_toNat
    (n := s.parsedState.hdr.width.toNat * s.parsedState.hdr.height.toNat * 4) (by omega)
  exact ⟨rfl, hvariant, hbytes, rfl, rfl, rfl, rfl, rfl, hcode, blocksRegister_toNat _, blocksRegister_toNat _,
    hlen, Nat.mul_pos hx hy, hblocks, hpixels, hhigh, hinv⟩

/-! ### The header bytes that do not matter (R254) -/

/-- Two header records that agree on the fields that influence a decode (10_state.md R37). -/
structure SameInfluential (h k : Header) : Prop where
  contentType : k.contentType = h.contentType
  compression : k.compression = h.compression
  alphaKind   : k.alphaKind = h.alphaKind
  width       : k.width = h.width
  height      : k.height = h.height
  offset      : k.mipOffsets[0] = h.mipOffsets[0]
  length      : k.mipLengths[0] = h.mipLengths[0]

namespace SameInfluential

theorem geometry {h k : Header} (e : SameInfluential h k) : k.geometry = h.geometry := by
  unfold Header.geometry
  rw [e.alphaKind, e.width, e.height, e.offset]

/-- The influential fields are read from the influential bytes (30_encoding.md R95). -/
theorem of_readIn {s t : State} (h : ∀ a, influentialHeaderByte a → t.readIn a = s.readIn a) :
    SameInfluential s.parsedHeader t.parsedHeader := by
  have hfield (a : Nat) (ha : ∀ j < 4, influentialHeaderByte (a + j)) :
      t.headerField 32 a 4 = s.headerField 32 a 4 :=
    congrArg (BitVec.ofNat 32) (State.memRead_congr fun j hj => h _ (ha j hj))
  unfold influentialHeaderByte at h hfield
  constructor
  · exact hfield 4 (by omega)
  · exact h 8 (by omega)
  · exact h 10 (by omega)
  · exact hfield 12 (by omega)
  · exact hfield 16 (by omega)
  · simpa only [State.parsedHeader, Vector.getElem_ofFn] using hfield 20 (by omega)
  · simpa only [State.parsedHeader, Vector.getElem_ofFn] using hfield 84 (by omega)

end SameInfluential

/-- A state with another IN, header record and register HDR_BYTES. -/
def State.withIgnored (s : State) (m : Memory) (hdr : Header) (hdrBytes : Word) : State :=
  { s with inMem := m, hdr := hdr, regs := { s.regs with hdrBytes := hdrBytes } }

/-- The checks on the header and the grid entry do not look at the ignored fields. -/
theorem State.withIgnored_checkHeader {s : State} {hdr : Header} (e : SameInfluential s.hdr hdr) (m : Memory)
    (w : Word) : (s.withIgnored m hdr w).checkHeader = s.checkHeader.withIgnored m hdr w := by
  have herror : (s.withIgnored m hdr w).headerError = s.headerError := by
    simp only [State.headerError, State.withIgnored, e.contentType, e.compression, e.alphaKind, e.width, e.height,
      e.offset, e.length]
  unfold State.checkHeader
  rw [herror]
  cases s.headerError with
  | some k => rfl
  | none => simp only [State.enterGrid, State.withIgnored, e.geometry]

/-- The latch of a header record with other ignored fields (R245). -/
theorem State.withIgnored_latchHeader {s : State} {hdr : Header} (e : SameInfluential s.hdr hdr) (m : Memory) : ∃ w,
    State.latchHeader { s with inMem := m, hdr := hdr } = s.latchHeader.withIgnored m hdr w :=
  ⟨hdr.hasMips ++ hdr.alphaKind ++ hdr.alphaDepth ++ hdr.compression, by
    simp only [State.latchHeader, State.withIgnored, e.contentType, e.width, e.height, e.offset, e.length]⟩

section

variable {s : State} {m : Memory} (hm : ∀ a, influentialHeaderByte a → m.lookup a = s.inMem.lookup a)
include hm

theorem State.readIn_influential (k : Nat) {a : Nat} (ha : influentialHeaderByte a) :
    (({ s with inMem := m } : State).atReading k).readIn a = (s.atReading k).readIn a :=
  congrArg (Option.getD · _) (hm a ha)

theorem State.magicMatches_influential :
    (({ s with inMem := m } : State).atReading 0).magicMatches = (s.atReading 0).magicMatches := by
  have hr (a : Nat) (ha : a < 9) := State.readIn_influential hm 0 (.inl ha)
  unfold State.magicMatches
  rw [hr 0 (by omega), hr 1 (by omega), hr 2 (by omega), hr 3 (by omega)]

/-- The header is parsed and latched alike, but for the ignored fields. -/
theorem State.parsedState_influential : ∃ hdr w, SameInfluential s.parsedState.hdr hdr ∧
    ({ s with inMem := m } : State).parsedState = s.parsedState.withIgnored m hdr w := by
  have hsame : SameInfluential (s.atReading 1).parsedHeader
      (({ s with inMem := m } : State).atReading 1).parsedHeader :=
    .of_readIn fun a ha => State.readIn_influential hm 1 ha
  obtain ⟨w, hw⟩ := State.withIgnored_latchHeader (s := { s with hdr := (s.atReading 1).parsedHeader }) hsame m
  exact ⟨_, w, hsame, hw⟩

/-- VALIDATE does alike, but for the header record and HDR_BYTES. -/
theorem State.validateStep_influential : ∃ hdr w,
    ({ s with inMem := m } : State).validateStep = s.validateStep.withIgnored m hdr w := by
  unfold State.validateStep
  rw [State.magicMatches_influential hm]
  show ∃ hdr w, (if s.cfg.inCap < s.len.toNat then _ else if s.len.toNat < 4 ∨ _ then _ else
    if s.len.toNat < hdrSize then _ else _) = _
  split
  · exact ⟨_, _, rfl⟩
  · split
    · exact ⟨_, _, rfl⟩
    · split
      · exact ⟨_, _, rfl⟩
      · obtain ⟨hdr, w, hsame, hp⟩ := State.parsedState_influential hm
        exact ⟨hdr, w, by rw [hp, State.withIgnored_checkHeader hsame]⟩

end

/-- Settles O44: the two validations differ only in IN, the header record and HDR_BYTES. -/
theorem ignoredHeaderFieldsDoNotMatter : Obligations.IgnoredHeaderFieldsDoNotMatter := by
  intro s m hp hm
  obtain ⟨hdr, w, he⟩ := State.validateStep_influential hm
  refine ⟨s.validateStep, s.validateStep.withIgnored m hdr w, exec_validate hp, ?_,
    rfl, rfl, rfl, rfl, rfl, rfl, rfl⟩
  rw [← he]
  exact exec_validate hp

end Sys2Proof.Machine

/-! PROOFS. The whole decode (44_container.md R255, 70_reset_and_hazards.md R351): DECODE is an accepted START and
CORE's own steps, and WAIT ends in every run. -/

namespace Sys2Proof.Machine

/-! ### Runs -/

/-- A step that completes is the first of a run. -/
theorem run_succ {s u : State} (h : step s = .next u) (n : Nat) :
    Host.Core.run Sys2Proof.core (n + 1) s = Host.Core.run Sys2Proof.core n u := by
  have hstep : Sys2Proof.core.step s = .next u := h
  simp only [Host.Core.run, hstep]

theorem step_of_nil {s : State} (hs : s.schedule = []) : step s = coreStep s := by
  unfold step
  rw [hs]

theorem coreStep_validate {s : State} (hp : s.phase = .validate) : coreStep s = .next s.validateStep := by
  unfold coreStep
  rw [hp]
  exact exec_validate hp

/-- Once the header is validated CORE's turn is GRID.STEP, which does nothing outside GRID (log 11). -/
theorem coreStep_eq_gridStep {s : State} (hp : s.phase ≠ .validate) : coreStep s = execGridStep s := by
  unfold coreStep
  split
  case h_1 hv => exact absurd hv hp
  case h_2 => rfl
  all_goals
    rename_i hq
    exact (if_neg (by simp [hq])).symm

theorem gridStep_phase {s t : State} (he : execGridStep s = .next t) (hp : s.phase ≠ .validate) :
    t.phase ≠ .validate := by
  obtain ⟨-, -, -, -, -, -, -, -, hq | ⟨-, hq⟩⟩ := gridStep_frame he
  · rwa [hq]
  · simp [hq]

/-- With nothing scheduled the steps of the grid are the machine's own (45_host_interface.md R277). -/
theorem gridSteps_run {n : Nat} {s t : State} (hs : s.schedule = []) (hp : s.phase ≠ .validate)
    (h : gridSteps n s = .next t) : Host.Core.run Sys2Proof.core n s = .next t := by
  induction n generalizing s with
  | zero => exact h
  | succ n ih =>
    rw [gridSteps] at h
    split at h
    next u hu =>
      have hstep : step s = .next u := by rw [step_of_nil hs, coreStep_eq_gridStep hp, hu]
      rw [run_succ hstep]
      exact ih ((exec_schedule (i := .gridStep) hu).trans hs) (gridStep_phase hu hp) h
    · cases h
    · cases h

/-! ### DECODE -/

/-- DECODE of a file that fails its validation ends there. -/
theorem exec_decode_error {s : State} (hb : s.busy = false) (hp : s.acceptStart.validateStep.phase = .error) :
    exec .decode s = .next s.acceptStart.validateStep := by
  change execDecode s = _
  simp [execDecode, hb, hp]

/-- While BUSY no START is accepted (45_host_interface.md R271, log 12). -/
theorem exec_decode_busy {s : State} (hb : s.busy = true) : exec .decode s = .next s := if_pos hb

/-- DECODE ends where CORE's turns after an accepted START end: one in ERROR, or one and one per block in DONE. -/
theorem exec_decode_run {s : State} (hs : s.schedule = []) (hb : s.busy = false) : ∃ t n,
    exec .decode s = .next t ∧ Host.Core.run Sys2Proof.core n s.acceptStart = .next t ∧
    (t.phase = .error ∧ n = 1 ∨ t.phase = .done ∧ n = 1 + t.geom.blocksX * t.geom.blocksY) := by
  have hstep : step s.acceptStart = .next s.acceptStart.validateStep :=
    (step_of_nil (s := s.acceptStart) hs).trans (coreStep_validate rfl)
  obtain ⟨-, -, -, -, hsched, hp | ⟨hp, -, -⟩⟩ := s.acceptStart.validateStep_frame
  · exact ⟨_, 1, exec_decode_error hb hp, run_succ hstep 0, .inl ⟨hp, rfl⟩⟩
  · obtain ⟨t, ht, hdone, hdrawn⟩ := exec_decode_draws hb (exec_validate rfl) hp
    rcases execDecode_cases ht with ⟨hb', -⟩ | ⟨-, hp', -⟩ | ⟨-, -, hsteps⟩
    · simp [hb] at hb'
    · exact absurd hp hp'
    · refine ⟨t, 1 + t.geom.blocksX * t.geom.blocksY, ht, ?_, .inr ⟨hdone, rfl⟩⟩
      rw [Nat.add_comm, run_succ hstep, hdrawn.geom]
      exact gridSteps_run (hsched.trans hs) (by simp [hp]) hsteps

/-! ### WAIT (30_encoding.md R114, log 30) -/

/-- HOST has read STATUS, and this is still to come. -/
def State.readStatus (s : State) (l : List Action) : State :=
  { s with schedule := l, ret := .word (s.readReg 0x04) }

theorem GridInv.readStatus {s : State} (h : GridInv s) (l : List Action) : GridInv (s.readStatus l) :=
  h.sameDecode ⟨rfl, rfl, rfl, rfl, rfl, rfl, rfl, rfl⟩

/-- A turn of WAIT reads STATUS, and while BUSY HOST stays in the loop. -/
theorem step_wait {s : State} {rest : List Action} (hs : s.schedule = .wait :: rest) :
    step s = .next (s.readStatus (if s.busy then loopWait rest else rest)) :=
  (step_of_cons hs).trans (hostWait_eq _)

/-- A turn of CORE or the platform named right after WAIT goes before HOST's next read. -/
theorem loopWait_turn {l : List Action} (h : l.head? = some .core ∨ l.head? = some .rst) :
    ∃ x r, l = x :: r ∧ loopWait l = x :: .wait :: r := by
  cases l with
  | nil => simp at h
  | cons a l =>
    rcases h with h | h <;> cases h
    · exact ⟨.core, l, rfl, rfl⟩
    · exact ⟨.rst, l, rfl, rfl⟩

/-- HOST leaves WAIT after finitely many steps, with no decode running and the STATUS it read last; what was
scheduled behind WAIT is still to come. -/
def WaitEnds (s : State) (rest : List Action) : Prop :=
  ∃ n t, Host.Core.run Sys2Proof.core n s = .next t ∧ t.schedule = rest ∧ t.busy = false ∧
    t.ret = .word (t.readReg 0x04)

theorem WaitEnds.of_step {s u : State} {rest : List Action} (h : WaitEnds u rest) (hs : step s = .next u) :
    WaitEnds s rest := by
  obtain ⟨n, t, hrun, ht⟩ := h
  exact ⟨n + 1, t, (run_succ hs n).trans hrun, ht⟩

theorem WaitEnds.of_not_busy {s : State} {rest : List Action} (hs : s.schedule = .wait :: rest)
    (hb : s.busy = false) : WaitEnds s rest := by
  have hread := step_wait hs
  rw [hb, if_neg Bool.false_ne_true] at hread
  exact ⟨1, _, run_succ hread 0, rfl, hb, rfl⟩

section

variable {s : State} {rest : List Action} (h1 : rest.head? ≠ some .core) (h2 : rest.head? ≠ some .rst)
include h1 h2

/-- While BUSY HOST reads STATUS, CORE takes its turn, and HOST is before WAIT again. -/
theorem WaitEnds.of_coreStep {u : State} (hs : s.schedule = .wait :: rest) (hb : s.busy = true)
    (hu : coreStep (s.readStatus (.wait :: rest)) = .next u) (h : WaitEnds u rest) : WaitEnds s rest := by
  have hread := step_wait hs
  rw [if_pos hb, loopWait_other h1 h2] at hread
  have hcore : step (s.readStatus (.core :: .wait :: rest)) = .next u := hu
  exact (h.of_step hcore).of_step hread

/-- A running decode in GRID ends, since each turn of CORE takes it to the next block (43_block_grid.md R218). -/
theorem WaitEnds.of_grid (hs : s.schedule = .wait :: rest) (hp : s.phase = .grid) (hg : GridInv s) :
    WaitEnds s rest := by
  obtain ⟨n, hn⟩ : ∃ n, s.streamIndex + n = s.geom.blocksX * s.geom.blocksY :=
    Nat.le.dest (streamIndex_lt hg.column hg.row).le
  induction n generalizing s with
  | zero =>
    have hlt : s.streamIndex < s.geom.blocksX * s.geom.blocksY := streamIndex_lt hg.column hg.row
    omega
  | succ n ih =>
    have hr := hg.readStatus (.wait :: rest)
    have hstep : execGridStep (s.readStatus (.wait :: rest)) = _ := hr.exec_gridStep hp
    have hsched := exec_schedule (i := .gridStep) hstep
    obtain ⟨-, -, -, -, -, hgeom, -, -, -⟩ := gridStep_frame hstep
    have hv : (s.readStatus (.wait :: rest)).phase ≠ .validate := fun h => by cases hp.symm.trans h
    refine .of_coreStep h1 h2 hs (State.busy_iff.mpr (.inr hp)) ((coreStep_eq_gridStep hv).trans hstep) ?_
    rcases hr.progress hp with ⟨-, he⟩ | ⟨-, hg', hp', hindex, -, -⟩
    · exact .of_not_busy hsched (by rw [he]; rfl)
    · refine ih hsched hp' hg' ?_
      rw [hindex, hgeom, Nat.add_right_comm]
      exact hn

/-- WAIT ends in every phase of a legal decode. -/
theorem WaitEnds.of_decodeInv (hs : s.schedule = .wait :: rest) (h : DecodeInv s) : WaitEnds s rest := by
  cases hp : s.phase with
  | grid => exact .of_grid h1 h2 hs hp (h.grid hp)
  | validate =>
    refine .of_coreStep h1 h2 hs (State.busy_iff.mpr (.inl hp)) (coreStep_validate hp) ?_
    obtain ⟨-, -, -, -, hsched, he | ⟨he, -, -⟩⟩ := (s.readStatus (.wait :: rest)).validateStep_frame
    · exact .of_not_busy hsched (by simp [State.busy, he])
    · exact .of_grid h1 h2 hsched he (State.validateStep_grid he)
  | idle => exact .of_not_busy hs (by simp [State.busy, hp])
  | done => exact .of_not_busy hs (by simp [State.busy, hp])
  | error => exact .of_not_busy hs (by simp [State.busy, hp])

end

/-- Settles O45: DECODE's steps are CORE's turns, and a running decode takes WAIT to its end. -/
theorem decodeIsItsSteps : Obligations.DecodeIsItsSteps := by
  refine ⟨fun s hs hb => exec_decode_run hs hb, fun s hb => exec_decode_busy hb, fun s rest hs => ?_,
    fun s rest h hs h1 h2 => ?_⟩
  · have hturn := step_wait hs
    refine ⟨fun hb => ?_, fun hb => ?_⟩
    · rwa [hb, if_neg Bool.false_ne_true] at hturn
    · rw [if_pos hb] at hturn
      exact ⟨loopWait rest, hturn, loopWait_turn, loopWait_other⟩
  · obtain ⟨n, t, hrun, hrest, hb, hret⟩ := WaitEnds.of_decodeInv h1 h2 hs h.decodeInv
    exact ⟨n, t, hrun, hrest, State.phase_of_not_busy hb, hret⟩

end Sys2Proof.Machine

/-! PROOFS. The host interface (45_host_interface.md): how a step picks its operation, HOST's register and byte
accesses, and where an access to what does not exist stops. -/

namespace Sys2Proof.Machine

/-! ### Where an access stops (20_memory.md R61, R62, log 10)

Each access compares its address with the capacity before anything else. -/

theorem State.whenInExists_absent {s : State} {a n : Nat} (h : s.cfg.inCap < a + n) (t : State) :
    s.whenInExists a n t = .fault .noSuchInAddress :=
  if_neg fun he => Nat.not_le.mpr h (of_decide_eq_true he)

section
variable {s : State} {rest : List Action} {a : Nat} {v : Byte}

theorem step_inWrite_absent (hs : s.schedule = .inWrite a v :: rest) (h : s.cfg.inCap ≤ a) :
    step s = .fault .noSuchInAddress := (step_of_cons hs).trans (if_pos h)

theorem step_inRead_absent (hs : s.schedule = .inRead a :: rest) (h : s.cfg.inCap ≤ a) :
    step s = .fault .noSuchInAddress := (step_of_cons hs).trans (if_pos h)

theorem step_outWrite_absent (hs : s.schedule = .outWrite a v :: rest) (h : s.cfg.outCap ≤ a) :
    step s = .fault .noSuchOutAddress := (step_of_cons hs).trans (if_pos h)

theorem step_outRead_absent (hs : s.schedule = .outRead a :: rest) (h : s.cfg.outCap ≤ a) :
    step s = .fault .noSuchOutAddress := (step_of_cons hs).trans (if_pos h)

end

/-- The copy stops where one byte of an unclipped pixel does not exist (43_block_grid.md R217). -/
theorem exec_tileCopy_absent {s : State} {cx cy : Nat} (i : PixelNo) (c : Fin 4)
    (hx : imageX cx i < s.geom.w.toNat) (hy : imageY cy i < s.geom.h.toNat)
    (h : s.cfg.outCap ≤ outAddress s.geom.w.toNat (imageX cx i) (imageY cy i) c.val) :
    exec (.tileCopy cx cy) s = .fault .noSuchOutAddress :=
  if_neg fun he => Nat.not_lt.mpr h
    (State.outExists_iff.mp he _ (State.mem_tileWrites.mpr ⟨i, c, ⟨hx, hy⟩, rfl⟩))

/-- A block step with no variant latched has no case of 43_block_grid.md R218 (log 19). -/
theorem exec_gridStep_noVariant {s : State} (hp : s.phase = .grid) (hv : s.geom.variant = .none) :
    exec .gridStep s = .fault .noVariant := (if_pos hp).trans (if_pos hv)

/-! ### The next operation (45_host_interface.md R277) -/

theorem invoke_ok {c : Code} {i : Instr} (h : decode c = .ok i) (s : State) : invoke c s = exec i s := by
  unfold invoke
  rw [h]

theorem invoke_error {c : Code} {e : DecodeError} (h : decode c = .error e) (s : State) :
    invoke c s = .refused .undecodable := by
  unfold invoke
  rw [h]

/-- Settles O6: what decodes is the code of a well-formed operation (O3), and the head of the schedule is run. -/
theorem stepRunsTheDecodedOperation : Obligations.StepRunsTheDecodedOperation :=
  fun _ c _ i hs hd => ⟨(encodeOfDecodeIsTheCode c i hd).1, (step_of_cons hs).trans (invoke_ok hd _)⟩

/-- VALIDATE has no effect outside its phase (log 11). -/
theorem exec_validate_elsewhere {s : State} (hp : s.phase ≠ .validate) : exec .validate s = .next s := if_neg hp

/-- GRID.STEP has no effect outside its phase (log 11). -/
theorem exec_gridStep_elsewhere {s : State} (hp : s.phase ≠ .grid) : exec .gridStep s = .next s := if_neg hp

/-- Settles O7: the step is CORE's turn, which is VALIDATE in VALIDATE and GRID.STEP in every other phase. -/
theorem coreTakesItsEnabledStep : Obligations.CoreTakesItsEnabledStep := by
  intro s t h
  obtain ⟨hstep, hphase⟩ : step s = coreStep t ∧ s.phase = t.phase := by
    rcases h with ⟨hs, rfl⟩ | ⟨rest, hs, rfl⟩
    · exact ⟨step_of_nil hs, rfl⟩
    · exact ⟨step_of_cons hs, rfl⟩
  rw [hstep, hphase]
  refine ⟨fun hp => ?_, fun hp => ?_, fun hp => ?_⟩
  · exact ⟨(coreStep_validate hp).trans (exec_validate hp).symm, exec_gridStep_elsewhere (by simp [hp])⟩
  · have hv : t.phase ≠ .validate := by simp [hp]
    exact ⟨coreStep_eq_gridStep hv, exec_validate_elsewhere hv⟩
  · obtain ⟨hv, hg⟩ : t.phase ≠ .validate ∧ t.phase ≠ .grid := by
      rcases hp with hp | hp | hp <;> simp [hp]
    have hgrid := exec_gridStep_elsewhere hg
    exact ⟨(coreStep_eq_gridStep hv).trans hgrid, exec_validate_elsewhere hv, hgrid⟩

/-! ### HOST's byte accesses (45_host_interface.md R276) -/

/-- IN after HOST has written one byte: the draw of this reading is the same. -/
theorem State.readIn_write (s : State) (l : List Action) (a : Nat) (v : Byte) (b : Nat) :
    { s with schedule := l, inMem := s.inMem.write a v }.readIn b = if b = a then v else s.readIn b := by
  unfold State.readIn
  rw [Memory.lookup_write]
  split <;> rfl

/-- With no decode running no OUT byte has a decode's value to choose (20_memory.md R74). -/
theorem State.decodedByte_idle {s : State} (hb : s.busy = false) (a : Nat) : s.decodedByte a = none := by
  unfold State.decodedByte
  rw [State.runningDecode_idle hb]

theorem hostOutRead_idle {s : State} (hb : s.busy = false) {a : Nat} (ha : a < s.cfg.outCap) :
    hostOutRead a s = .next { s with ret := .byte (s.readOut a) } := by
  unfold hostOutRead
  rw [if_neg (Nat.not_le.mpr ha), State.decodedByte_idle hb]

section
variable {s : State} {rest : List Action} {a : Nat} {v : Byte}

theorem step_inRead (hs : s.schedule = .inRead a :: rest) (ha : a < s.cfg.inCap) :
    step s = .next { s with schedule := rest, ret := .byte (s.readIn a), draws := s.draws + 1 } :=
  (step_of_cons hs).trans (if_neg (Nat.not_le.mpr ha))

theorem step_inWrite_idle (hs : s.schedule = .inWrite a v :: rest) (hb : s.busy = false) (ha : a < s.cfg.inCap) :
    step s = .next { s with schedule := rest, inMem := s.inMem.write a v } :=
  (step_of_cons hs).trans ((if_neg (Nat.not_le.mpr ha)).trans (if_neg fun hz => Bool.eq_false_iff.mp hb hz.1))

theorem step_outWrite_idle (hs : s.schedule = .outWrite a v :: rest) (hb : s.busy = false)
    (ha : a < s.cfg.outCap) : step s = .next { s with schedule := rest, outMem := s.outMem.write a v } :=
  (step_of_cons hs).trans ((if_neg (Nat.not_le.mpr ha)).trans (if_neg (Bool.eq_false_iff.mp hb)))

theorem step_outRead_idle (hs : s.schedule = .outRead a :: rest) (hb : s.busy = false) (ha : a < s.cfg.outCap) :
    step s = .next { s with schedule := rest, ret := .byte (s.readOut a) } :=
  (step_of_cons hs).trans (hostOutRead_idle (s := { s with schedule := rest }) hb ha)

end

/-- Settles O8: the four accesses, each at an absent and at an existing address. -/
theorem hostMemoryPortWithoutADecode : Obligations.HostMemoryPortWithoutADecode := by
  intro s rest a v
  refine ⟨fun hs => ?_, fun hb hs => ?_, fun hb hs => ?_, fun hb hs => ?_⟩
  · exact ⟨step_inRead_absent hs, fun ha => ⟨s.draws + 1, step_inRead hs ha⟩⟩
  · refine ⟨step_inWrite_absent hs, fun ha => ⟨_, step_inWrite_idle hs hb ha, rfl, ?_⟩⟩
    have hread := s.readIn_write rest a v
    exact ⟨(hread a).trans (if_pos rfl), fun b hne => (hread b).trans (if_neg hne)⟩
  · refine ⟨step_outWrite_absent hs, fun ha => ⟨_, step_outWrite_idle hs hb ha, rfl, ?_⟩⟩
    have hread := readOutOf_write s.outMem a v
    exact ⟨(hread a).trans (if_pos rfl), fun b hne => (hread b).trans (if_neg hne)⟩
  · exact ⟨step_outRead_absent hs, step_outRead_idle hs hb⟩

/-! ### Register reads (45_host_interface.md R270) -/

/-- The map of registers has an entry only at the aligned offsets below 0x3C (10_state.md R33). -/
theorem State.readReg_unmapped (s : State) {offset : Byte} (h : offset.toNat % 4 ≠ 0 ∨ 0x3C ≤ offset.toNat) :
    s.readReg offset = 0 := by
  unfold State.readReg
  split
  case h_15 => rfl
  all_goals omega

/-- While BUSY the invariant leaves STATUS nothing but STATE = 1. -/
theorem Inv.status_busy {s : State} (h : Inv s) (hb : s.busy = true) : s.status = 0x00000001 := by
  have hphase := State.busy_iff.mp hb
  have hstate : (stateField s.phase).toNat = 1 := (stateField_iff s.phase).2.1.mpr hphase
  have herr : s.err.toNat = 0 := h.err_zero (by rcases hphase with hp | hp <;> simp [hp])
  apply BitVec.eq_of_toNat_eq
  rw [State.status_toNat, hstate, herr]
  rfl

/-- Settles O10: RD returns the map's entry, evaluated at each of the fifteen offsets of a register. -/
theorem registerReadReturnsTheMappedRegister : Obligations.RegisterReadReturnsTheMappedRegister := by
  intro s offset data
  refine ⟨s.readReg offset, rfl, s.readReg_unmapped, ?_, ?_, ?_, ?_⟩
  · rintro rfl
    rfl
  · rintro rfl
    rw [State.readReg_status, State.status_toNat]
    cases s.phase <;> rfl
  · rintro rfl h hb
    exact h.status_busy hb
  · refine ⟨?_, ?_, ?_, ?_, ?_, ?_, ?_, ?_, ?_, ?_, ?_, ?_, ?_⟩
    all_goals
      rintro rfl
      rfl

/-! ### Register writes (45_host_interface.md R271 to R274) -/

/-- DATA[0] = 1 is an odd DATA. -/
theorem startBit_iff (data : Word) : data.getLsbD 0 = true ↔ data.toNat % 2 = 1 := by
  rw [← BitVec.testBit_toNat, Nat.testBit_zero, decide_eq_true_eq]

theorem exec_wrCtrl (data : Word) (s : State) :
    exec (.wrCtrl data) s = if data.toNat % 2 = 1 ∧ s.busy = false then .next s.acceptStart else .next s :=
  if_congr (and_congr_left' (startBit_iff data)) rfl rfl

/-- Settles O12: an odd DATA in a phase that is not BUSY is the accepted START, and every other write is ignored. -/
theorem startIsAcceptedUnlessBusy : Obligations.StartIsAcceptedUnlessBusy := by
  intro s data
  rw [exec_wrCtrl]
  refine ⟨fun hd hv hg => ⟨s.acceptStart, if_pos ⟨hd, State.not_busy_iff.mpr ⟨hv, hg⟩⟩, rfl⟩, fun h => if_neg ?_⟩
  rintro ⟨hd, hb⟩
  obtain ⟨hv, hg⟩ := State.not_busy_iff.mp hb
  rcases h with h | h | h
  · omega
  · exact hv h
  · exact hg h

/-- Settles O13: each FILE_LEN write is one assignment, in every phase. -/
theorem fileLengthWritesChangeOnlyTheirRegister : Obligations.FileLengthWritesChangeOnlyTheirRegister :=
  fun _ _ => ⟨rfl, rfl⟩

/-- Settles O14: the word is the code of WR.IGN, which is well-formed at these offsets (O2), and WR.IGN does
nothing. -/
theorem otherRegisterWritesAreIgnored : Obligations.OtherRegisterWritesAreIgnored := by
  intro s offset data h0 h8 hC
  have hwf : (Instr.wrIgn offset data).wf = true := by simpa [Instr.wf] using ⟨⟨h0, h8⟩, hC⟩
  have hword := append_eq_packHaw true 0 offset data
  exact ⟨(congrArg (decode ⟨.haw, ·, []⟩) hword).trans (decodeOfEncodeIsTheOperation _ hwf), rfl⟩

/-! ### Addresses that do not exist (45_host_interface.md R276, log 10, 17, 19, 29) -/

/-- Settles O51: every reader of IN checks its whole range, HOST's accesses and the copy their addresses, GRID.STEP
its variant and an invocation its code. -/
theorem absentAddressesStopByName : Obligations.AbsentAddressesStopByName := by
  refine ⟨?_, fun s rest a v => ⟨?_, ?_⟩, ?_, fun s => exec_gridStep_noVariant, ?_⟩
  · rintro s i a k h (⟨-, rfl⟩ | ⟨rfl, hi⟩ | ⟨rfl, rfl | rfl⟩ | ⟨rfl, rfl, rfl⟩)
    · exact State.whenInExists_absent h _
    · rcases hi with rfl | rfl | rfl | rfl | rfl | rfl | ⟨p, rfl⟩ <;> exact State.whenInExists_absent h _
    · exact State.whenInExists_absent h _
    · exact State.whenInExists_absent h _
    · exact State.whenInExists_absent h _
  · rintro h (hs | hs)
    · exact step_inWrite_absent hs h
    · exact step_inRead_absent hs h
  · rintro h (hs | hs)
    · exact step_outWrite_absent hs h
    · exact step_outRead_absent hs h
  · rintro s cx cy ⟨px, py, hx, hy, h⟩
    have hpx := imageX_tilePixel cx px py
    have hpy := imageY_tilePixel cy px py
    rw [Nat.mod_eq_of_lt px.isLt] at hpx
    rw [Nat.mod_eq_of_lt py.isLt] at hpy
    exact exec_tileCopy_absent (tilePixel px py) 3 (by rwa [hpx]) (by rwa [hpy]) (by rwa [hpx, hpy])
  · exact fun s c rest e hs hd => (step_of_cons hs).trans (invoke_error hd _)

end Sys2Proof.Machine

/-! PROOFS. The errors of VALIDATE (60_exceptions.md): the order of the checks, and what an error leaves unchanged. -/

namespace Sys2Proof.Machine

/-! ### The checks before the header is parsed (44_container.md R242 to R244) -/

/-- Taking an error enters ERROR with its code (60_exceptions.md R301). -/
theorem State.fails_of_raise {s t : State} {e : ErrorKind} (h : t = s.raise e) :
    t.phase = .error ∧ t.err = errorCode e := by
  subst h
  exact ⟨rfl, rfl⟩

section

variable {s : State}

theorem State.validateStep_overCapacity (h : s.cfg.inCap < s.len.toNat) :
    s.validateStep = s.raise .capacityExceeded := if_pos h

theorem State.magicMatches_false_iff : s.magicMatches = false ↔ ¬ magicBytes s := by
  rw [← State.magicMatches_iff, Bool.not_eq_true]

variable (hc : s.len.toNat ≤ s.cfg.inCap)
include hc

theorem State.validateStep_badMagic (h : s.len.toNat < 4 ∨ ¬ magicBytes (s.atReading 0)) :
    s.validateStep = s.raise .badMagic := by
  rw [← State.magicMatches_false_iff] at h
  rw [State.validateStep, if_neg (Nat.not_lt.mpr hc), if_pos h]

variable (h4 : 4 ≤ s.len.toNat) (hm : magicBytes (s.atReading 0))
include h4 hm

/-- With the magic read, VALIDATE turns to the header's length. -/
theorem State.validateStep_magic :
    s.validateStep = if s.len.toNat < 1172 then s.raise .truncated else s.parsedState.checkHeader := by
  have hmagic : ¬ (s.len.toNat < 4 ∨ (s.atReading 0).magicMatches = false) := by
    rw [State.magicMatches_false_iff]
    exact not_or.mpr ⟨Nat.not_lt.mpr h4, not_not.mpr hm⟩
  rw [State.validateStep, if_neg (Nat.not_lt.mpr hc), if_neg hmagic, hdrSize]

theorem State.validateStep_shortHeader (h : s.len.toNat < 1172) : s.validateStep = s.raise .truncated := by
  rw [State.validateStep_magic hc h4 hm, if_pos h]

theorem State.validateStep_wholeHeader (h : 1172 ≤ s.len.toNat) :
    s.validateStep = s.parsedState.checkHeader := by
  rw [State.validateStep_magic hc h4 hm, if_neg (Nat.not_lt.mpr h)]

end

/-! ### The checks on the parsed header (R246 to R252), each under the success of those before it -/

theorem variantOf_eq_none {k : Byte} : variantOf k = .none ↔ k ≠ 0 ∧ k ≠ 1 ∧ k ≠ 7 := by
  unfold variantOf
  split_ifs with h0 h1 h7
  · simp [h0]
  · simp [h1]
  · simp [h7]
  · exact ⟨fun _ => ⟨h0, h1, h7⟩, fun _ => rfl⟩

theorem variantOf_ne_none {k : Byte} : variantOf k ≠ .none ↔ k = 0 ∨ k = 1 ∨ k = 7 := by
  rw [ne_eq, variantOf_eq_none]
  tauto

theorem State.checkHeader_hdr (s : State) : s.checkHeader.hdr = s.hdr := by
  unfold State.checkHeader
  cases s.headerError <;> rfl

theorem State.checkHeader_fails {s : State} {e : ErrorKind} (h : s.headerError = some e) :
    s.checkHeader.phase = .error ∧ s.checkHeader.err = errorCode e :=
  State.fails_of_raise (s := s) (by rw [State.checkHeader, h])

theorem State.checkHeader_passes {s : State} (h : Accepted s) :
    s.checkHeader.phase = .grid ∧ s.checkHeader.err = s.err := by
  rw [State.checkHeader, State.headerError_none.mpr h]
  exact ⟨rfl, rfl⟩

section

variable {s : State}

theorem State.headerError_contentType (h : s.hdr.contentType ≠ 1) :
    s.headerError = some .unsupportedContentType := if_pos h

variable (htype : s.hdr.contentType = 1)
include htype

theorem State.headerError_compression (h : s.hdr.compression ≠ 2) :
    s.headerError = some .unsupportedCompression := by
  rw [State.headerError, if_neg (not_not.mpr htype), if_pos h]

variable (hcomp : s.hdr.compression = 2)
include hcomp

theorem State.headerError_alphaKind (h : variantOf s.hdr.alphaKind = .none) :
    s.headerError = some .unsupportedAlphaKind := by
  rw [State.headerError, if_neg (not_not.mpr htype), if_neg (not_not.mpr hcomp), if_pos h]

variable (hkind : variantOf s.hdr.alphaKind ≠ .none)
include hkind

theorem State.headerError_mipLevel (h : s.hdr.mipOffsets[0].toNat = 0 ∨ s.hdr.mipLengths[0].toNat = 0) :
    s.headerError = some .noMipLevel := by
  rw [State.headerError, if_neg (not_not.mpr htype), if_neg (not_not.mpr hcomp), if_neg hkind, if_pos h]

variable (hmip : ¬ (s.hdr.mipOffsets[0].toNat = 0 ∨ s.hdr.mipLengths[0].toNat = 0))
include hmip

/-- With a supported encoding and a mip level, its range, its length and the image's size are left to check (R250 to
R252). -/
theorem State.headerError_mip : s.headerError =
    if s.len.toNat < s.hdr.mipOffsets[0].toNat + s.hdr.mipLengths[0].toNat then some .truncated
    else if s.hdr.mipLengths[0].toNat ≠ blocksOf s.hdr.width.toNat * blocksOf s.hdr.height.toNat *
      blockBytesOf (variantOf s.hdr.alphaKind) then some .truncated
    else if s.cfg.outCap < s.hdr.width.toNat * s.hdr.height.toNat * 4 then some .capacityExceeded
    else none := by
  rw [State.headerError, if_neg (not_not.mpr htype), if_neg (not_not.mpr hcomp), if_neg hkind, if_neg hmip]

theorem State.headerError_range (h : s.len.toNat < s.hdr.mipOffsets[0].toNat + s.hdr.mipLengths[0].toNat) :
    s.headerError = some .truncated := by
  rw [State.headerError_mip htype hcomp hkind hmip, if_pos h]

variable (hrange : s.hdr.mipOffsets[0].toNat + s.hdr.mipLengths[0].toNat ≤ s.len.toNat)
include hrange

theorem State.headerError_length (h : s.hdr.mipLengths[0].toNat ≠ blocksOf s.hdr.width.toNat *
    blocksOf s.hdr.height.toNat * blockBytesOf (variantOf s.hdr.alphaKind)) : s.headerError = some .truncated := by
  rw [State.headerError_mip htype hcomp hkind hmip, if_neg (Nat.not_lt.mpr hrange), if_pos h]

theorem State.headerError_output (hlength : s.hdr.mipLengths[0].toNat = blocksOf s.hdr.width.toNat *
      blocksOf s.hdr.height.toNat * blockBytesOf (variantOf s.hdr.alphaKind))
    (h : s.cfg.outCap < s.hdr.width.toNat * s.hdr.height.toNat * 4) : s.headerError = some .capacityExceeded := by
  rw [State.headerError_mip htype hcomp hkind hmip, if_neg (Nat.not_lt.mpr hrange), if_neg (not_not.mpr hlength),
    if_pos h]

end

/-- Settles O40: each clause is one equation of the checks before the header or of those on the parsed one. -/
theorem validateReportsTheFirstFailingCheck : Obligations.ValidateReportsTheFirstFailingCheck := by
  intro s hp
  refine ⟨(s.atReading 0).draws, (s.atReading 1).draws, s.validateStep, exec_validate hp, ?_⟩
  have hhdr : ({ s with draws := (s.atReading 1).draws } : State).parsedHeader = s.parsedState.hdr :=
    s.parsedState_hdr.symm
  simp only [hhdr]
  refine ⟨fun h => State.fails_of_raise (State.validateStep_overCapacity h), fun hc =>
    ⟨fun h => State.fails_of_raise (State.validateStep_badMagic hc h), fun h4 hm =>
    ⟨fun h => State.fails_of_raise (State.validateStep_shortHeader hc h4 hm h), fun hl => ?_⟩⟩⟩
  rw [State.validateStep_wholeHeader hc h4 hm hl]
  refine ⟨s.parsedState.checkHeader_hdr,
    fun h => State.checkHeader_fails (State.headerError_contentType h), fun htype =>
    ⟨fun h => State.checkHeader_fails (State.headerError_compression htype h), fun hcomp =>
    ⟨fun h => State.checkHeader_fails (State.headerError_alphaKind htype hcomp (variantOf_eq_none.mpr h)),
    fun h => ?_⟩⟩⟩
  have hkind : variantOf s.parsedState.hdr.alphaKind ≠ .none := variantOf_ne_none.mpr h
  obtain ⟨-, hbytes, -⟩ := variantOf_accepted hkind
  rw [← hbytes]
  refine ⟨fun h => State.checkHeader_fails (State.headerError_mipLevel htype hcomp hkind h), fun ho hn => ?_⟩
  have hmip := not_or.mpr ⟨ho, hn⟩
  refine ⟨fun h => State.checkHeader_fails (State.headerError_range htype hcomp hkind hmip h), fun hrange => ?_⟩
  refine ⟨fun h => State.checkHeader_fails (State.headerError_length htype hcomp hkind hmip hrange h),
    fun hlength => ?_⟩
  exact ⟨fun h => State.checkHeader_fails (State.headerError_output htype hcomp hkind hmip hrange hlength h),
    fun hout => State.checkHeader_passes ⟨htype, hcomp, hkind, ho, hn, hrange, hlength, hout⟩⟩

/-! ### What an error leaves unchanged (60_exceptions.md R301) -/

/-- VALIDATE's error is one of CORE's, raised on the state with the header record and the header registers kept or
latched (R245). -/
theorem State.validateStep_error {s : State} (h : s.validateStep.phase = .error) : ∃ hdr r e,
    s.validateStep = State.raise { s with hdr := hdr, regs := r } e ∧ SameGeometryResults s.regs r ∧
      errorCode e ∈ ([1, 2, 3, 4, 5, 6, 9] : List (BitVec 4)) := by
  have hkept : SameGeometryResults s.regs s.regs := ⟨rfl, rfl, rfl, rfl, rfl⟩
  have hlatched : SameGeometryResults s.regs s.parsedState.regs := ⟨rfl, rfl, rfl, rfl, rfl⟩
  rcases s.validateStep_cases with ⟨-, he⟩ | ⟨-, -, he⟩ | ⟨-, -, -, -, he⟩ | ⟨-, -, -, ⟨e, hk, he⟩ | ⟨-, he⟩⟩
  · exact ⟨s.hdr, s.regs, _, he, hkept, by decide⟩
  · exact ⟨s.hdr, s.regs, _, he, hkept, by decide⟩
  · exact ⟨s.hdr, s.regs, _, he, hkept, by decide⟩
  · refine ⟨s.parsedState.hdr, s.parsedState.regs, e, he, hlatched, ?_⟩
    rcases State.headerError_kinds hk with rfl | rfl | rfl | rfl | rfl | rfl <;> decide
  · rw [he] at h
    cases h

/-- Registers that agree on the result registers agree on those of the geometry (10_state.md R34). -/
theorem SameResults.geometry {r q : Regs} (h : SameResults r q) : SameGeometryResults r q := by
  rw [h]
  exact ⟨rfl, rfl, rfl, rfl, rfl⟩

theorem SameGeometryResults.trans {p q r : Regs} (h : SameGeometryResults p q) (k : SameGeometryResults q r) :
    SameGeometryResults p r := by
  obtain ⟨hv, hx, hy, hlo, hhi⟩ := h
  obtain ⟨kv, kx, ky, klo, khi⟩ := k
  exact ⟨kv.trans hv, kx.trans hx, ky.trans hy, klo.trans hlo, khi.trans hhi⟩

/-- Settles O43: the error is raised on the state with at most the header latched, whose geometry registers a run has
cleared before the validation. -/
theorem errorsArePrecise : Obligations.ErrorsArePrecise := by
  intro s t hp hv ht
  obtain rfl : s.validateStep = t := Host.Outcome.next.inj ((exec_validate hp).symm.trans hv)
  obtain ⟨hdr, r, e, he, hsame, hcode⟩ := State.validateStep_error ht
  rw [he]
  exact ⟨rfl, hcode, hsame, fun hrun => (hrun.cleared hp).geometry.trans hsame, fun _ => rfl⟩

end Sys2Proof.Machine

/-! PROOFS. Reset and the hazards (70_reset_and_hazards.md): what HOST may write and read while a decode runs, what
the decode makes of a byte HOST raced, and what a reset leaves of the decode it abandons. -/

namespace Sys2Proof.Machine

/-! ### The input hazard (70_reset_and_hazards.md R346, log 17) -/

section
variable {s : State} {rest : List Action} {a : Nat} {v : Byte}

theorem step_inWrite_hazard (hs : s.schedule = .inWrite a v :: rest) (hb : s.busy = true) (ha : a < s.cfg.inCap)
    (hl : a < s.len.toNat) : step s = .refused .inputHazard :=
  (step_of_cons hs).trans ((if_neg (Nat.not_le.mpr ha)).trans (if_pos ⟨hb, hl⟩))

theorem step_inWrite_beyond (hs : s.schedule = .inWrite a v :: rest) (ha : a < s.cfg.inCap)
    (hl : s.len.toNat ≤ a) : step s = .next { s with schedule := rest, inMem := s.inMem.write a v } :=
  (step_of_cons hs).trans ((if_neg (Nat.not_le.mpr ha)).trans (if_neg fun hz => Nat.not_lt.mpr hl hz.2))

end

/-- Settles O9: the write below len is the hazard, any other is a write of IN as with no decode running. -/
theorem inputHazardIsRefused : Obligations.InputHazardIsRefused := by
  intro s rest a v hs hb ha
  refine ⟨step_inWrite_hazard hs hb ha, fun hl => ⟨_, step_inWrite_beyond hs ha hl, rfl, ?_⟩⟩
  have hread := s.readIn_write rest a v
  exact ⟨(hread a).trans (if_pos rfl), fun b hne => (hread b).trans (if_neg hne)⟩

/-! ### Reset (70_reset_and_hazards.md R340 to R342) -/

/-- What a reset leaves in OUT does not depend on the actions to come. -/
theorem State.abandonedOut_scheduled (s : State) (r : List Action) :
    { s with schedule := r }.abandonedOut = s.abandonedOut := s.reframe_abandonedOut s.cfg.nLanes r

/-- The value a decode writes to a byte does not depend on the actions to come. -/
theorem State.decodedByte_scheduled (s : State) (r : List Action) (a : Nat) :
    { s with schedule := r }.decodedByte a = s.decodedByte a := s.reframe_decodedByte s.cfg.nLanes r a

theorem step_rst {s : State} {rest : List Action} (hs : s.schedule = .rst :: rest) :
    step s = .next { s with schedule := rest }.rst := step_of_cons hs

theorem State.runningDecode_grid {s : State} (hp : s.phase = .grid) : s.runningDecode = some s := by
  unfold State.runningDecode
  rw [hp]

theorem State.decodedByte_running {s g : State} (h : s.runningDecode = some g) {a : Nat} (ha : a < g.geom.outLen) :
    s.decodedByte a = some (g.imageByte a) := by
  unfold State.decodedByte
  rw [h]
  exact if_pos ha

/-- An abandoned decode leaves a byte as it is without the decode, or its own value inside its image (R342). -/
theorem State.abandonedOut_oldOrNew {s g : State} (h : s.runningDecode = some g) (a : Nat) :
    readOutOf s.abandonedOut a = s.readBefore a ∨
      a < g.geom.outLen ∧ s.decodedByte a = some (readOutOf s.abandonedOut a) := by
  rcases State.abandonedOut_running h a with hold | ⟨ha, hnew⟩
  · exact .inl hold
  · exact .inr ⟨ha, hnew ▸ State.decodedByte_running h ha⟩

/-- In a run with no decode that will write OUT, OUT stands as it is without the decode (20_memory.md R71). -/
theorem DecodeInv.readOut_eq_readBefore {s : State} (h : DecodeInv s) (hb : s.busy = true)
    (hn : s.runningDecode = none) (a : Nat) : s.readOut a = s.readBefore a := by
  rcases State.busy_iff.mp hb with hp | hp
  · exact congrArg (readOutOf · a) (h.pending hp)
  · rw [State.runningDecode_grid hp] at hn
    cases hn

/-- Settles O48: OUT after the reset is that of the abandoned decode, every other field is reset or kept. -/
theorem resetInputRestoresTheResetState : Obligations.ResetInputRestoresTheResetState := by
  intro s rest hs
  refine ⟨_, step_rst hs, rfl, ?_⟩
  have hout : { s with schedule := rest }.rst.outMem = s.abandonedOut := s.abandonedOut_scheduled rest
  unfold State.readOut
  rw [hout]
  refine ⟨fun hb => State.abandonedOut_none (State.runningDecode_idle hb), fun hb hrun a => ?_, fun hp => ?_⟩
  · cases hd : s.runningDecode with
    | none =>
      rw [State.abandonedOut_none hd]
      exact .inl (hrun.decodeInv.readOut_eq_readBefore hb hd a)
    | some g => exact (State.abandonedOut_oldOrNew hd a).imp id And.right
  · exact State.abandonedOut_oldOrNew (State.runningDecode_grid hp)

/-! ### One value for each byte of a running decode (20_memory.md R74 (d)) -/

/-- The decode of a pending validation is the one it enters the grid with; with none there is no byte. -/
theorem State.decodedByte_validate {s : State} (hp : s.phase = .validate) (a : Nat) :
    s.decodedByte a = s.validateStep.decodedByte a := by
  have hrun : s.runningDecode = s.validateStep.runningDecode := by
    obtain ⟨-, -, -, -, -, he | ⟨hg, -, -⟩⟩ := s.validateStep_frame
    · simp [State.runningDecode, hp, he]
    · simp [State.runningDecode, hp, hg]
  unfold State.decodedByte
  rw [hrun]

/-- A failed validation leaves no decode running (10_state.md R24). -/
theorem State.not_busy_of_error {s : State} (h : s.phase = .error) : s.busy = false :=
  State.not_busy_iff.mpr (by simp [h])

@[simp] theorem State.validateStep_decodeDraws (s : State) : s.validateStep.decodeDraws = s.decodeDraws := by
  rcases s.validateStep_cases with ⟨-, he⟩ | ⟨-, -, he⟩ | ⟨-, -, -, -, he⟩ | ⟨-, -, -, ⟨e, -, he⟩ | ⟨-, he⟩⟩
  all_goals exact (congrArg State.decodeDraws he :)

@[simp] theorem State.advance_decodeDraws (s : State) : s.advance.decodeDraws = s.decodeDraws := by
  rcases s.advance_cases with ⟨-, he⟩ | ⟨-, -, he⟩ | ⟨-, -, he⟩
  all_goals exact (congrArg State.decodeDraws he :)

/-- Two states whose decode is one: the same phase, readings and IN below len, and the same geometry. -/
structure SameReadings (s t : State) : Prop where
  input : SameInput s t
  geom  : t.geom = s.geom

namespace SameReadings

variable {s t : State}

/-- A decode reads nothing but IN, its own draws and its geometry: not HOST's registers, not OUT, not the record of
its races. -/
theorem frame (s : State) (r : Regs) (o b : Memory) (l : List Nat) (d : Nat) (v : Ret) (q : List Action) :
    SameReadings s { s with
      regs := r, outMem := o, outBefore := b, outRaced := l, draws := d, ret := v, schedule := q } :=
  ⟨⟨rfl, rfl, rfl, rfl, fun _ _ => rfl⟩, rfl⟩

/-- A write of IN at or beyond len is harmless (70_reset_and_hazards.md R346). -/
theorem inWrite {a : Nat} (ha : s.len.toNat ≤ a) (v : Byte) :
    SameReadings s { s with inMem := s.inMem.write a v } :=
  ⟨⟨rfl, rfl, rfl, rfl, fun _ hb => Memory.lookup_write_other _ v (by omega)⟩, rfl⟩

/-- The validations of one decode enter the grid with one decode. -/
theorem validateStep (k : SameReadings s t) (hg : s.validateStep.phase = .grid) :
    SameReadings s.validateStep t.validateStep := by
  obtain ⟨hphase, hgeom⟩ := k.input.validateStep
  obtain ⟨hcfg, hin, -, hlen, -, -⟩ := s.validateStep_frame
  obtain ⟨kcfg, kin, -, klen, -, -⟩ := t.validateStep_frame
  refine ⟨⟨hphase, ?_, ?_, ?_, ?_⟩, hgeom hg⟩
  · rw [kcfg, hcfg, k.input.cfg]
  · rw [klen, hlen, k.input.len]
  · rw [State.validateStep_decodeDraws, State.validateStep_decodeDraws, k.input.decodeDraws]
  · rw [kin, hin, hlen]
    exact k.input.inMem

theorem decodedByte_grid (k : SameReadings s t) (hp : s.phase = .grid) (h : GridInv s) (a : Nat) :
    t.decodedByte a = s.decodedByte a := by
  rw [State.decodedByte_grid (k.input.phase.trans hp), State.decodedByte_grid hp, k.geom]
  split
  case isTrue ha =>
    rw [h.imageByte_congr k.input.decodeDraws.symm k.geom.symm (fun b hb => (k.input.inMem b hb).symm) ha]
  case isFalse => rfl

/-- One decode has one value for each byte. -/
theorem decodedByte (k : SameReadings s t) (h : DecodeInv s) (a : Nat) : t.decodedByte a = s.decodedByte a := by
  cases hb : s.busy with
  | false =>
    have hb' : t.busy = false := by
      unfold State.busy at hb ⊢
      rwa [k.input.phase]
    rw [State.decodedByte_idle hb, State.decodedByte_idle hb']
  | true =>
    rcases State.busy_iff.mp hb with hp | hp
    · rw [State.decodedByte_validate hp, State.decodedByte_validate (k.input.phase.trans hp)]
      obtain ⟨-, -, -, -, -, he | ⟨hg, -, -⟩⟩ := s.validateStep_frame
      · have he' : t.validateStep.phase = .error := k.input.validateStep.1.trans he
        rw [State.decodedByte_idle (State.not_busy_of_error he), State.decodedByte_idle (State.not_busy_of_error he')]
      · exact (k.validateStep hg).decodedByte_grid hg (State.validateStep_grid hg) a
    · exact k.decodedByte_grid hp (h.grid hp) a

/-- While BUSY no register access of HOST touches the decode (45_host_interface.md R271, R348). -/
theorem exec_haw (hb : s.busy = true) {w : Word48} (he : exec (decodeHaw w) s = .next t) : SameReadings s t := by
  unfold decodeHaw at he
  split_ifs at he
  · cases hw : hawWrite w <;> rw [hw] at he <;> cases he
    · exact frame _ _ _ _ _ _ _ _
    · exact frame _ _ _ _ _ _ _ _
  · cases he
    exact frame _ _ _ _ _ _ _ _
  · rcases execWrCtrl_next he with ⟨-, hidle, -⟩ | rfl
    · exact absurd hb (Bool.eq_false_iff.mp hidle)
    · exact frame _ _ _ _ _ _ _ _
  · cases he
    exact frame _ _ _ _ _ _ _ _
  · cases he
    exact frame _ _ _ _ _ _ _ _
  · cases he
    exact frame _ _ _ _ _ _ _ _

/-- A block step that does not end the decode leaves it the same decode. -/
theorem gridStep (he : exec .gridStep s = .next t) (hp : s.phase = .grid) (hb : t.busy = true) :
    SameReadings s t := by
  obtain ⟨hcfg, hin, hlen, -, -, hgeom, -, -, hq⟩ := gridStep_frame he
  have hphase : t.phase = s.phase := by
    rcases hq with hq | ⟨-, hq⟩
    · exact hq
    · simp [State.busy, hq] at hb
  have hstep : s.stepBlock = .next t := (if_pos hp).symm.trans he
  obtain ⟨-, -, -, rfl⟩ := State.stepBlock_next hstep
  refine ⟨⟨hphase, hcfg, hlen, ?_, fun a _ => by rw [hin]⟩, hgeom⟩
  rw [State.advance_decodeDraws, State.drawBlock_decodeDraws]

end SameReadings

/-- A completed write of IN while BUSY lies at or beyond len (70_reset_and_hazards.md R346). -/
theorem hostInWrite_busy {a : Nat} {v : Byte} {s t : State} (hb : s.busy = true) (he : hostInWrite a v s = .next t) :
    s.len.toNat ≤ a := by
  unfold hostInWrite at he
  split_ifs at he with ha hz
  exact Nat.not_lt.mp fun hl => hz ⟨hb, hl⟩

namespace DecodeInv

variable {s t : State}

/-- CORE's turn leaves the decode's bytes as long as the decode runs. -/
theorem core_decodedByte (h : DecodeInv s) (hb : t.busy = true) (he : coreStep s = .next t) (a : Nat) :
    t.decodedByte a = s.decodedByte a := by
  rcases coreStep_cases he with rfl | ⟨-, he⟩ | ⟨hp, he⟩
  · rfl
  · rcases execValidate_next he with ⟨hp, rfl⟩ | rfl
    · exact (State.decodedByte_validate hp a).symm
    · rfl
  · exact (SameReadings.gridStep he hp hb).decodedByte h a

/-- What HOST, CORE and the platform do leaves the decode's bytes as long as the decode runs (20_memory.md R74 (d)). -/
theorem action_decodedByte (h : DecodeInv s) (hb : s.busy = true) (hb' : t.busy = true) {x : Action}
    (hx : x.external = true) (he : act x s = .next t) (a : Nat) : t.decodedByte a = s.decodedByte a := by
  cases x with
  | invoke c =>
    obtain ⟨i, hi, he⟩ := invoke_next he
    obtain rfl : decodeHaw c.word = i := Except.ok.inj ((decode_external hx).symm.trans hi)
    exact (SameReadings.exec_haw hb he).decodedByte h a
  | inWrite b v =>
    have hl := hostInWrite_busy hb he
    obtain ⟨-, rfl⟩ := hostInWrite_next he
    exact (SameReadings.inWrite hl v).decodedByte h a
  | inRead b =>
    obtain ⟨d, v, rfl⟩ := hostInRead_eq he
    exact (SameReadings.frame _ _ _ _ _ _ _ _).decodedByte h a
  | outWrite b v =>
    rcases hostOutWrite_cases he with ⟨-, rfl⟩ | ⟨-, rfl⟩
    · exact (SameReadings.frame _ _ _ _ _ _ _ _).decodedByte h a
    · exact (SameReadings.frame _ _ _ _ _ _ _ _).decodedByte h a
  | outRead b =>
    obtain ⟨d, v, rfl⟩ := hostOutRead_eq he
    exact (SameReadings.frame _ _ _ _ _ _ _ _).decodedByte h a
  | wait =>
    obtain rfl := Host.Outcome.next.inj ((hostWait_eq s).symm.trans he)
    exact (SameReadings.frame _ _ _ _ _ _ _ _).decodedByte h a
  | rst =>
    cases he
    cases hb'
  | core => exact h.core_decodedByte hb' he a

end DecodeInv

/-- In a run a decode has one value for each byte it writes, as long as it runs. -/
theorem RunInv.step_decodedByte {s t : State} (h : RunInv s) (he : step s = .next t) (hb : s.busy = true)
    (hb' : t.busy = true) (a : Nat) : t.decodedByte a = s.decodedByte a := by
  rcases step_cases he with ⟨-, he⟩ | ⟨x, rest, hs, he⟩
  · exact h.decodeInv.core_decodedByte hb' he a
  · have hx : x.external = true := h.external x (by rw [hs]; exact List.mem_cons_self)
    have hd : DecodeInv { s with schedule := rest } := h.decodeInv.frame _ _ _ rest
    exact (hd.action_decodedByte hb hb' hx he a).trans (s.decodedByte_scheduled rest a)

/-! ### A HOST read of OUT while BUSY (70_reset_and_hazards.md R347, log 14) -/

/-- What a read of OUT may return: the byte as it stands where the decode writes none, else the decode's or the one
without the decode. -/
def State.MayRead (s : State) (a : Nat) (w : Byte) : Prop :=
  (s.decodedByte a = none → w = s.readOut a) ∧ ∀ v, s.decodedByte a = some v → w = v ∨ w = s.readBefore a

theorem hostOutRead_mayRead {s : State} {a : Nat} (ha : a < s.cfg.outCap) :
    ∃ w d, hostOutRead a s = .next { s with ret := .byte w, draws := d } ∧ s.MayRead a w := by
  unfold hostOutRead State.MayRead
  rw [if_neg (Nat.not_le.mpr ha)]
  cases s.decodedByte a with
  | none => exact ⟨s.readOut a, s.draws, rfl, fun _ => rfl, fun _ hv => by cases hv⟩
  | some v =>
    refine ⟨if Config.takesDecoded s.draws a then v else s.readBefore a, s.draws + 1, rfl, fun hn => (by cases hn),
      fun u hu => ?_⟩
    cases hu
    cases Config.takesDecoded s.draws a with
    | true => exact .inl rfl
    | false => exact .inr rfl

theorem step_outRead {s : State} {rest : List Action} {a : Nat} (hs : s.schedule = .outRead a :: rest)
    (ha : a < s.cfg.outCap) :
    ∃ w d, step s = .next { s with schedule := rest, ret := .byte w, draws := d } ∧ s.MayRead a w := by
  obtain ⟨w, d, he, hw⟩ := hostOutRead_mayRead (s := { s with schedule := rest }) ha
  unfold State.MayRead at hw
  rw [s.decodedByte_scheduled rest a] at hw
  exact ⟨w, d, (step_of_cons hs).trans he, hw⟩

/-- The decode writes nothing at or beyond OUT_LEN (20_memory.md R71). -/
theorem State.decodedByte_beyond {s : State} (hp : s.phase = .grid) {a : Nat} (ha : s.geom.outLen ≤ a) :
    s.decodedByte a = none := (State.decodedByte_grid hp a).trans (if_neg (Nat.not_lt.mpr ha))

/-- The value of a channel of an image pixel is the block decoder's, at the decode's own reading of the block
(43_block_grid.md R221, log 8). -/
theorem GridInv.decodedByte_pixel {s : State} (h : GridInv s) (hp : s.phase = .grid) {x y : Nat}
    (hx : x < s.geom.w.toNat) (hy : y < s.geom.h.toNat) (c : Fin 4) : ∃ d u,
    exec (blockDecoder s.geom.variant (s.blockAddr (x / 4) (y / 4))) { s with draws := d } = .next u ∧
    s.decodedByte (outAddress s.geom.w.toNat x y c.val) = some (tileByte u.tile (tilePixel x y) c) := by
  obtain ⟨hbx, hby⟩ := h.block_of_pixel hx hy
  have hin := (h.block_below hbx hby).trans h.lenFits
  refine ⟨(s.blockReading (x / 4) (y / 4)).draws, (s.blockReading (x / 4) (y / 4)).decodeBlock _,
    exec_blockDecoder (s := s.blockReading (x / 4) (y / 4)) h.variant hin, ?_⟩
  rw [State.decodedByte_running (State.runningDecode_grid hp) (outAddress_lt hx hy c.isLt),
    s.imageByte_outAddress hx c]
  rfl

/-! ### OUT after a block step (70_reset_and_hazards.md R347, log 15) -/

/-- The advance leaves OUT alone, but at DONE a byte HOST raced inside the image may take HOST's value. -/
theorem State.advance_readOut (s : State) (a : Nat) :
    s.advance.readOut a = s.readOut a ∨
      a ∈ s.outRaced ∧ a < s.geom.outLen ∧ s.advance.phase = .done ∧ s.advance.readOut a = s.readBefore a := by
  rcases s.advance_cases with ⟨-, he⟩ | ⟨-, -, he⟩ | ⟨-, -, he⟩ <;> rw [he]
  · exact .inl rfl
  · exact .inl rfl
  · rcases s.settledOut_readOut a with hout | ⟨hr, hl, hbefore⟩
    · exact .inl hout
    · exact .inr ⟨hr, hl, rfl, hbefore⟩

/-- A block step leaves a byte as the copy of the block does, but for a byte HOST raced at DONE. -/
theorem gridStep_readOut {s t : State} (hp : s.phase = .grid) (he : exec .gridStep s = .next t) (a : Nat) :
    t.readOut a = s.drawBlock.readOut a ∨
      a ∈ s.outRaced ∧ a < s.geom.outLen ∧ t.phase = .done ∧ t.readOut a = s.readBefore a := by
  have hstep : s.stepBlock = .next t := (if_pos hp).symm.trans he
  obtain ⟨-, -, -, rfl⟩ := State.stepBlock_next hstep
  have h := s.drawBlock.advance_readOut a
  have hbefore : s.drawBlock.readBefore a = s.readBefore a := congrArg (readOutOf · a) s.drawBlock_outBefore
  rwa [s.drawBlock_outRaced, s.drawBlock_geom, hbefore] at h

/-- Settles O49: HOST's read by the choice it makes, the decode's byte by the block decoder, its stability along a
run (20_memory.md R74 (d)), and the block step by its copy and the settling at DONE. -/
theorem outReadWhileBusyIsOldOrNew : Obligations.OutReadWhileBusyIsOldOrNew := by
  refine ⟨fun s rest a hs ha => ?_, fun s x y c hp h hx hy => h.decodedByte_pixel hp hx hy c,
    fun s a hp ha => State.decodedByte_beyond hp ha, fun s t h he hb hb' => h.step_decodedByte he hb hb',
    fun s t hp _ he a => ?_⟩
  · obtain ⟨w, d, he, hnone, hsome⟩ := step_outRead hs ha
    exact ⟨_, w, he, rfl, hnone, hsome, fun hp hl => hnone (State.decodedByte_beyond hp hl)⟩
  · rcases gridStep_readOut hp he a with hcopy | ⟨hr, -, hdone, hbefore⟩
    · rw [hcopy]
      rcases s.drawBlock_readOut a with hold | ⟨hl, hnew⟩
      · exact .inl hold
      · rw [hnew]
        exact .inr (.inl (State.decodedByte_running (State.runningDecode_grid hp) hl))
    · exact .inr (.inr ⟨hr, hdone, hbefore⟩)

/-! ### A HOST write of OUT while BUSY (70_reset_and_hazards.md R347, log 15) -/

/-- OUT after a write of HOST's while BUSY: a byte of the image keeps the decode's value until DONE. -/
def State.racedOut (s : State) (a : Nat) (v : Byte) : Memory :=
  if s.phase = .grid ∧ a < s.geom.outLen then s.outMem else s.outMem.write a v

theorem State.racedOut_image {s : State} {a : Nat} (hp : s.phase = .grid) (ha : a < s.geom.outLen) (v : Byte) :
    s.racedOut a v = s.outMem := if_pos ⟨hp, ha⟩

theorem State.racedOut_written {s : State} {a : Nat} (h : ¬ (s.phase = .grid ∧ a < s.geom.outLen)) (v : Byte) :
    readOutOf (s.racedOut a v) a = v := by
  unfold State.racedOut
  rw [if_neg h, readOutOf_write, if_pos rfl]

theorem State.racedOut_other (s : State) {a b : Nat} (v : Byte) (h : b ≠ a) :
    readOutOf (s.racedOut a v) b = s.readOut b := by
  unfold State.racedOut
  split
  · rfl
  · rw [readOutOf_write, if_neg h]
    rfl

theorem step_outWrite_busy {s : State} {rest : List Action} {a : Nat} {v : Byte}
    (hs : s.schedule = .outWrite a v :: rest) (hb : s.busy = true) (ha : a < s.cfg.outCap) :
    step s = .next { s with
      schedule := rest, outMem := s.racedOut a v, outBefore := s.outBefore.write a v, outRaced := a :: s.outRaced } :=
  (step_of_cons hs).trans ((if_neg (Nat.not_le.mpr ha)).trans (if_pos hb))

/-- Settles O50: HOST's write byte by byte, and the last block step by its copy and the settling of the races. -/
theorem outWriteWhileBusyRaces : Obligations.OutWriteWhileBusyRaces := by
  refine ⟨fun s rest a v hs hb ha => ?_, fun s u t hp _ he _ hu a => ?_⟩
  · have hbefore := readOutOf_write s.outBefore a v
    refine ⟨_, step_outWrite_busy hs hb ha, rfl, (hbefore a).trans (if_pos rfl), rfl, fun hp => ?_, fun _ hl => ?_,
      fun hp hl => ?_, fun b hne => ⟨(hbefore b).trans (if_neg hne), s.racedOut_other v hne⟩⟩
    · exact State.racedOut_written (by simp [hp]) v
    · exact State.racedOut_written (fun hz => Nat.not_lt.mpr hl hz.2) v
    · exact congrArg (readOutOf · a) (State.racedOut_image hp hl v)
  · obtain ⟨-, rfl⟩ := execTileCopy_next hu
    exact (gridStep_readOut hp he a).imp id fun ⟨hr, hl, _, hbefore⟩ => ⟨hr, hl, hbefore⟩

end Sys2Proof.Machine
